-- ==== Sys2Proof/Word.lean ====
section
/-! DEFINITION. The word type of the block: the byte (00_scope.md R11, R13), and the fixed numbers of the source (R7). -/

namespace Sys2Proof

/-- 8 bits, bit 0 the least significant (00_scope.md R13); every data register and every memory cell is one (R11, R61). -/
abbrev Byte := BitVec 8

/-- `IDLE_OFF`: the trigger value that turns the idle timeout off (00_scope.md R7). -/
def idleOff : Byte := 255

end Sys2Proof
end

