-- ==== Sys2Proof/Config.lean ====
section
/-! DEFINITION. What one instance of the hardware fixes (00_scope.md R8 to R10) and the free values.
A configuration is plain data carried by the state and changed by no step: a statement about every state is a statement about every configuration. -/

namespace Sys2Proof

/-- The three hold counts `(a, b, c)` = `HT[0], HT[1], HT[2]` (10_state.md R21). -/
structure HoldTable where
  a : Byte
  b : Byte
  c : Byte
deriving DecidableEq, Repr

/-- The open parameters of the spec: geometry (R8), row scramble table (R9), reset parameters (R10).
`resetBack` holds the bytes of RESET_BACK that are known, from its first one on.
Every byte it does not list is a free value (log 3). -/
structure Config where
  w : Nat
  h : Nat
  rowOrder : List Nat
  resetHt : HoldTable
  resetBright : Byte
  powerOnImage : List Byte
  resetBack : List Byte
deriving DecidableEq, Repr

namespace Config

/-- `WB`: block columns (R8). -/
def wb (c : Config) : Nat := c.w / 8
/-- `STRIDE`: bytes per row of one plane (R8). -/
def stride (c : Config) : Nat := c.wb
/-- `HB`: bytes per half-row of one plane (R8). -/
def hb (c : Config) : Nat := c.w / 16
/-- `PLANE_LEN` (R8). -/
def planeLen (c : Config) : Nat := c.stride * c.h
/-- `BUF_LEN` (R8). -/
def bufLen (c : Config) : Nat := 3 * c.planeLen
/-- `FB_LEN` (R8). -/
def fbLen (c : Config) : Nat := 2 * c.bufLen

/-- Free value: what an address without a known reset content reads as until it is written.
That is every byte of RESET_BACK the configuration does not list (R10, R39, R271), and any number that is no address of the space, which no operation forms (R60).
DESIGN CHOICE, safe (log 3, log 10). -/
opaque freeByte : Nat → Byte

/-- Free value: the physical row a scan would take for an index that ROW_ORDER does not list, which the legal cursor never is (R9, R27).
DESIGN CHOICE, safe (log 10). -/
opaque freeRow : Nat → Nat

/-- A lane's three plane bits are one of the four thermometer patterns (10_state.md R41). -/
def lanePattern (b0 b1 b2 : Bool) : Bool :=
  match b0, b1, b2 with
  | false, false, false => true
  | true, false, false => true
  | true, true, false => true
  | true, true, true => true
  | false, true, false => false
  | false, true, true => false
  | false, false, true => false
  | true, false, true => false

/-- A block position with these plane bytes is consistent: every lane is (10_state.md R41). -/
def thermometer (p0 p1 p2 : Byte) : Bool :=
  (List.range 8).all (fun i => lanePattern (p0.getLsbD i) (p1.getLsbD i) (p2.getLsbD i))

/-- The constraints the spec puts on the parameters (R8 to R10): geometry, ROW_ORDER a permutation of `0 .. H-1`, and a consistent power-on image of `BUF_LEN` bytes (R41). -/
structure Valid (c : Config) : Prop where
  wMod : c.w % 16 = 0
  wLow : 16 ≤ c.w
  wHigh : c.w ≤ 256
  hLow : 1 ≤ c.h
  hHigh : c.h ≤ 255
  rowLength : c.rowOrder.length = c.h
  rowRange : ∀ y ∈ c.rowOrder, y < c.h
  rowDistinct : c.rowOrder.Nodup
  imageLength : c.powerOnImage.length = c.bufLen
  imageConsistent : ∀ i < c.planeLen,
    thermometer (c.powerOnImage.getD i 0) (c.powerOnImage.getD (c.planeLen + i) 0)
      (c.powerOnImage.getD (2 * c.planeLen + i) 0) = true

/-- The instance behind `State.reset`: the spec's CFG_A (95_test_vectors.md section 0) with RESET_BACK wholly free.
Its 48 by 12 geometry is the spec's passage from general knowledge G1 (R8): PRESUMED, unsafe for claims about this instance alone (log 1).
Its hold table, brightness, row order and blank image are CFG_A's: DESIGN CHOICE, unsafe (log 1, log 2). -/
def badge : Config where
  w := 48
  h := 12
  rowOrder := [0, 1, 2, 3, 4, 5, 6, 7, 8, 9, 10, 11]
  resetHt := ⟨1, 4, 4⟩
  resetBright := 10
  powerOnImage := List.replicate 216 0
  resetBack := []

/-- CFG_T of 95_test_vectors.md section 0: 16 by 2, ROW_ORDER = [1, 0], for tests. -/
def tiny : Config where
  w := 16
  h := 2
  rowOrder := [1, 0]
  resetHt := ⟨1, 1, 1⟩
  resetBright := 10
  powerOnImage := List.replicate 12 0
  resetBack := List.replicate 12 0

end Config
end Sys2Proof
end

