-- ==== Sys2Proof/Syntax.lean ====
section
/-! DEFINITION. The operations: the sixteen of the command port and TICK, one constructor per row of opcode_table.json (30_encoding.md R96, R103). -/

namespace Sys2Proof

/-- The target selector `t`: 0 names the back buffer, 1 the front buffer (20_memory.md R64). -/
inductive Target where
  | back
  | front
deriving DecidableEq, Repr

/-- The end-of-fade action (10_state.md R38). -/
inductive EndAct where
  | noAction
  | clear
  | restart
  | resume
deriving DecidableEq, Repr

/-- One operation with its operands (30_encoding.md R92, R93, R96).
`query` carries all four id bits, since R171 gives ids 7..15 a meaning too (BadCommand).
The data bytes of WRRECT are no operand here: it takes them from the command stream while it executes, as R146 writes it (log 13). -/
inductive Instr where
  | query (r : BitVec 4)
  | bright (level : Byte)
  | swap
  | rdrect (t : Target) (bx y bw h : Byte)
  | wrrect (t : Target) (bx y bw h : Byte)
  | cprect (src dst : Target) (sbx sy bw h dbx dy : Byte)
  | flrect (t : Target) (v : BitVec 2) (bx y bw h : Byte)
  | setpx (t : Target) (v : BitVec 2) (x y : Byte)
  | getpx (t : Target) (x y : Byte)
  | holds (a b c : Byte)
  | idle (f : Bool) (aa : EndAct) (trig : Byte)
  | idlerst
  | outen (e : Bool)
  | enc (low high : Byte)
  | dec (p0 p1 p2 : Byte)
  | clrfc
  | tick
deriving DecidableEq, Repr

end Sys2Proof
end

