-- ==== Sys2Proof/WellFormed.lean ====
section
/-! DEFINITION. Which operations are well formed, and which of them the command port can carry. -/

namespace Sys2Proof

/-- A QUERY id is 0..6 (30_encoding.md R96, R100); every other operand value is legal (R97). -/
def Instr.wf : Instr → Bool
  | .query r => r.toNat ≤ 6
  | .bright _ => true
  | .swap => true
  | .rdrect _ _ _ _ _ => true
  | .wrrect _ _ _ _ _ => true
  | .cprect _ _ _ _ _ _ _ _ => true
  | .flrect _ _ _ _ _ _ => true
  | .setpx _ _ _ _ => true
  | .getpx _ _ _ => true
  | .holds _ _ _ => true
  | .idle _ _ _ => true
  | .idlerst => true
  | .outen _ => true
  | .enc _ _ => true
  | .dec _ _ _ => true
  | .clrfc => true
  | .tick => true

/-- TICK is an event and has no encoding; every other operation is a command of the port (30_encoding.md R103). -/
def Instr.isCommand : Instr → Bool
  | .query _ => true
  | .bright _ => true
  | .swap => true
  | .rdrect _ _ _ _ _ => true
  | .wrrect _ _ _ _ _ => true
  | .cprect _ _ _ _ _ _ _ _ => true
  | .flrect _ _ _ _ _ _ => true
  | .setpx _ _ _ _ => true
  | .getpx _ _ _ => true
  | .holds _ _ _ => true
  | .idle _ _ _ => true
  | .idlerst => true
  | .outen _ => true
  | .enc _ _ => true
  | .dec _ _ _ => true
  | .clrfc => true
  | .tick => false

/-- What the encoder takes: a well-formed command of the port. -/
def Instr.encodable (i : Instr) : Bool := i.wf && i.isCommand

end Sys2Proof
end

