-- ==== Sys2Proof/Decode.lean ====
section
/-! DEFINITION. The decoder of the command stream, total on any bytes and rejecting by name, and the encoder (30_encoding.md R90 to R104). -/

namespace Sys2Proof

/-- The sixteen operations a header can select (30_encoding.md R96). -/
inductive Op where
  | query | bright | swap | rdrect | wrrect | cprect | flrect | setpx
  | getpx | holds | idle | idlerst | outen | enc | dec | clrfc
deriving DecidableEq, Repr

/-- A row of the opcode map: a header `hdr` selects it when `hdr & mask = pat` (R96). -/
structure OpRow where
  op : Op
  pat : Byte
  mask : Byte
deriving DecidableEq, Repr

/-- Why the decoder gives no operation: an illegal header (R97), or bytes that end before the command does. -/
inductive DecodeError where
  | badCommand (hdr : Byte)
  | truncated (missing : Nat)
deriving DecidableEq, Repr

/-- The opcode map (R96). -/
def opTable : List OpRow :=
  [⟨.query, 0x10, 0xF0⟩, ⟨.bright, 0x20, 0xFF⟩, ⟨.swap, 0x30, 0xFF⟩, ⟨.rdrect, 0x40, 0xFE⟩,
   ⟨.wrrect, 0x50, 0xFE⟩, ⟨.cprect, 0x60, 0xFC⟩, ⟨.flrect, 0x70, 0xF2⟩, ⟨.setpx, 0x80, 0xF2⟩,
   ⟨.getpx, 0x90, 0xFE⟩, ⟨.holds, 0xA0, 0xFF⟩, ⟨.idle, 0xB0, 0xF8⟩, ⟨.idlerst, 0xC0, 0xFF⟩,
   ⟨.outen, 0xD0, 0xFE⟩, ⟨.enc, 0xE0, 0xFF⟩, ⟨.dec, 0xE1, 0xFF⟩, ⟨.clrfc, 0xF0, 0xFF⟩]

/-- The row's condition, with QUERY's extra `hdr[3:0] <= 6` (R96). -/
def OpRow.selects (row : OpRow) (hdr : Byte) : Bool :=
  hdr &&& row.mask == row.pat && (row.op != .query || hdr.toNat % 16 ≤ 6)

/-- The operation a header selects; none for an illegal header (R97, R104). -/
def selectOp (hdr : Byte) : Option Op :=
  (opTable.find? (fun row => row.selects hdr)).map OpRow.op

/-- Operand bytes after the header (R92, R98). -/
def operandCount : Op → Nat
  | .query => 0
  | .bright => 1
  | .swap => 0
  | .rdrect => 4
  | .wrrect => 4
  | .cprect => 6
  | .flrect => 4
  | .setpx => 2
  | .getpx => 2
  | .holds => 3
  | .idle => 1
  | .idlerst => 0
  | .outen => 0
  | .enc => 2
  | .dec => 3
  | .clrfc => 0

/-- A target bit of the header: 0 back, 1 front (R91). -/
def targetField (hdr : Byte) (n : Nat) : Target := if hdr.getLsbD n then .front else .back

/-- `v = hdr[3:2]` (R91). -/
def grayField (hdr : Byte) : BitVec 2 := hdr.extractLsb' 2 2

/-- `r = hdr[3:0]` (R91). -/
def queryField (hdr : Byte) : BitVec 4 := hdr.extractLsb' 0 4

/-- The number of an end-of-fade action (10_state.md R38). -/
def EndAct.code : EndAct → BitVec 2
  | .noAction => 0
  | .clear => 1
  | .restart => 2
  | .resume => 3

/-- The end-of-fade action of a number (10_state.md R38, 42_engine_requests.md R176). -/
def endActOf (n : BitVec 2) : EndAct :=
  if n = 0 then .noAction else if n = 1 then .clear else if n = 2 then .restart else .resume

/-- `aa = hdr[2:1]` (R91). -/
def endActField (hdr : Byte) : EndAct := endActOf (hdr.extractLsb' 1 2)

/-- The operation of a legal header and its operand bytes `k 0, k 1, ...` in the listed order (R91 to R93). -/
def assemble (op : Op) (hdr : Byte) (k : Nat → Byte) : Instr :=
  match op with
  | .query => .query (queryField hdr)
  | .bright => .bright (k 0)
  | .swap => .swap
  | .rdrect => .rdrect (targetField hdr 0) (k 0) (k 1) (k 2) (k 3)
  | .wrrect => .wrrect (targetField hdr 0) (k 0) (k 1) (k 2) (k 3)
  | .cprect => .cprect (targetField hdr 0) (targetField hdr 1) (k 0) (k 1) (k 2) (k 3) (k 4) (k 5)
  | .flrect => .flrect (targetField hdr 0) (grayField hdr) (k 0) (k 1) (k 2) (k 3)
  | .setpx => .setpx (targetField hdr 0) (grayField hdr) (k 0) (k 1)
  | .getpx => .getpx (targetField hdr 0) (k 0) (k 1)
  | .holds => .holds (k 0) (k 1) (k 2)
  | .idle => .idle (hdr.getLsbD 0) (endActField hdr) (k 0)
  | .idlerst => .idlerst
  | .outen => .outen (hdr.getLsbD 0)
  | .enc => .enc (k 0) (k 1)
  | .dec => .dec (k 0) (k 1) (k 2)
  | .clrfc => .clrfc

/-- The first command of a byte sequence and the bytes after it (R90, R98, R104).
For WRRECT the bytes after it begin with its data (log 13). -/
def decode : List Byte → Except DecodeError (Instr × List Byte)
  | [] => .error (.truncated 1)
  | hdr :: rest =>
    match selectOp hdr with
    | none => .error (.badCommand hdr)
    | some op =>
      if rest.length < operandCount op then .error (.truncated (operandCount op - rest.length))
      else .ok (assemble op hdr (fun j => rest.getD j 0), rest.drop (operandCount op))

/-- The target's bit (R101). -/
def Target.bit : Target → Byte
  | .back => 0
  | .front => 1

/-- A flag as a byte of value 0 or 1. -/
def flagByte (b : Bool) : Byte := if b then 1 else 0

/-- The bytes of an operation, from the assembler table (R101); TICK has none (R103). -/
def encode : Instr → List Byte
  | .query r => [0x10 + r.setWidth 8]
  | .bright level => [0x20, level]
  | .swap => [0x30]
  | .rdrect t bx y bw h => [0x40 + t.bit, bx, y, bw, h]
  | .wrrect t bx y bw h => [0x50 + t.bit, bx, y, bw, h]
  | .cprect src dst sbx sy bw h dbx dy => [0x60 + 2 * dst.bit + src.bit, sbx, sy, bw, h, dbx, dy]
  | .flrect t v bx y bw h => [0x70 + 4 * v.setWidth 8 + t.bit, bx, y, bw, h]
  | .setpx t v x y => [0x80 + 4 * v.setWidth 8 + t.bit, x, y]
  | .getpx t x y => [0x90 + t.bit, x, y]
  | .holds a b c => [0xA0, a, b, c]
  | .idle f aa trig => [0xB0 + 2 * aa.code.setWidth 8 + flagByte f, trig]
  | .idlerst => [0xC0]
  | .outen e => [0xD0 + flagByte e]
  | .enc low high => [0xE0, low, high]
  | .dec p0 p1 p2 => [0xE1, p0, p1, p2]
  | .clrfc => [0xF0]
  | .tick => []

/-- Byte `j` of a table word: bit 0 of the word is the least significant bit of the first byte, and the bits from `nbits` on are 0. -/
def tableByte (nbits w j : Nat) : Byte := BitVec.ofNat 8 (w % 2 ^ nbits / 2 ^ (8 * j))

/-- How many bytes the command of a table word has: header, operands and, for WRRECT, `2*bw*h` data bytes (R98). -/
def tableLength (nbits w : Nat) : Nat :=
  match selectOp (tableByte nbits w 0) with
  | none => 1
  | some .wrrect => 5 + 2 * (tableByte nbits w 3).toNat * (tableByte nbits w 4).toNat
  | some op => 1 + operandCount op

/-- The bytes of a table word, as the command stream carries them. -/
def tableBytes (nbits w : Nat) : List Byte :=
  (List.range (tableLength nbits w)).map (tableByte nbits w)

/-- Whether a table word is the one-bit pattern `1` of the `tick` line, as one bit or rounded up to a byte (R103; log 12).
It is no header: `decode` rejects the header byte 0x01 (R97). -/
def isTickPulse (nbits w : Nat) : Bool := nbits ≤ 8 && w % 2 ^ nbits == 1

/-- The operation the decoder reads from a table word. -/
def decodeTableWord (nbits w : Nat) : Option Instr :=
  if isTickPulse nbits w then some .tick
  else
    match decode (tableBytes nbits w) with
    | .ok (i, _) => some i
    | .error _ => none

end Sys2Proof
end

