-- ==== Sys2Proof/Machine/State.lean ====
section
/-! DEFINITION. The state of the block, its reset value, and the reasons a step can stop (10_state.md R20 to R50). -/

namespace Sys2Proof.Machine

open Sys2Proof

/-- FADE (10_state.md R37); its value 3 never occurs. -/
inductive Fade where
  | none
  | fadingIn
  | fadingOut
deriving DecidableEq, Repr

/-- What `anim_event` carries (10_state.md R47). -/
inductive AnimEvent where
  | restart
  | resume
deriving DecidableEq, Repr

/-- The output record `seg` (10_state.md R46). -/
structure Seg where
  row : Nat
  side : Bool
  data : List Byte
  level : Byte
deriving DecidableEq, Repr

/-- A block position `(bc, y)`: block column and row (41_pixel_and_rect.md R140). -/
abbrev Pos := Nat × Nat

/-- A block of a rectangle as given: its position, or none where it lies outside the buffer (41_pixel_and_rect.md R145, R146). -/
abbrev Slot := Option Pos

/-- What the command port is in the middle of (10_state.md R48, R50).
`taking` holds the header and operand bytes taken so far.
`running` is a frame-buffer operation between two of its byte accesses: it is seen only inside a step (20_memory.md R74).
`data` is WRRECT waiting for a data byte: the buffer it writes, the blocks still to come, and a `low` byte already taken. -/
inductive PortState where
  | idle
  | taking (bytes : List Byte)
  | running
  | data (buf : Bool) (todo : List Slot) (low : Option Byte)
deriving DecidableEq, Repr

/-- One entry of the order in which things happen (20_memory.md R72 to R74, 70_reset_and_hazards.md R286): the port's next action, or an event of the environment.
`offer` appends a byte to the command stream, `collect` takes the oldest response byte. -/
inductive Turn where
  | port
  | tick
  | reset
  | animPlaying (b : Bool)
  | idleInhibit (b : Bool)
  | offer (b : Byte)
  | collect
deriving DecidableEq, Repr

/-- The whole state: the block's registers and memory (10_state.md R20), the command port (R48), the inputs (R44, R45), the record of the outputs (R46, R47, R48; log 8), the order of what is to happen (log 4) and the parameters (log 1).
`fb` lists the bytes that differ from the reset content, addresses rising. -/
structure State where
  cfg : Config
  ht : HoldTable
  brCfg : Byte
  brReq : Byte
  brCnt : Byte
  idleTrig : Byte
  idleCnt : Byte
  row : Byte
  half : Bool
  plane : Fin 3
  holdRem : Byte
  swapPend : Bool
  brPend : Bool
  frameChg : Bool
  outEn : Bool
  front : Bool
  fadeEn : Bool
  fade : Fade
  endAct : EndAct
  fb : List Host.Cell
  animPlaying : Bool
  idleInhibit : Bool
  port : PortState
  stream : List Byte
  resp : List Byte
  segs : List Seg
  animEvents : List AnimEvent
  errs : List Byte
  sched : List Turn
deriving DecidableEq, Repr

/-- Reasons a step stops with a fault: none.
The block has no fatal error: no operation and no TICK can fail, and BadCommand leaves the block running (60_exceptions.md R240, R241). -/
inductive Fault where
deriving DecidableEq, Repr

/-- Reasons a step is refused. -/
inductive Refusal where
  /-- Raised by `exec` for an operation that has no meaning yet; safe. No arm of this model raises it. -/
  | notModelled (mnemonic : String)
deriving DecidableEq, Repr

/-- The state after reset of an instance with the given parameters (10_state.md R50): memory with nothing listed is the reset content.
The inputs are 0, the order of events is empty and the output records are empty: DESIGN CHOICE (log 4, log 8, log 9). -/
def State.resetOf (c : Config) : State where
  cfg := c
  ht := c.resetHt
  brCfg := c.resetBright
  brReq := c.resetBright
  brCnt := 0
  idleTrig := 255
  idleCnt := 0
  row := 0
  half := false
  plane := 2
  holdRem := c.resetHt.c
  swapPend := false
  brPend := false
  frameChg := false
  outEn := true
  front := false
  fadeEn := false
  fade := .none
  endAct := .noAction
  fb := []
  animPlaying := false
  idleInhibit := false
  port := .idle
  stream := []
  resp := []
  segs := []
  animEvents := []
  errs := []
  sched := []

/-- The machine right after reset, for the instance `Config.badge` (log 1, log 2). -/
def State.reset : State := State.resetOf Config.badge

end Sys2Proof.Machine
end

