-- ==== Sys2Proof/Machine/Ops.lean ====
section
/-! DEFINITION. The named operations over memory and registers: the frame-buffer space (20_memory.md R60 to R71), the hold table, the response stream, the BadCommand exception and the reset event. -/

namespace Sys2Proof.Machine

open Sys2Proof

/-! ## Memory -/

/-- What an address reads as while nothing is stored there: the reset content, POWER_ON_IMAGE in buffer 0 and RESET_BACK in buffer 1 (10_state.md R39, R50; log 3, log 10). -/
def resetByte (c : Config) (a : Nat) : Byte :=
  if a < c.bufLen then c.powerOnImage.getD a (Config.freeByte a)
  else c.resetBack.getD (a - c.bufLen) (Config.freeByte a)

/-- The byte a list of cells holds at an address, `dflt` where it lists none. -/
def Mem.find (dflt : Nat → Byte) : List Host.Cell → Nat → Byte
  | [], a => dflt a
  | (b, v) :: rest, a => if a = b then v else Mem.find dflt rest a

/-- The cells without the one at an address. -/
def Mem.erase (a : Nat) : List Host.Cell → List Host.Cell
  | [] => []
  | (b, v) :: rest => if a = b then rest else (b, v) :: Mem.erase a rest

/-- The cells with the byte `x` at an address, addresses kept rising. -/
def Mem.insert (a : Nat) (x : Byte) : List Host.Cell → List Host.Cell
  | [] => [(a, x)]
  | (b, v) :: rest =>
    if a < b then (a, x) :: (b, v) :: rest
    else if a = b then (a, x) :: rest
    else (b, v) :: Mem.insert a x rest

/-- Store a byte, keeping the canonical form: a byte equal to `dflt` there is not listed. -/
def Mem.store (dflt : Nat → Byte) (m : List Host.Cell) (a : Nat) (x : Byte) : List Host.Cell :=
  if x = dflt a then Mem.erase a m else Mem.insert a x m

/-- The canonical form: addresses strictly rising and inside the space (20_memory.md R60), no entry equal to the reset content. -/
abbrev Mem.wf (c : Config) (m : List Host.Cell) : Prop :=
  m.Pairwise (fun x y => x.1 < y.1) ∧ ∀ x ∈ m, x.1 < c.fbLen ∧ x.2 ≠ resetByte c x.1

/-- `MemRead(a, 1)` (00_scope.md R14). -/
def memRead (s : State) (a : Nat) : Byte := Mem.find (resetByte s.cfg) s.fb a

/-- `MemWrite(a, 1, x)` (00_scope.md R14). -/
def memWrite (s : State) (a : Nat) (x : Byte) : State :=
  { s with fb := Mem.store (resetByte s.cfg) s.fb a x }

/-- The address function `A(buf, p, y, bc)` (20_memory.md R63). -/
def addr (c : Config) (buf : Bool) (p y bc : Nat) : Nat :=
  buf.toNat * c.bufLen + p * c.planeLen + y * c.stride + bc

/-! ## Registers, streams -/

/-- `HT[k]` (10_state.md R21). -/
def holdAt (t : HoldTable) (k : Fin 3) : Byte :=
  match k with
  | 0 => t.a
  | 1 => t.b
  | 2 => t.c

/-- `emit`, for bytes in order (00_scope.md R14, 10_state.md R48). -/
def emit (bs : List Byte) (s : State) : State := { s with resp := s.resp ++ bs }

/-! ## The exception and reset -/

/-- Taking BadCommand: the port is idle again, `err` presents the header, nothing else changes; there is no return, the next byte is a header (60_exceptions.md R241, R246, R247).
Whoever takes the header from the stream drops it. -/
def raiseBadCommand (hdr : Byte) (s : State) : State :=
  { s with port := .idle, errs := s.errs ++ [hdr] }

/-- The `reset` event (70_reset_and_hazards.md R270): every register and all memory take their reset values, a command in progress is dropped, the response stream is emptied.
What belongs to the environment stays: the inputs, the bytes not yet taken, the order of events, the records of the outputs (log 14). -/
def resetEvent (s : State) : State :=
  { State.resetOf s.cfg with
    animPlaying := s.animPlaying
    idleInhibit := s.idleInhibit
    stream := s.stream
    segs := s.segs
    animEvents := s.animEvents
    errs := s.errs
    sched := s.sched }

end Sys2Proof.Machine
end

