-- ==== Sys2Proof/Machine/Flags.lean ====
section
/-! DEFINITION. Values computed from the registers: EFF and LEVEL (10_state.md R40) and the packed bytes QUERY answers with (30_encoding.md R100). -/

namespace Sys2Proof.Machine

open Sys2Proof

/-- `EFF`, the effective brightness (10_state.md R40). -/
def eff (s : State) : Byte := if s.fade = .none then s.brCfg else s.brCnt

/-- `LEVEL`, the level presented to the RowDriver (10_state.md R40). -/
def level (s : State) : Byte := if s.outEn then eff s else 0

/-- The number of a fade state (10_state.md R37). -/
def Fade.code : Fade → BitVec 2
  | .none => 0
  | .fadingIn => 1
  | .fadingOut => 2

/-- The IDLE flags byte: FADE_EN in bit 0, END_ACT in bits 2:1 (30_encoding.md R100). -/
def idleFlagsByte (s : State) : Byte := 2 * s.endAct.code.setWidth 8 + flagByte s.fadeEn

/-- The FADE byte (30_encoding.md R100). -/
def fadeByte (s : State) : Byte := s.fade.code.setWidth 8

/-- The STATUS byte: SWAP_PEND, BR_PEND, FRAME_CHG, OUT_EN, FRONT from bit 0 up (30_encoding.md R100). -/
def statusByte (s : State) : Byte :=
  16 * flagByte s.front + 8 * flagByte s.outEn + 4 * flagByte s.frameChg
    + 2 * flagByte s.brPend + flagByte s.swapPend

/-- The response of QUERY by register id; none for the ids 7..15 (30_encoding.md R100, 42_engine_requests.md R171). -/
def queryResponse (r : BitVec 4) (s : State) : Option (List Byte) :=
  match r.toNat with
  | 0 => some [s.brCfg]
  | 1 => some [s.ht.a, s.ht.b, s.ht.c]
  | 2 => some [idleFlagsByte s, s.idleTrig]
  | 3 => some [fadeByte s, s.brCnt]
  | 4 => some [statusByte s]
  | 5 => some [s.idleCnt]
  | 6 => some [level s]
  | _ => none

end Sys2Proof.Machine
end

