-- ==== Sys2Proof/Machine/Engine.lean ====
section
/-! DEFINITION. The engine requests QUERY, BRIGHT, SWAP, HOLDS, IDLE, IDLERST, OUTEN, CLRFC (42_engine_requests.md R170 to R179). -/

namespace Sys2Proof.Machine

open Sys2Proof

/-- QUERY; the ids 7..15 raise BadCommand with the header `0x10 + r` (R171). -/
def execQuery (r : BitVec 4) (s : State) : Host.Outcome State Fault Refusal :=
  match queryResponse r s with
  | some bs => .next (emit bs s)
  | none => .next (raiseBadCommand (0x10 + r.setWidth 8) s)

/-- BRIGHT: the level waits in BR_REQ for the frame boundary (R172). -/
def execBright (lvl : Byte) (s : State) : Host.Outcome State Fault Refusal :=
  .next { s with brReq := lvl, brPend := true }

/-- SWAP: the request; the port is held until a TICK has served it (R173, R174; log 15). -/
def execSwap (s : State) : Host.Outcome State Fault Refusal := .next { s with swapPend := true }

/-- HOLDS (R175). -/
def execHolds (a b c : Byte) (s : State) : Host.Outcome State Fault Refusal :=
  .next { s with ht := ⟨a, b, c⟩ }

/-- IDLE (R176). -/
def execIdle (f : Bool) (aa : EndAct) (trig : Byte) (s : State) :
    Host.Outcome State Fault Refusal :=
  .next { s with fadeEn := f, endAct := aa, idleTrig := trig }

/-- IDLERST (R177). -/
def execIdlerst (s : State) : Host.Outcome State Fault Refusal := .next { s with idleCnt := 0 }

/-- OUTEN (R178). -/
def execOuten (e : Bool) (s : State) : Host.Outcome State Fault Refusal :=
  .next { s with outEn := e }

/-- CLRFC (R179). -/
def execClrfc (s : State) : Host.Outcome State Fault Refusal := .next { s with frameChg := false }

end Sys2Proof.Machine
end

