-- ==== Sys2Proof/Machine/Scan.lean ====
section
/-! DEFINITION. The TICK operation: emission, cursor advance, frame boundary (43_tick.md R200 to R209). -/

namespace Sys2Proof.Machine

open Sys2Proof

/-! ## Emission -/

/-- `ROW_ORDER[ROW]`, the physical row being scanned (00_scope.md R9, 43_tick.md R201; log 10). -/
def physRow (s : State) : Nat := s.cfg.rowOrder.getD s.row.toNat (Config.freeRow s.row.toNat)

/-- The addresses of the half-row being scanned, in column order (43_tick.md R201). -/
def segAddrs (s : State) : List Nat :=
  (List.range s.cfg.hb).map (fun j =>
    addr s.cfg s.front s.plane.val (physRow s) (s.half.toNat * s.cfg.hb + j))

/-- The segment a TICK puts out (43_tick.md R201, 10_state.md R46). -/
def segmentOf (s : State) : Seg where
  row := physRow s
  side := s.half
  data := (segAddrs s).map (memRead s)
  level := level s

/-- Emission (43_tick.md R201). -/
def emitSegment (s : State) : State := { s with segs := s.segs ++ [segmentOf s] }

/-! ## The frame boundary -/

/-- Every byte address of one buffer, plane by plane and row by row (43_tick.md R208). -/
def bufferAddrs (c : Config) (buf : Bool) : List Nat :=
  (List.range 3).flatMap (fun p =>
    (List.range c.h).flatMap (fun y => (List.range c.wb).map (fun bc => addr c buf p y bc)))

/-- The Clear action: every byte of the front buffer becomes 0 (43_tick.md R208). -/
def clearFront (s : State) : State :=
  (bufferAddrs s.cfg s.front).foldl (fun s a => memWrite s a 0) s

/-- `RunEndAction` (43_tick.md R208). -/
def runEndAction (s : State) : State :=
  match s.endAct with
  | .noAction => s
  | .clear => clearFront s
  | .restart => { s with animEvents := s.animEvents ++ [.restart] }
  | .resume => { s with animEvents := s.animEvents ++ [.resume] }

/-- Step 1, the swap latch (43_tick.md R204). -/
def swapLatch (s : State) : State :=
  if s.swapPend then { s with front := !s.front, swapPend := false } else s

/-- Step 2, the brightness latch (43_tick.md R205). -/
def brightLatch (s : State) : State :=
  if s.brPend then { s with brCfg := s.brReq, brPend := false } else s

/-- Whether the idle counter advances in this boundary (43_tick.md R206). -/
def idleCounts (s : State) : Bool :=
  s.idleTrig != idleOff && !s.animPlaying && !s.idleInhibit && s.fade != .fadingOut
    && s.idleCnt < s.idleTrig

/-- The trigger is reached: begin FadingOut from EFF, or run the action and zero the counter; true if a fade was started (43_tick.md R206). -/
def idleFire (s : State) : State × Bool :=
  if s.fadeEn then ({ s with brCnt := eff s, fade := .fadingOut }, true)
  else ({ runEndAction s with idleCnt := 0 }, false)

/-- Step 3, the idle step; true if it started a fade (43_tick.md R206). -/
def idleStep (s : State) : State × Bool :=
  if idleCounts s then
    let s1 := { s with idleCnt := s.idleCnt + 1 }
    if s1.idleCnt = s1.idleTrig then idleFire s1 else (s1, false)
  else (s, false)

/-- The arm of FadingOut: a guarded decrement, then at 0 the action and FadingIn (43_tick.md R207). -/
def fadeOutStep (s : State) : State :=
  let s1 := if 0 < s.brCnt then { s with brCnt := s.brCnt - 1 } else s
  if s1.brCnt = 0 then { runEndAction s1 with fade := .fadingIn } else s1

/-- The arm of FadingIn: a guarded increment, then at the target the counter is zeroed and the fade is over (43_tick.md R207). -/
def fadeInStep (s : State) : State :=
  let s1 := if s.brCnt < s.brCfg then { s with brCnt := s.brCnt + 1 } else s
  if s1.brCfg ≤ s1.brCnt then { s1 with idleCnt := 0, fade := .none } else s1

/-- Step 4, the fade step (43_tick.md R207). -/
def fadeStep (s : State) : State :=
  match s.fade with
  | .none => s
  | .fadingOut => fadeOutStep s
  | .fadingIn => fadeInStep s

/-- Step 5, the frame-changed mark (43_tick.md R209). -/
def markFrame (s : State) : State := { s with frameChg := true }

/-- `FrameBoundary`: the five steps in order, the fade step left out when the idle step started a fade (43_tick.md R203). -/
def frameBoundary (s : State) : State :=
  let r := idleStep (brightLatch (swapLatch s))
  markFrame (if r.2 then r.1 else fadeStep r.1)

/-! ## Cursor advance -/

/-- Enter a plane: load its hold count (43_tick.md R202). -/
def enterPlane (p : Fin 3) (s : State) : State := { s with plane := p, holdRem := holdAt s.ht p }

/-- A pass of the current plane is complete: another pass, the next plane down, or the wrap with its frame boundary (43_tick.md R202). -/
def endPass (s : State) : State :=
  if 1 < s.holdRem then { s with holdRem := s.holdRem - 1 }
  else
    match s.plane with
    | 2 => enterPlane 1 s
    | 1 => enterPlane 0 s
    | 0 => frameBoundary (enterPlane 2 s)

/-- Cursor advance (43_tick.md R202). -/
def advance (s : State) : State :=
  if s.half = false then { s with half := true }
  else if s.row.toNat < s.cfg.h - 1 then { s with half := false, row := s.row + 1 }
  else endPass { s with half := false, row := 0 }

/-- One TICK: emission, then cursor advance; atomic (43_tick.md R200, 20_memory.md R73). -/
def tickOp (s : State) : State := advance (emitSegment s)

/-- TICK as an operation (43_tick.md R200). -/
def execTick (s : State) : Host.Outcome State Fault Refusal := .next (tickOp s)

end Sys2Proof.Machine
end

