-- ==== Sys2Proof/Machine/Bus.lean ====
section
/-! DEFINITION. How the environment's events fall between steps and between the byte accesses of one port operation (20_memory.md R69, R72 to R74). -/

namespace Sys2Proof.Machine

open Sys2Proof

/-- One entry of the order of events, as it acts on the state; the port's own turn is no event (10_state.md R43 to R49, 70_reset_and_hazards.md R286). -/
def deliver (e : Turn) (s : State) : State :=
  match e with
  | .port => s
  | .tick => tickOp s
  | .reset => resetEvent s
  | .animPlaying b => { s with animPlaying := b }
  | .idleInhibit b => { s with idleInhibit := b }
  | .offer b => { s with stream := s.stream ++ [b] }
  | .collect => { s with resp := s.resp.drop 1 }

/-- Whether a frame-buffer operation is between two of its accesses. -/
def isRunning (s : State) : Bool := s.port == .running

/-- Deliver the events in front of the port's next turn and take that turn; a reset ends the operation and the events after it are left for later steps (20_memory.md R74, 70_reset_and_hazards.md R270). -/
def pauseTurns : List Turn → State → State
  | [], s => { s with sched := [] }
  | e :: rest, s =>
    if e = .port then { s with sched := rest }
    else
      let s1 := deliver e { s with sched := rest }
      if isRunning s1 then pauseTurns rest s1 else s1

/-- What may happen before the next byte access of the operation in progress (20_memory.md R74). -/
def pause (s : State) : State := if isRunning s then pauseTurns s.sched s else s

/-- A byte read of the operation in progress, one atomic action (20_memory.md R69, R74). -/
def busRead (a : Nat) (s : State) : Byte × State :=
  let s1 := pause s
  (memRead s1 a, s1)

/-- A byte write of the operation in progress, one atomic action; nothing once the operation was abandoned (20_memory.md R69, R74). -/
def busWrite (a : Nat) (x : Byte) (s : State) : State :=
  let s1 := pause s
  if isRunning s1 then memWrite s1 a x else s1

/-- Response bytes of the operation in progress, emitted as they are produced (20_memory.md R74). -/
def busEmit (bs : List Byte) (s : State) : State := if isRunning s then emit bs s else s

/-- A frame-buffer operation starts. -/
def beginOp (s : State) : State := { s with port := .running }

/-- A frame-buffer operation is over and the port takes the next header (30_encoding.md R90). -/
def finishOp (s : State) : State := if isRunning s then { s with port := .idle } else s

end Sys2Proof.Machine
end

