-- ==== Sys2Proof/Machine/Operands.lean ====
section
/-! DEFINITION. Operand forms: targets, pixels, clipped rectangles (20_memory.md R62, R64; 41_pixel_and_rect.md R140, R145, R149). -/

namespace Sys2Proof.Machine

open Sys2Proof

/-- `phys(t)`: the physical buffer index of a target (20_memory.md R64). -/
def phys (t : Target) (s : State) : Bool :=
  match t with
  | .back => !s.front
  | .front => s.front

/-- Whether a pixel is in range (R140). -/
def pixelInRange (c : Config) (x y : Byte) : Bool := x.toNat < c.w && y.toNat < c.h

/-- The block column of a pixel, `x div 8` (20_memory.md R66). -/
def blockOf (x : Byte) : Nat := x.toNat / 8

/-- The lane of a pixel, `x mod 8` (20_memory.md R62, R66). -/
def laneOf (x : Byte) : Nat := x.toNat % 8

/-- The mask of a lane, an 8-bit value (41_pixel_and_rect.md R143). -/
def laneMask (i : Nat) : Byte := 1 <<< i

/-- `cw(bx, bw)` (R140). -/
def clipWidth (c : Config) (bx bw : Nat) : Nat := if c.wb ≤ bx then 0 else min bw (c.wb - bx)

/-- `ch(y, h)` (R140). -/
def clipHeight (c : Config) (y h : Nat) : Nat := if c.h ≤ y then 0 else min h (c.h - y)

/-- The offsets `(c, r)` of a rectangle of `h` rows of `w` blocks, row by row (R149). -/
def offsets (w h : Nat) : List (Nat × Nat) :=
  (List.range h).flatMap (fun r => (List.range w).map (fun c => (c, r)))

/-- The block at an offset from an origin. -/
def shift (bx y : Nat) (o : Nat × Nat) : Pos := (bx + o.1, y + o.2)

/-- The positions of a clipped rectangle, row by row (R140, R149). -/
def clippedRect (c : Config) (bx y bw h : Nat) : List Pos :=
  (offsets (clipWidth c bx bw) (clipHeight c y h)).map (shift bx y)

/-- The blocks of a rectangle as given, row by row, with none for a block outside the buffer (R145, R146). -/
def givenRect (c : Config) (bx y bw h : Nat) : List Slot :=
  (offsets bw h).map (fun o =>
    if o.2 < clipHeight c y h ∧ o.1 < clipWidth c bx bw then some (shift bx y o) else none)

end Sys2Proof.Machine
end

