-- ==== Sys2Proof/Machine/Codec.lean ====
section
/-! DEFINITION. The pixel codec and its two operations, ENC and DEC (40_codec.md R120 to R128). -/

namespace Sys2Proof.Machine

open Sys2Proof

/-- The plane form of a block (40_codec.md R120). -/
structure Planes where
  p0 : Byte
  p1 : Byte
  p2 : Byte
deriving DecidableEq, Repr

/-- The value form of a block (40_codec.md R120). -/
structure Gray where
  low : Byte
  high : Byte
deriving DecidableEq, Repr

/-- `Encode(low, high)` (40_codec.md R121). -/
def encodeBlock (g : Gray) : Planes := ⟨g.low ||| g.high, g.high, g.low &&& g.high⟩

/-- `Decode(p0, p1, p2)` (40_codec.md R122). -/
def decodeBlock (p : Planes) : Gray := ⟨(p.p0 ^^^ p.p1) ||| p.p2, p.p1⟩

/-- `Splat(v)` (40_codec.md R128). -/
def splat (v : BitVec 2) : Gray :=
  ⟨if v.getLsbD 0 then 0xFF else 0x00, if v.getLsbD 1 then 0xFF else 0x00⟩

/-- The value of lane `i`, `2*high[i] + low[i]` (40_codec.md R120). -/
def laneValue (g : Gray) (i : Nat) : Byte := 2 * flagByte (g.high.getLsbD i) + flagByte (g.low.getLsbD i)

/-- A block's three bytes form a thermometer code in every lane (10_state.md R41). -/
def Planes.consistent (p : Planes) : Bool := Config.thermometer p.p0 p.p1 p.p2

/-- ENC (40_codec.md R125). -/
def execEnc (low high : Byte) (s : State) : Host.Outcome State Fault Refusal :=
  let p := encodeBlock ⟨low, high⟩
  .next (emit [p.p0, p.p1, p.p2] s)

/-- DEC (40_codec.md R126). -/
def execDec (p0 p1 p2 : Byte) (s : State) : Host.Outcome State Fault Refusal :=
  let g := decodeBlock ⟨p0, p1, p2⟩
  .next (emit [g.low, g.high] s)

end Sys2Proof.Machine
end

