-- ==== Sys2Proof/Machine/Pixel.lean ====
section
/-! DEFINITION. Block accesses (41_pixel_and_rect.md R141, R142) and the single-pixel operations SETPX and GETPX (R143, R144). -/

namespace Sys2Proof.Machine

open Sys2Proof

/-- `ReadPlanes(buf, bc, y)`: three byte reads, plane 0, 1, 2 (R141). -/
def readPlanes (buf : Bool) (pos : Pos) (s : State) : Planes × State :=
  let r0 := busRead (addr s.cfg buf 0 pos.2 pos.1) s
  let r1 := busRead (addr s.cfg buf 1 pos.2 pos.1) r0.2
  let r2 := busRead (addr s.cfg buf 2 pos.2 pos.1) r1.2
  (⟨r0.1, r1.1, r2.1⟩, r2.2)

/-- `WritePlanes(buf, bc, y, p0, p1, p2)`: three byte writes, plane 0, 1, 2 (R142). -/
def writePlanes (buf : Bool) (pos : Pos) (p : Planes) (s : State) : State :=
  let s1 := busWrite (addr s.cfg buf 0 pos.2 pos.1) p.p0 s
  let s2 := busWrite (addr s.cfg buf 1 pos.2 pos.1) p.p1 s1
  busWrite (addr s.cfg buf 2 pos.2 pos.1) p.p2 s2

/-- The read-modify-write of one plane byte by SETPX: the masked bit becomes `on`, the other seven stay (R143). -/
def setLane (buf : Bool) (pos : Pos) (m : Byte) (p : Nat) (on : Bool) (s : State) : State :=
  let a := addr s.cfg buf p pos.2 pos.1
  let r := busRead a s
  busWrite a ((r.1 &&& ~~~m) ||| (if on then m else 0)) r.2

/-- The thermometer bit of value `v` in plane `p` (40_codec.md R120). -/
def thermoBit (v : BitVec 2) (p : Nat) : Bool := p < v.toNat

/-- SETPX (41_pixel_and_rect.md R143). -/
def execSetpx (t : Target) (v : BitVec 2) (x y : Byte) (s : State) :
    Host.Outcome State Fault Refusal :=
  if pixelInRange s.cfg x y then
    let buf := phys t s
    let pos : Pos := (blockOf x, y.toNat)
    let m := laneMask (laneOf x)
    let s0 := setLane buf pos m 0 (thermoBit v 0) (beginOp s)
    let s1 := setLane buf pos m 1 (thermoBit v 1) s0
    let s2 := setLane buf pos m 2 (thermoBit v 2) s1
    .next (finishOp s2)
  else .next s

/-- GETPX (41_pixel_and_rect.md R144). -/
def execGetpx (t : Target) (x y : Byte) (s : State) : Host.Outcome State Fault Refusal :=
  if pixelInRange s.cfg x y then
    let r := readPlanes (phys t s) (blockOf x, y.toNat) (beginOp s)
    .next (finishOp (busEmit [laneValue (decodeBlock r.1) (laneOf x)] r.2))
  else .next (emit [0] s)

end Sys2Proof.Machine
end

