-- ==== Sys2Proof/Machine/Rect.lean ====
section
/-! DEFINITION. The rectangle operations RDRECT, WRRECT, CPRECT, FLRECT (41_pixel_and_rect.md R145 to R149). -/

namespace Sys2Proof.Machine

open Sys2Proof

/-- One block of RDRECT: read and emitted, or `0, 0` for a block outside the buffer (R145). -/
def readSlot (buf : Bool) (s : State) (slot : Slot) : State :=
  match slot with
  | some pos =>
    let r := readPlanes buf pos s
    busEmit [(decodeBlock r.1).low, (decodeBlock r.1).high] r.2
  | none => busEmit [0, 0] s

/-- RDRECT (41_pixel_and_rect.md R145). -/
def execRdrect (t : Target) (bx y bw h : Byte) (s : State) : Host.Outcome State Fault Refusal :=
  .next (finishOp ((givenRect s.cfg bx.toNat y.toNat bw.toNat h.toNat).foldl (readSlot (phys t s))
    (beginOp s)))

/-- One block of WRRECT with its data pair: written, or discarded for a block outside the buffer (R146). -/
def writeSlot (buf : Bool) (slot : Slot) (g : Gray) (s : State) : State :=
  match slot with
  | some pos => writePlanes buf pos (encodeBlock g) s
  | none => s

/-- The data phase of WRRECT: for each block still to come take `low`, `high` and write; where the stream runs dry the port keeps what is left (R146, R90; log 13). -/
def writeSlots (buf : Bool) : List Slot → State → State
  | [], s => s
  | slot :: rest, s =>
    if isRunning s then
      match s.stream with
      | low :: high :: more =>
        writeSlots buf rest (writeSlot buf slot ⟨low, high⟩ { s with stream := more })
      | [low] => { s with stream := [], port := .data buf (slot :: rest) (some low) }
      | [] => { s with port := .data buf (slot :: rest) none }
    else s

/-- WRRECT (41_pixel_and_rect.md R146). -/
def execWrrect (t : Target) (bx y bw h : Byte) (s : State) : Host.Outcome State Fault Refusal :=
  .next (finishOp (writeSlots (phys t s)
    (givenRect s.cfg bx.toNat y.toNat bw.toNat h.toNat) (beginOp s)))

/-- WRRECT goes on after waiting for data: a `low` byte already taken comes first (R146; log 13). -/
def resumeData (buf : Bool) (todo : List Slot) (low : Option Byte) (s : State) : State :=
  finishOp (writeSlots buf todo (beginOp { s with stream := low.toList ++ s.stream }))

/-- The snapshot `T` of CPRECT: all reads, in order (R147). -/
def readAll (buf : Bool) : List Pos → State → List Planes × State
  | [], s => ([], s)
  | pos :: rest, s =>
    let r := readPlanes buf pos s
    let rs := readAll buf rest r.2
    (r.1 :: rs.1, rs.2)

/-- Plane bytes written to positions, in order (R147). -/
def writeAll (buf : Bool) : List (Pos × Planes) → State → State
  | [], s => s
  | (pos, p) :: rest, s => writeAll buf rest (writePlanes buf pos p s)

/-- The clipped width of a copy: both rectangles lie in range (R147). -/
def copyWidth (c : Config) (sbx dbx bw : Nat) : Nat := min (clipWidth c sbx bw) (clipWidth c dbx bw)

/-- The clipped height of a copy (R147). -/
def copyHeight (c : Config) (sy dy h : Nat) : Nat := min (clipHeight c sy h) (clipHeight c dy h)

/-- CPRECT (41_pixel_and_rect.md R147). -/
def execCprect (src dst : Target) (sbx sy bw h dbx dy : Byte) (s : State) :
    Host.Outcome State Fault Refusal :=
  let os := offsets (copyWidth s.cfg sbx.toNat dbx.toNat bw.toNat)
    (copyHeight s.cfg sy.toNat dy.toNat h.toNat)
  let r := readAll (phys src s) (os.map (shift sbx.toNat sy.toNat)) (beginOp s)
  .next (finishOp (writeAll (phys dst s) ((os.map (shift dbx.toNat dy.toNat)).zip r.1) r.2))

/-- FLRECT (41_pixel_and_rect.md R148). -/
def execFlrect (t : Target) (v : BitVec 2) (bx y bw h : Byte) (s : State) :
    Host.Outcome State Fault Refusal :=
  .next (finishOp (writeAll (phys t s)
    ((clippedRect s.cfg bx.toNat y.toNat bw.toNat h.toNat).map
      (fun pos => (pos, encodeBlock (splat v)))) (beginOp s)))

end Sys2Proof.Machine
end

