-- ==== Sys2Proof/Machine/Dispatch.lean ====
section
/-! DEFINITION. One arm per operation. -/

namespace Sys2Proof.Machine

open Sys2Proof

def exec (i : Instr) (s : State) : Host.Outcome State Fault Refusal :=
  match i with
  | .query r => Sys2Proof.Machine.execQuery r s
  | .bright lvl => Sys2Proof.Machine.execBright lvl s
  | .swap => Sys2Proof.Machine.execSwap s
  | .rdrect t bx y bw h => Sys2Proof.Machine.execRdrect t bx y bw h s
  | .wrrect t bx y bw h => Sys2Proof.Machine.execWrrect t bx y bw h s
  | .cprect src dst sbx sy bw h dbx dy => Sys2Proof.Machine.execCprect src dst sbx sy bw h dbx dy s
  | .flrect t v bx y bw h => Sys2Proof.Machine.execFlrect t v bx y bw h s
  | .setpx t v x y => Sys2Proof.Machine.execSetpx t v x y s
  | .getpx t x y => Sys2Proof.Machine.execGetpx t x y s
  | .holds a b c => Sys2Proof.Machine.execHolds a b c s
  | .idle f aa trig => Sys2Proof.Machine.execIdle f aa trig s
  | .idlerst => Sys2Proof.Machine.execIdlerst s
  | .outen e => Sys2Proof.Machine.execOuten e s
  | .enc low high => Sys2Proof.Machine.execEnc low high s
  | .dec p0 p1 p2 => Sys2Proof.Machine.execDec p0 p1 p2 s
  | .clrfc => Sys2Proof.Machine.execClrfc s
  | .tick => Sys2Proof.Machine.execTick s

end Sys2Proof.Machine
end

