-- ==== Sys2Proof/Machine/Fetch.lean ====
section
/-! DEFINITION. What the command port does with its turn: hold, wait, reject a header, go on with WRRECT's data, or hand over a whole command (30_encoding.md R90, R97; 42_engine_requests.md R174). -/

namespace Sys2Proof.Machine

open Sys2Proof

/-- The port's turn is over, or a command is complete and runs in the given state. -/
inductive Fetched where
  | done (s : State)
  | run (i : Instr) (s : State)
deriving DecidableEq, Repr

/-- Take bytes for a command of which `bs` was taken before: a whole command runs, an illegal header raises BadCommand and is the only byte consumed (R97, 60_exceptions.md R241), and where the stream ends first the port keeps what it took. -/
def takeCommand (bs : List Byte) (s : State) : Fetched :=
  match decode (bs ++ s.stream) with
  | .ok (i, rest) => .run i { s with port := .idle, stream := rest }
  | .error (.badCommand hdr) =>
    .done (raiseBadCommand hdr { s with stream := (bs ++ s.stream).drop 1 })
  | .error (.truncated _) =>
    if s.stream.isEmpty then .done s
    else .done { s with port := .taking (bs ++ s.stream), stream := [] }

/-- The port's turn: it takes no byte while SWAP_PEND = 1 (R174). -/
def fetch (s : State) : Fetched :=
  if s.swapPend then .done s
  else
    match s.port with
    | .idle => takeCommand [] s
    | .taking bs => takeCommand bs s
    | .running => .done s
    | .data buf todo low => .done (resumeData buf todo low s)

/-- The state in which the table word's bytes are the next the port takes and the next turn is the port's; the `tick` pulse is an event in front (30_encoding.md R103; log 11, log 12). -/
def placeWord (s : State) (nbits w : Nat) : State :=
  if isTickPulse nbits w then { s with sched := .tick :: s.sched }
  else
    { s with swapPend := false, port := .idle, stream := tableBytes nbits w ++ s.stream,
             sched := .port :: s.sched }

end Sys2Proof.Machine
end

