-- ==== Sys2Proof/Machine/Step.lean ====
section
/-! DEFINITION. One step: the first entry of the order of events, or the port's turn (20_memory.md R72 to R74; log 4, log 5, log 6). -/

namespace Sys2Proof.Machine

open Sys2Proof

/-- The port's turn: a complete command runs, everything else `fetch` has done. -/
def portTurn (s : State) : Host.Outcome State Fault Refusal :=
  match fetch s with
  | .done t => .next t
  | .run i t => exec i t

/-- One step: with no entry left the port goes on alone, and waits where it can take nothing (log 4, log 6). -/
def step (s : State) : Host.Outcome State Fault Refusal :=
  match s.sched with
  | [] => portTurn s
  | .port :: rest => portTurn { s with sched := rest }
  | .tick :: rest => exec .tick { s with sched := rest }
  | .reset :: rest => .next (deliver .reset { s with sched := rest })
  | .animPlaying b :: rest => .next (deliver (.animPlaying b) { s with sched := rest })
  | .idleInhibit b :: rest => .next (deliver (.idleInhibit b) { s with sched := rest })
  | .offer b :: rest => .next (deliver (.offer b) { s with sched := rest })
  | .collect :: rest => .next (deliver .collect { s with sched := rest })

/-- The state with a table word's instruction where the next step takes it (log 11). -/
def State.withFetchWord (s : State) (nbits w : Nat) : State := placeWord s nbits w

end Sys2Proof.Machine
end

