-- ==== Sys2Proof/Safety.lean ====
section
/-! DEFINITION. The terms claims are stated in: the legal states, runs of ticks, the frame boundary, operations no event falls into, consistent buffers. -/

namespace Sys2Proof.Machine

open Sys2Proof

/-! ## Legal states -/

/-- What the command port may be in the middle of between two steps: nothing, a command whose bytes are not all there, or a WRRECT whose remaining blocks lie in the buffer (30_encoding.md R90, 41_pixel_and_rect.md R146). -/
def portLegal (c : Config) : PortState → Prop
  | .idle => True
  | .taking bs => bs ≠ [] ∧ ∃ n, decode bs = .error (.truncated n)
  | .running => False
  | .data _ todo _ => todo ≠ [] ∧ ∀ pos : Pos, some pos ∈ todo → pos.1 < c.wb ∧ pos.2 < c.h

/-- The invariant of the machine: a legal configuration (00_scope.md R8, R9), the row index below H (10_state.md R27), IDLE_CNT at most 254 (R26), memory in canonical form inside the space (20_memory.md R60), and a port that is between commands while a swap is pending (42_engine_requests.md R174). -/
structure MachineInv (s : State) : Prop where
  config : s.cfg.Valid
  rowInRange : s.row.toNat < s.cfg.h
  idleBelow : s.idleCnt.toNat ≤ 254
  memory : Mem.wf s.cfg s.fb
  heldIdle : s.swapPend = true → s.port = .idle
  port : portLegal s.cfg s.port

/-! ## Ticks and frames -/

/-- The state after `n` ticks and nothing else. -/
def ticks : Nat → State → State
  | 0, s => s
  | n + 1, s => ticks n (tickOp s)

/-- The next TICK wraps the plane index, so it runs the frame boundary (43_tick.md R202, R203). -/
def boundaryNext (s : State) : Prop :=
  s.half = true ∧ s.cfg.h - 1 ≤ s.row.toNat ∧ s.holdRem.toNat ≤ 1 ∧ s.plane = 0

/-- The cursor stands at the first segment of a frame (43_tick.md R213). -/
def frameStart (s : State) : Prop :=
  s.row = 0 ∧ s.half = false ∧ s.plane = 2 ∧ s.holdRem = s.ht.c

/-- `hk`: the passes plane `k` is shown for, `max(1, HT[k])` (43_tick.md R202, R213). -/
def passes (s : State) (k : Fin 3) : Nat := max 1 (holdAt s.ht k).toNat

/-- `T`, the ticks of one frame (43_tick.md R210). -/
def frameTicks (s : State) : Nat := 2 * s.cfg.h * (passes s 0 + passes s 1 + passes s 2)

/-- The idle counter advances in a frame boundary met in this state (43_tick.md R206). -/
def idleAdvances (s : State) : Prop :=
  s.idleTrig ≠ 255 ∧ s.animPlaying = false ∧ s.idleInhibit = false ∧ s.fade ≠ .fadingOut
    ∧ s.idleCnt.toNat < s.idleTrig.toNat

/-- The increment of that boundary reaches the trigger (43_tick.md R206). -/
def idleReaches (s : State) : Prop :=
  idleAdvances s ∧ s.idleCnt.toNat + 1 = s.idleTrig.toNat

/-- BR_CFG after the brightness latch of a frame boundary (43_tick.md R205). -/
def latchedBright (s : State) : Byte := if s.brPend then s.brReq else s.brCfg

/-! ## Port operations and events -/

/-- The byte accesses an operation makes (41_pixel_and_rect.md R143 to R148). -/
def accessCount (c : Config) : Instr → Nat
  | .query _ => 0
  | .bright _ => 0
  | .swap => 0
  | .rdrect _ bx y bw h => 3 * (clipWidth c bx.toNat bw.toNat * clipHeight c y.toNat h.toNat)
  | .wrrect _ bx y bw h => 3 * (clipWidth c bx.toNat bw.toNat * clipHeight c y.toNat h.toNat)
  | .cprect _ _ sbx sy bw h dbx dy =>
    6 * (copyWidth c sbx.toNat dbx.toNat bw.toNat * copyHeight c sy.toNat dy.toNat h.toNat)
  | .flrect _ _ bx y bw h => 3 * (clipWidth c bx.toNat bw.toNat * clipHeight c y.toNat h.toNat)
  | .setpx _ _ x y => if pixelInRange c x y then 6 else 0
  | .getpx _ x y => if pixelInRange c x y then 3 else 0
  | .holds _ _ _ => 0
  | .idle _ _ _ => 0
  | .idlerst => 0
  | .outen _ => 0
  | .enc _ _ => 0
  | .dec _ _ _ => 0
  | .clrfc => 0
  | .tick => 0

/-- No event of the environment falls between the next `n` byte accesses (20_memory.md R74): the order has only port turns there, or ends. -/
def Undisturbed (n : Nat) (s : State) : Prop := ∀ e ∈ s.sched.take n, e = Turn.port

/-- Of the operation's `n` byte accesses, `k` are done when the events `evs` come, in front of the next one, and no other event falls among them (20_memory.md R69, R74); a reset is not among the events. -/
def eventsAt (n k : Nat) (evs tl : List Turn) (s : State) : Prop :=
  k < n ∧ s.sched = List.replicate k Turn.port ++ (evs ++ tl)
    ∧ (∀ e ∈ evs, e ≠ .port ∧ e ≠ .reset) ∧ ∀ e ∈ tl.take (n - k), e = .port

/-- The state after a list of events. -/
def deliverAll (evs : List Turn) (s : State) : State := evs.foldl (fun s e => deliver e s) s

/-- The blocks of a rectangle as given that come before the one access `k` belongs to, for a clipped width `w` and a given width `bw` (41_pixel_and_rect.md R149). -/
def blocksBefore (w bw k : Nat) : Nat := k / 3 / w * bw + k / 3 % w

/-- The data bytes a WRRECT of `bw` by `h` blocks takes (30_encoding.md R92). -/
def dataCount (bw h : Byte) : Nat := 2 * (bw.toNat * h.toNat)

/-- The data bytes an operation has taken when `k` of its byte accesses are done and the next is about to come: for WRRECT the pairs of all blocks up to and with that access's, for every other operation none (41_pixel_and_rect.md R146). -/
def dataTaken (c : Config) (k : Nat) : Instr → Nat
  | .wrrect _ bx _ bw _ => 2 * (blocksBefore (clipWidth c bx.toNat bw.toNat) bw.toNat k + 1)
  | .query _ => 0
  | .bright _ => 0
  | .swap => 0
  | .rdrect _ _ _ _ _ => 0
  | .cprect _ _ _ _ _ _ _ _ => 0
  | .flrect _ _ _ _ _ _ => 0
  | .setpx _ _ _ _ => 0
  | .getpx _ _ _ => 0
  | .holds _ _ _ => 0
  | .idle _ _ _ => 0
  | .idlerst => 0
  | .outen _ => 0
  | .enc _ _ => 0
  | .dec _ _ _ => 0
  | .clrfc => 0
  | .tick => 0

/-- The operation touches no buffer but the back one (20_memory.md R75). -/
def backOnly : Instr → Prop
  | .rdrect t _ _ _ _ => t = .back
  | .wrrect t _ _ _ _ => t = .back
  | .cprect src dst _ _ _ _ _ _ => src = .back ∧ dst = .back
  | .flrect t _ _ _ _ _ => t = .back
  | .setpx t _ _ _ => t = .back
  | .getpx t _ _ => t = .back
  | .query _ => False
  | .bright _ => False
  | .swap => False
  | .holds _ _ _ => False
  | .idle _ _ _ => False
  | .idlerst => False
  | .outen _ => False
  | .enc _ _ => False
  | .dec _ _ _ => False
  | .clrfc => False
  | .tick => False

/-- All the data bytes of a WRRECT are in the stream; no other operation takes any (41_pixel_and_rect.md R146). -/
def dataReady (s : State) : Instr → Prop
  | .wrrect _ _ _ bw h => dataCount bw h ≤ s.stream.length
  | .query _ => True
  | .bright _ => True
  | .swap => True
  | .rdrect _ _ _ _ _ => True
  | .cprect _ _ _ _ _ _ _ _ => True
  | .flrect _ _ _ _ _ _ => True
  | .setpx _ _ _ _ => True
  | .getpx _ _ _ => True
  | .holds _ _ _ => True
  | .idle _ _ _ => True
  | .idlerst => True
  | .outen _ => True
  | .enc _ _ => True
  | .dec _ _ _ => True
  | .clrfc => True
  | .tick => True

/-- An event that changes only what a TICK or the environment's two inputs change (10_state.md R43 to R45). -/
def scanEvent : Turn → Prop
  | .port => False
  | .tick => True
  | .reset => False
  | .animPlaying _ => True
  | .idleInhibit _ => True
  | .offer _ => False
  | .collect => False

/-! ## Buffers -/

/-- The plane bytes of a block position. -/
def planesAt (s : State) (buf : Bool) (bc y : Nat) : Planes :=
  ⟨memRead s (addr s.cfg buf 0 y bc), memRead s (addr s.cfg buf 1 y bc), memRead s (addr s.cfg buf 2 y bc)⟩

/-- Plane byte `p` of three (20_memory.md R68). -/
def Planes.byte (b : Planes) (p : Nat) : Byte := if p = 0 then b.p0 else if p = 1 then b.p1 else b.p2

/-- What RDRECT answers for a rectangle as given, where `f q r` are the plane bytes it read for the block at column `q`, row `r` of the rectangle (41_pixel_and_rect.md R145). -/
def responseBytes (c : Config) (bx y bw h : Nat) (f : Nat → Nat → Planes) : List Byte :=
  (List.range h).flatMap (fun r => (List.range bw).flatMap (fun q =>
    if bx + q < c.wb ∧ y + r < c.h then
      [(decodeBlock (f q r)).low, (decodeBlock (f q r)).high]
    else [0, 0]))

/-- The plane bytes of a block whose reads are the accesses `j`, `j + 1`, `j + 2`: those below `k` from the state before the events, the others from the state after them. -/
def planesAround (k j : Nat) (before later : State) (buf : Bool) (bc y : Nat) : Planes :=
  ⟨memRead (if j < k then before else later) (addr before.cfg buf 0 y bc),
    memRead (if j + 1 < k then before else later) (addr before.cfg buf 1 y bc),
    memRead (if j + 2 < k then before else later) (addr before.cfg buf 2 y bc)⟩

/-- Every block of both buffers is consistent (10_state.md R41). -/
def consistent (s : State) : Prop :=
  ∀ buf bc y, bc < s.cfg.wb → y < s.cfg.h → (planesAt s buf bc y).consistent = true

/-- The address belongs to the plane bytes of a rectangle of blocks in one buffer. -/
def inRect (c : Config) (buf : Bool) (bx y w h : Nat) (a : Nat) : Prop :=
  ∃ p q r, p < 3 ∧ q < w ∧ r < h ∧ a = addr c buf p (y + r) (bx + q)

/-- The address belongs to a buffer (20_memory.md R71). -/
def inBuffer (c : Config) (buf : Bool) (a : Nat) : Prop :=
  buf.toNat * c.bufLen ≤ a ∧ a < buf.toNat * c.bufLen + c.bufLen

/-- What `RunEndAction` did between two states, the front buffer being the one after the swap latch (43_tick.md R208). -/
def actionEffect (s u : State) : Prop :=
  match s.endAct with
  | .noAction => u.fb = s.fb ∧ u.animEvents = s.animEvents
  | .clear =>
    (∀ a, inBuffer s.cfg u.front a → memRead u a = 0)
      ∧ (∀ a, ¬ inBuffer s.cfg u.front a → memRead u a = memRead s a)
      ∧ u.animEvents = s.animEvents
  | .restart => u.fb = s.fb ∧ u.animEvents = s.animEvents ++ [.restart]
  | .resume => u.fb = s.fb ∧ u.animEvents = s.animEvents ++ [.resume]

/-- Pixel `(x, y)` is lit by the segment the next TICK puts out: its row, its side, and its bit of the data (10_state.md R46). -/
def lit (x y : Nat) (s : State) : Bool :=
  (segmentOf s).row == y && (segmentOf s).side == decide (s.cfg.w / 2 ≤ x)
    && ((segmentOf s).data.getD (x % (s.cfg.w / 2) / 8) 0).getLsbD (x % 8)

/-! ## Headers and outputs -/

/-- A header byte that selects no operation: OP = 0, a QUERY id above 6, or a 1 in a flag bit the operation does not use (30_encoding.md R97). -/
def illegalHeader (hdr : Byte) : Bool :=
  let op := hdr.toNat / 16
  let fl := hdr.toNat % 16
  op == 0 || (op == 1 && 7 ≤ fl) || ([2, 3, 10, 12, 15].contains op && fl != 0)
    || ([4, 5, 9, 13].contains op && 2 ≤ fl) || (op == 6 && 4 ≤ fl)
    || ([7, 8].contains op && fl / 2 % 2 == 1) || (op == 11 && 8 ≤ fl) || (op == 14 && 2 ≤ fl)

/-- The state without its record of the outputs (10_state.md R52). -/
def withoutOutputs (s : State) : State := { s with segs := [], animEvents := [], errs := [] }

end Sys2Proof.Machine
end

