-- ==== Sys2Proof/Certificates/Slice0/Obligations.lean ====
section
/-! DEFINITION. The statements about the block, for the provers. -/

open Sys2Proof Sys2Proof.Machine

/-! ## Encoding -/

/-- Decoding the bytes of a well-formed command, whatever follows them, gives the command back and leaves what follows (30_encoding.md sections 1, 2, 4). -/
def Obligations.DecodeInvertsEncode : Prop :=
  ∀ (i : Instr) (rest : List Byte), i.encodable = true → decode (encode i ++ rest) = .ok (i, rest)

/-- Bytes that decode to a command are that command's encoding followed by the rest: each byte sequence has one meaning (30_encoding.md sections 1, 2). -/
def Obligations.EncodeInvertsDecode : Prop :=
  ∀ (bs : List Byte) (i : Instr) (rest : List Byte),
    decode bs = .ok (i, rest) → i.encodable = true ∧ encode i ++ rest = bs

/-- The decoder rejects exactly the illegal headers, whatever follows, and there are 206 of them (30_encoding.md section 3). -/
def Obligations.DecoderRejectsExactlyIllegalHeaders : Prop :=
  (∀ (hdr : Byte) (rest : List Byte),
      decode (hdr :: rest) = .error (.badCommand hdr) ↔ illegalHeader hdr = true)
    ∧ ((List.range 256).filter (fun n => illegalHeader (BitVec.ofNat 8 n))).length = 206

/-- Words of the spec's own vectors decode to the commands written beside them (95_test_vectors.md section 2): a sanity statement. -/
def Obligations.SpecWordsDecode : Prop :=
  decode [0x16] = .ok (.query 6, [])
    ∧ decode [0x20, 0x0A] = .ok (.bright 10, [])
    ∧ decode [0x40, 0x05, 0x0B, 0x02, 0x02] = .ok (.rdrect .back 5 11 2 2, [])
    ∧ decode [0x50, 0x00, 0x00, 0x01, 0x01, 0x5A, 0x3C] = .ok (.wrrect .back 0 0 1 1, [0x5A, 0x3C])
    ∧ decode [0x62, 0x00, 0x00, 0x02, 0x01, 0x04, 0x0B]
        = .ok (.cprect .back .front 0 0 2 1 4 11, [])
    ∧ decode [0x7D, 0x05, 0x00, 0x01, 0x01] = .ok (.flrect .front 3 5 0 1 1, [])
    ∧ decode [0x88, 0x0D, 0x01] = .ok (.setpx .back 2 13 1, [])
    ∧ decode [0xB1, 0x01] = .ok (.idle true .noAction 1, [])
    ∧ decode [0xB3, 0x02] = .ok (.idle true .clear 2, [])
    ∧ decode [0xB5, 0x01] = .ok (.idle true .restart 1, [])
    ∧ decode [0xB6, 0xFF] = .ok (.idle false .resume 255, [])
    ∧ decode [0xE1, 0x7E, 0x3C, 0x18] = .ok (.dec 0x7E 0x3C 0x18, [])
    ∧ decode [0x05, 0x14] = .error (.badCommand 0x05)

/-! ## The codec -/

/-- ENC answers `low|high`, `high`, `low&high` and changes nothing else (40_codec.md section 2). -/
def Obligations.EncAnswersPlaneBytes : Prop :=
  ∀ (low high : Byte) (s : State),
    exec (.enc low high) s
      = .next { s with resp := s.resp ++ [low ||| high, high, low &&& high] }

/-- DEC answers `(p0^p1)|p2`, `p1` and changes nothing else (40_codec.md section 3). -/
def Obligations.DecAnswersValueBytes : Prop :=
  ∀ (p0 p1 p2 : Byte) (s : State),
    exec (.dec p0 p1 p2) s = .next { s with resp := s.resp ++ [(p0 ^^^ p1) ||| p2, p1] }

/-- Decode undoes Encode on every block, and in every lane plane `k` of the encoding is set exactly when the value exceeds `k`, so the encoding is consistent (40_codec.md R123). -/
def Obligations.CodecRoundTripIsThermometer : Prop :=
  ∀ g : Gray,
    decodeBlock (encodeBlock g) = g
      ∧ (encodeBlock g).consistent = true
      ∧ ∀ i < 8,
          (encodeBlock g).p0.getLsbD i = decide (0 < (laneValue g i).toNat)
            ∧ (encodeBlock g).p1.getLsbD i = decide (1 < (laneValue g i).toNat)
            ∧ (encodeBlock g).p2.getLsbD i = decide (2 < (laneValue g i).toNat)

/-- The four inconsistent lane patterns decode to 1, 3, 3, 1, and encoding a decoded block gives its planes back exactly when they are consistent (40_codec.md R124). -/
def Obligations.ReencodingReturnsExactlyConsistentPlanes : Prop :=
  (∀ (p : Planes), ∀ i < 8,
      (p.p0.getLsbD i = false → p.p1.getLsbD i = false → p.p2.getLsbD i = true →
          laneValue (decodeBlock p) i = 1)
        ∧ (p.p0.getLsbD i = false → p.p1.getLsbD i = true → p.p2.getLsbD i = false →
          laneValue (decodeBlock p) i = 3)
        ∧ (p.p0.getLsbD i = false → p.p1.getLsbD i = true → p.p2.getLsbD i = true →
          laneValue (decodeBlock p) i = 3)
        ∧ (p.p0.getLsbD i = true → p.p1.getLsbD i = false → p.p2.getLsbD i = true →
          laneValue (decodeBlock p) i = 1))
    ∧ ∀ p : Planes, encodeBlock (decodeBlock p) = p ↔ p.consistent = true

/-- Bit `i` of every output of Encode and of Decode depends only on bit `i` of the inputs (40_codec.md R127). -/
def Obligations.CodecLanesAreIndependent : Prop :=
  (∀ (g g' : Gray) (i : Nat),
      g.low.getLsbD i = g'.low.getLsbD i → g.high.getLsbD i = g'.high.getLsbD i →
        (encodeBlock g).p0.getLsbD i = (encodeBlock g').p0.getLsbD i
          ∧ (encodeBlock g).p1.getLsbD i = (encodeBlock g').p1.getLsbD i
          ∧ (encodeBlock g).p2.getLsbD i = (encodeBlock g').p2.getLsbD i)
    ∧ ∀ (p p' : Planes) (i : Nat),
      p.p0.getLsbD i = p'.p0.getLsbD i → p.p1.getLsbD i = p'.p1.getLsbD i →
        p.p2.getLsbD i = p'.p2.getLsbD i →
        (decodeBlock p).low.getLsbD i = (decodeBlock p').low.getLsbD i
          ∧ (decodeBlock p).high.getLsbD i = (decodeBlock p').high.getLsbD i

/-! ## Engine requests -/

/-- QUERY with a legal id answers the bytes of its register and changes nothing else; END_ACT None, Clear, RestartAnimation, ResumeAnimation read as 0 to 3 above the FADE_EN bit, FADE None, FadingIn, FadingOut as 0 to 2 (42_engine_requests.md section 1, 30_encoding.md section 2, 10_state.md section 3). -/
def Obligations.QueryAnswersRegisters : Prop :=
  ∀ s : State,
    exec (.query 0) s = .next { s with resp := s.resp ++ [s.brCfg] }
      ∧ exec (.query 1) s = .next { s with resp := s.resp ++ [s.ht.a, s.ht.b, s.ht.c] }
      ∧ exec (.query 2) s
          = .next { s with
              resp := s.resp
                ++ [match s.endAct, s.fadeEn with
                    | .noAction, false => 0
                    | .noAction, true => 1
                    | .clear, false => 2
                    | .clear, true => 3
                    | .restart, false => 4
                    | .restart, true => 5
                    | .resume, false => 6
                    | .resume, true => 7,
                  s.idleTrig] }
      ∧ exec (.query 3) s
          = .next { s with
              resp := s.resp
                ++ [match s.fade with
                    | .none => 0
                    | .fadingIn => 1
                    | .fadingOut => 2,
                  s.brCnt] }
      ∧ exec (.query 4) s
          = .next { s with
              resp := s.resp
                ++ [BitVec.ofNat 8 (16 * s.front.toNat + 8 * s.outEn.toNat
                      + 4 * s.frameChg.toNat + 2 * s.brPend.toNat + s.swapPend.toNat)] }
      ∧ exec (.query 5) s = .next { s with resp := s.resp ++ [s.idleCnt] }
      ∧ exec (.query 6) s
          = .next { s with
              resp := s.resp
                ++ [if s.outEn then (if s.fade = .none then s.brCfg else s.brCnt) else 0] }

/-- QUERY with an id 7..15 raises BadCommand with its header and changes nothing else but that the port is between commands (42_engine_requests.md section 1, 60_exceptions.md section 1). -/
def Obligations.QueryReservedIdsRaiseBadCommand : Prop :=
  ∀ (r : BitVec 4) (s : State), 7 ≤ r.toNat →
    exec (.query r) s
      = .next { s with port := .idle, errs := s.errs ++ [BitVec.ofNat 8 (16 + r.toNat)] }

/-- BRIGHT and SWAP only raise their request flag, BRIGHT with its level in BR_REQ; nothing else changes (42_engine_requests.md sections 2, 3). -/
def Obligations.LatchedRequestsOnlyRaiseFlags : Prop :=
  ∀ (lvl : Byte) (s : State),
    exec (.bright lvl) s = .next { s with brReq := lvl, brPend := true }
      ∧ exec .swap s = .next { s with swapPend := true }

/-- HOLDS, IDLE, IDLERST, OUTEN and CLRFC write their registers at once and nothing else: HOLD_REM, the cursor, the fade and memory stay (42_engine_requests.md sections 4 to 8). -/
def Obligations.ImmediateRequestsWriteAtOnce : Prop :=
  ∀ (a b c trig : Byte) (f e : Bool) (aa : EndAct) (s : State),
    exec (.holds a b c) s = .next { s with ht := { a := a, b := b, c := c } }
      ∧ exec (.idle f aa trig) s
          = .next { s with fadeEn := f, endAct := aa, idleTrig := trig }
      ∧ exec .idlerst s = .next { s with idleCnt := 0 }
      ∧ exec (.outen e) s = .next { s with outEn := e }
      ∧ exec .clrfc s = .next { s with frameChg := false }

/-- A setting written and then queried answers the bytes written: the three hold counts, and for IDLE the flag bits of its own header and the trigger (30_encoding.md section 2, 95_test_vectors.md S2). -/
def Obligations.WrittenSettingsReadBack : Prop :=
  ∀ (a b c trig : Byte) (f : Bool) (aa : EndAct) (s : State),
    (∃ t, exec (.holds a b c) s = .next t
        ∧ exec (.query 1) t = .next { t with resp := t.resp ++ [a, b, c] })
      ∧ ∃ t, exec (.idle f aa trig) s = .next t
        ∧ exec (.query 2) t
            = .next { t with
                resp := t.resp ++ [(encode (.idle f aa trig)).headD 0 &&& 0x0F, trig] }

/-! ## Memory -/

/-- The address function is its formula, stays inside the space, reaches every address once, and POWER_ON_IMAGE and RESET_BACK are in its layout with the buffer's base removed (20_memory.md R63). -/
def Obligations.AddressFunctionIsBijection : Prop :=
  ∀ c : Config,
    (∀ buf p y bc, addr c buf p y bc
        = buf.toNat * (3 * (c.w / 8 * c.h)) + p * (c.w / 8 * c.h) + y * (c.w / 8) + bc)
      ∧ (∀ buf p y bc, p < 3 → y < c.h → bc < c.wb → addr c buf p y bc < c.fbLen)
      ∧ (∀ a < c.fbLen, ∃ buf p y bc,
          p < 3 ∧ y < c.h ∧ bc < c.wb ∧ addr c buf p y bc = a
            ∧ ∀ buf' p' y' bc', p' < 3 → y' < c.h → bc' < c.wb → addr c buf' p' y' bc' = a →
                buf' = buf ∧ p' = p ∧ y' = y ∧ bc' = bc)
      ∧ ∀ p y bc, p < 3 → y < c.h → bc < c.wb →
          (∀ x, c.powerOnImage[addr c false p y bc]? = some x →
              memRead (State.resetOf c) (addr c false p y bc) = x)
            ∧ ∀ x, c.resetBack[addr c false p y bc]? = some x →
              memRead (State.resetOf c) (addr c true p y bc) = x

/-- The clipping functions are R140's formulas, a clipped rectangle is exactly the positions of the rectangle that are in range, it is empty when it has no width or height or starts outside, and a pixel is in range below W and H (41_pixel_and_rect.md R140). -/
def Obligations.ClippedRectangleIsItsInRangePart : Prop :=
  ∀ (c : Config) (bx y bw h : Nat),
    clipWidth c bx bw = (if c.wb ≤ bx then 0 else min bw (c.wb - bx))
      ∧ clipHeight c y h = (if c.h ≤ y then 0 else min h (c.h - y))
      ∧ (∀ pos : Pos, pos ∈ clippedRect c bx y bw h
          ↔ ∃ q r, q < clipWidth c bx bw ∧ r < clipHeight c y h ∧ pos = (bx + q, y + r))
      ∧ (∀ pos : Pos, pos ∈ clippedRect c bx y bw h
          ↔ pos.1 < c.wb ∧ pos.2 < c.h ∧ bx ≤ pos.1 ∧ pos.1 < bx + bw ∧ y ≤ pos.2 ∧ pos.2 < y + h)
      ∧ (clippedRect c bx y bw h = [] ↔ bw = 0 ∨ h = 0 ∨ c.wb ≤ bx ∨ c.h ≤ y)
      ∧ ∀ px py : Byte, pixelInRange c px py = true ↔ px.toNat < c.w ∧ py.toNat < c.h

/-- Memories in canonical form that read alike everywhere are equal data: the form is the model's own (log 3). -/
def Obligations.EqualReadsAreEqualMemories : Prop :=
  ∀ (c : Config) (m m' : List Host.Cell), Mem.wf c m → Mem.wf c m' →
    (∀ a, Mem.find (resetByte c) m a = Mem.find (resetByte c) m' a) → m = m'

/-! ## Pixels -/

/-- SETPX in range, with no event inside it: in each plane the pixel's bit becomes the thermometer bit of the value, the other bits of those three bytes and every other byte stay, and no register changes (41_pixel_and_rect.md section 2). -/
def Obligations.SetpxWritesOneLane : Prop :=
  ∀ (t : Target) (v : BitVec 2) (x y : Byte) (s : State),
    s.cfg.Valid → Mem.wf s.cfg s.fb → x.toNat < s.cfg.w → y.toNat < s.cfg.h → Undisturbed 6 s →
    ∃ u, exec (.setpx t v x y) s = .next u
      ∧ u = { s with fb := u.fb, port := .idle, sched := s.sched.drop 6 }
      ∧ (∀ p < 3, ∀ i < 8,
          (memRead u (addr s.cfg (phys t s) p y.toNat (x.toNat / 8))).getLsbD i
            = if i = x.toNat % 8 then decide (p < v.toNat)
              else (memRead s (addr s.cfg (phys t s) p y.toNat (x.toNat / 8))).getLsbD i)
      ∧ ∀ a, (∀ p < 3, a ≠ addr s.cfg (phys t s) p y.toNat (x.toNat / 8)) →
          memRead u a = memRead s a

/-- A pixel out of range: SETPX changes nothing, GETPX answers 0 and changes nothing else (41_pixel_and_rect.md sections 2, 3). -/
def Obligations.PixelsOutOfRangeAreNoOps : Prop :=
  ∀ (t : Target) (v : BitVec 2) (x y : Byte) (s : State),
    s.cfg.w ≤ x.toNat ∨ s.cfg.h ≤ y.toNat →
    exec (.setpx t v x y) s = .next s
      ∧ exec (.getpx t x y) s = .next { s with resp := s.resp ++ [0] }

/-- GETPX in range, with no event inside it, answers `2*high + low` of the pixel's lane as Decode gives it and changes nothing else (41_pixel_and_rect.md section 3). -/
def Obligations.GetpxAnswersPixelValue : Prop :=
  ∀ (t : Target) (x y : Byte) (s : State),
    x.toNat < s.cfg.w → y.toNat < s.cfg.h → Undisturbed 3 s →
    ∃ b0 b1 b2 : Bool,
      b0 = (memRead s (addr s.cfg (phys t s) 0 y.toNat (x.toNat / 8))).getLsbD (x.toNat % 8)
        ∧ b1 = (memRead s (addr s.cfg (phys t s) 1 y.toNat (x.toNat / 8))).getLsbD (x.toNat % 8)
        ∧ b2 = (memRead s (addr s.cfg (phys t s) 2 y.toNat (x.toNat / 8))).getLsbD (x.toNat % 8)
        ∧ exec (.getpx t x y) s
            = .next { s with
                resp := s.resp ++ [BitVec.ofNat 8 (2 * b1.toNat + ((b0 ^^ b1) || b2).toNat)]
                port := .idle
                sched := s.sched.drop 3 }

/-- A pixel set and then read, with no event in between, reads as the value set (41_pixel_and_rect.md sections 2, 3). -/
def Obligations.PixelSetReadsBack : Prop :=
  ∀ (t : Target) (v : BitVec 2) (x y : Byte) (s : State),
    s.cfg.Valid → Mem.wf s.cfg s.fb → x.toNat < s.cfg.w → y.toNat < s.cfg.h → Undisturbed 9 s →
    ∃ u u', exec (.setpx t v x y) s = .next u ∧ exec (.getpx t x y) u = .next u'
      ∧ u'.resp = s.resp ++ [v.setWidth 8]

/-! ## Rectangles -/

/-- RDRECT with no event inside it answers `low, high` for every block of the rectangle as given, row by row, `0, 0` for a block outside the buffer, `2*bw*h` bytes in all, and changes nothing else (41_pixel_and_rect.md section 4). -/
def Obligations.RdrectAnswersEveryBlock : Prop :=
  ∀ (t : Target) (bx y bw h : Byte) (s : State),
    Undisturbed (accessCount s.cfg (.rdrect t bx y bw h)) s →
    ∃ bytes : List Byte,
      bytes = (List.range h.toNat).flatMap (fun r => (List.range bw.toNat).flatMap (fun q =>
          if bx.toNat + q < s.cfg.wb ∧ y.toNat + r < s.cfg.h then
            [(decodeBlock (planesAt s (phys t s) (bx.toNat + q) (y.toNat + r))).low,
              (decodeBlock (planesAt s (phys t s) (bx.toNat + q) (y.toNat + r))).high]
          else [0, 0]))
        ∧ bytes.length = 2 * bw.toNat * h.toNat
        ∧ exec (.rdrect t bx y bw h) s
            = .next { s with
                resp := s.resp ++ bytes
                port := .idle
                sched := s.sched.drop (accessCount s.cfg (.rdrect t bx y bw h)) }

/-- FLRECT with no event inside it: every block of the clipped rectangle gets `FF` in the planes below the value and `00` in the others, every other byte and every register stay (41_pixel_and_rect.md section 7). -/
def Obligations.FlrectFillsClippedRectangle : Prop :=
  ∀ (t : Target) (v : BitVec 2) (bx y bw h : Byte) (s : State),
    Mem.wf s.cfg s.fb → Undisturbed (accessCount s.cfg (.flrect t v bx y bw h)) s →
    ∃ u, exec (.flrect t v bx y bw h) s = .next u
      ∧ u = { s with
          fb := u.fb
          port := .idle
          sched := s.sched.drop (accessCount s.cfg (.flrect t v bx y bw h)) }
      ∧ (∀ p q r, p < 3 → q < clipWidth s.cfg bx.toNat bw.toNat →
          r < clipHeight s.cfg y.toNat h.toNat →
          memRead u (addr s.cfg (phys t s) p (y.toNat + r) (bx.toNat + q))
            = if p < v.toNat then 0xFF else 0x00)
      ∧ ∀ a, ¬ inRect s.cfg (phys t s) bx.toNat y.toNat (clipWidth s.cfg bx.toNat bw.toNat)
            (clipHeight s.cfg y.toNat h.toNat) a → memRead u a = memRead s a

/-- WRRECT with its data in the stream and no event inside it: block `(bx+q, y+r)` of the clipped rectangle gets the encoding of data pair `r*bw + q`, all `2*bw*h` data bytes are taken, every other byte and every register stay (41_pixel_and_rect.md section 5). -/
def Obligations.WrrectStoresEncodedData : Prop :=
  ∀ (t : Target) (bx y bw h : Byte) (s : State),
    Mem.wf s.cfg s.fb → dataCount bw h ≤ s.stream.length →
    Undisturbed (accessCount s.cfg (.wrrect t bx y bw h)) s →
    ∃ u, exec (.wrrect t bx y bw h) s = .next u
      ∧ u = { s with
          fb := u.fb
          port := .idle
          stream := s.stream.drop (dataCount bw h)
          sched := s.sched.drop (accessCount s.cfg (.wrrect t bx y bw h)) }
      ∧ (∀ q r low high, q < clipWidth s.cfg bx.toNat bw.toNat →
          r < clipHeight s.cfg y.toNat h.toNat →
          s.stream[2 * (r * bw.toNat + q)]? = some low →
          s.stream[2 * (r * bw.toNat + q) + 1]? = some high →
          planesAt u (phys t s) (bx.toNat + q) (y.toNat + r)
            = { p0 := low ||| high, p1 := high, p2 := low &&& high })
      ∧ ∀ a, ¬ inRect s.cfg (phys t s) bx.toNat y.toNat (clipWidth s.cfg bx.toNat bw.toNat)
            (clipHeight s.cfg y.toNat h.toNat) a → memRead u a = memRead s a

/-- A WRRECT whose data comes in two pieces, with no event inside it, ends as with all the data at hand: where the first piece ends the port waits, and its next turn goes on with the second (41_pixel_and_rect.md section 5; that the port keeps what it took is log 13, the order of turns is log 4). -/
def Obligations.WrrectDataMayArriveInPieces : Prop :=
  ∀ (t : Target) (bx y bw h : Byte) (s : State) (more : List Byte),
    s.sched = [] → s.swapPend = false → s.stream.length < dataCount bw h →
    ∃ v, exec (.wrrect t bx y bw h) s = .next v ∧ v.stream = [] ∧ v.port ≠ .idle
      ∧ step { v with stream := more }
          = exec (.wrrect t bx y bw h) { s with stream := s.stream ++ more }

/-- CPRECT with no event inside it: every block of the copy gets the plane bytes its source block had before the operation, overlap or not, every other byte and every register stay (41_pixel_and_rect.md section 6). -/
def Obligations.CprectCopiesSnapshot : Prop :=
  ∀ (src dst : Target) (sbx sy bw h dbx dy : Byte) (s : State),
    Mem.wf s.cfg s.fb → Undisturbed (accessCount s.cfg (.cprect src dst sbx sy bw h dbx dy)) s →
    ∃ u w' h', exec (.cprect src dst sbx sy bw h dbx dy) s = .next u
      ∧ w' = min (clipWidth s.cfg sbx.toNat bw.toNat) (clipWidth s.cfg dbx.toNat bw.toNat)
      ∧ h' = min (clipHeight s.cfg sy.toNat h.toNat) (clipHeight s.cfg dy.toNat h.toNat)
      ∧ u = { s with
          fb := u.fb
          port := .idle
          sched := s.sched.drop (accessCount s.cfg (.cprect src dst sbx sy bw h dbx dy)) }
      ∧ (∀ q r, q < w' → r < h' →
          planesAt u (phys dst s) (dbx.toNat + q) (dy.toNat + r)
            = planesAt s (phys src s) (sbx.toNat + q) (sy.toNat + r))
      ∧ ∀ a, ¬ inRect s.cfg (phys dst s) dbx.toNat dy.toNat w' h' a →
          memRead u a = memRead s a

/-! ## Interleaving -/

/-- SETPX on either buffer with events in front of its access `k`: the accesses are read and write of plane 0, 1, 2, those before `k` are done when the events come and the events see them, the others see what the events left (20_memory.md sections 4, 5; 41_pixel_and_rect.md section 2; 70_reset_and_hazards.md section 3).
So a TICK puts out the bytes written so far, and a plane byte read before a Clear is written back after it.
The order of events is log 4. -/
def Obligations.SetpxMeetsEventsBetweenAccesses : Prop :=
  ∀ (t : Target) (v : BitVec 2) (x y : Byte) (s : State) (k : Nat) (evs tl : List Turn),
    s.cfg.Valid → Mem.wf s.cfg s.fb → x.toNat < s.cfg.w → y.toNat < s.cfg.h →
    eventsAt 6 k evs tl s →
    ∃ m w u, exec (.setpx t v x y) s = .next u
      ∧ m = { s with fb := m.fb, port := .running, sched := tl }
      ∧ w = deliverAll evs m
      ∧ u = { w with fb := u.fb, port := .idle, sched := tl.drop (6 - k) }
      ∧ (∀ p < 3, ∀ i < 8, ∀ a, a = addr s.cfg (phys t s) p y.toNat (x.toNat / 8) →
          (memRead m a).getLsbD i
              = (if 2 * p + 1 < k ∧ i = x.toNat % 8 then decide (p < v.toNat)
                else (memRead s a).getLsbD i)
            ∧ (memRead u a).getLsbD i
              = if 2 * p + 1 < k then (memRead w a).getLsbD i
                else if i = x.toNat % 8 then decide (p < v.toNat)
                else if 2 * p < k then (memRead s a).getLsbD i
                else (memRead w a).getLsbD i)
      ∧ ∀ a, (∀ p < 3, a ≠ addr s.cfg (phys t s) p y.toNat (x.toNat / 8)) →
          memRead m a = memRead s a ∧ memRead u a = memRead w a

/-- GETPX and RDRECT on either buffer with events in front of access `k`: the plane bytes read before it are from before the events, the others from after them, and the response bytes of blocks already answered stand in front of the events (20_memory.md sections 4, 5; 41_pixel_and_rect.md sections 3, 4; the order of events is log 4). -/
def Obligations.ReadsMeetEventsBetweenAccesses : Prop :=
  (∀ (t : Target) (x y : Byte) (s : State) (k : Nat) (evs tl : List Turn),
      x.toNat < s.cfg.w → y.toNat < s.cfg.h → eventsAt 3 k evs tl s →
      ∃ w, w = deliverAll evs { s with port := .running, sched := tl }
        ∧ exec (.getpx t x y) s
            = .next { w with
                resp := w.resp ++ [laneValue
                  (decodeBlock (planesAround k 0 s w (phys t s) (x.toNat / 8) y.toNat))
                  (x.toNat % 8)]
                port := .idle
                sched := tl.drop (3 - k) })
    ∧ ∀ (t : Target) (bx y bw h : Byte) (s : State) (k : Nat) (evs tl : List Turn),
      eventsAt (accessCount s.cfg (.rdrect t bx y bw h)) k evs tl s →
      ∃ w cw done bytes, cw = clipWidth s.cfg bx.toNat bw.toNat
        ∧ done = 2 * blocksBefore cw bw.toNat k
        ∧ bytes = responseBytes s.cfg bx.toNat y.toNat bw.toNat h.toNat (fun q r =>
            planesAround k (3 * (r * cw + q)) s w (phys t s) (bx.toNat + q) (y.toNat + r))
        ∧ w = deliverAll evs
            { s with resp := s.resp ++ bytes.take done, port := .running, sched := tl }
        ∧ exec (.rdrect t bx y bw h) s
            = .next { w with
                resp := w.resp ++ bytes.drop done
                port := .idle
                sched := tl.drop (accessCount s.cfg (.rdrect t bx y bw h) - k) }

/-- FLRECT on either buffer with events in front of its access `k`: the blocks are written row by row and plane 0, 1, 2, the bytes before `k` are written when the events come, the others are written over what the events left (20_memory.md sections 4, 5; 41_pixel_and_rect.md sections 1, 7; 70_reset_and_hazards.md section 3; the order of events is log 4). -/
def Obligations.FlrectMeetsEventsBetweenAccesses : Prop :=
  ∀ (t : Target) (v : BitVec 2) (bx y bw h : Byte) (s : State) (k n : Nat) (evs tl : List Turn),
    Mem.wf s.cfg s.fb → n = accessCount s.cfg (.flrect t v bx y bw h) → eventsAt n k evs tl s →
    ∃ m w u cw ch, exec (.flrect t v bx y bw h) s = .next u
      ∧ cw = clipWidth s.cfg bx.toNat bw.toNat ∧ ch = clipHeight s.cfg y.toNat h.toNat
      ∧ m = { s with fb := m.fb, port := .running, sched := tl }
      ∧ w = deliverAll evs m
      ∧ u = { w with fb := u.fb, port := .idle, sched := tl.drop (n - k) }
      ∧ (∀ p q r a, p < 3 → q < cw → r < ch →
          a = addr s.cfg (phys t s) p (y.toNat + r) (bx.toNat + q) →
          memRead m a = (if 3 * (r * cw + q) + p < k then (if p < v.toNat then 0xFF else 0x00)
              else memRead s a)
            ∧ memRead u a = if 3 * (r * cw + q) + p < k then memRead w a
              else if p < v.toNat then 0xFF else 0x00)
      ∧ ∀ a, ¬ inRect s.cfg (phys t s) bx.toNat y.toNat cw ch a →
          memRead m a = memRead s a ∧ memRead u a = memRead w a

/-- WRRECT on either buffer with its data in the stream and events in front of its access `k`: the bytes before `k` are written when the events come and the data of the blocks up to and with that access's is taken, the other bytes are written over what the events left and the rest of the data is taken (20_memory.md sections 4, 5; 41_pixel_and_rect.md sections 1, 5; 70_reset_and_hazards.md section 3; the order of events is log 4). -/
def Obligations.WrrectMeetsEventsBetweenAccesses : Prop :=
  ∀ (t : Target) (bx y bw h : Byte) (s : State) (k n : Nat) (evs tl : List Turn),
    Mem.wf s.cfg s.fb → dataCount bw h ≤ s.stream.length →
    n = accessCount s.cfg (.wrrect t bx y bw h) → eventsAt n k evs tl s →
    ∃ m w u cw ch taken, exec (.wrrect t bx y bw h) s = .next u
      ∧ cw = clipWidth s.cfg bx.toNat bw.toNat ∧ ch = clipHeight s.cfg y.toNat h.toNat
      ∧ taken = 2 * (blocksBefore cw bw.toNat k + 1)
      ∧ m = { s with fb := m.fb, port := .running, stream := s.stream.drop taken, sched := tl }
      ∧ w = deliverAll evs m
      ∧ u = { w with
          fb := u.fb
          port := .idle
          stream := w.stream.drop (dataCount bw h - taken)
          sched := tl.drop (n - k) }
      ∧ (∀ p q r a low high, p < 3 → q < cw → r < ch →
          a = addr s.cfg (phys t s) p (y.toNat + r) (bx.toNat + q) →
          s.stream[2 * (r * bw.toNat + q)]? = some low →
          s.stream[2 * (r * bw.toNat + q) + 1]? = some high →
          memRead m a = (if 3 * (r * cw + q) + p < k
              then Planes.byte ⟨low ||| high, high, low &&& high⟩ p else memRead s a)
            ∧ memRead u a = if 3 * (r * cw + q) + p < k then memRead w a
              else Planes.byte ⟨low ||| high, high, low &&& high⟩ p)
      ∧ ∀ a, ¬ inRect s.cfg (phys t s) bx.toNat y.toNat cw ch a →
          memRead m a = memRead s a ∧ memRead u a = memRead w a

/-- CPRECT between any two buffers with events in front of its access `k`: all plane bytes are read, row by row, before the first is written; a byte read before `k` is from before the events, one read after them from after them, and what is written before `k` the events see (20_memory.md sections 4, 5; 41_pixel_and_rect.md sections 1, 6; 70_reset_and_hazards.md section 3; the order of events is log 4). -/
def Obligations.CprectMeetsEventsBetweenAccesses : Prop :=
  ∀ (src dst : Target) (sbx sy bw h dbx dy : Byte) (s : State) (k n : Nat) (evs tl : List Turn),
    Mem.wf s.cfg s.fb → n = accessCount s.cfg (.cprect src dst sbx sy bw h dbx dy) →
    eventsAt n k evs tl s →
    ∃ m w u cw ch, exec (.cprect src dst sbx sy bw h dbx dy) s = .next u
      ∧ cw = min (clipWidth s.cfg sbx.toNat bw.toNat) (clipWidth s.cfg dbx.toNat bw.toNat)
      ∧ ch = min (clipHeight s.cfg sy.toNat h.toNat) (clipHeight s.cfg dy.toNat h.toNat)
      ∧ m = { s with fb := m.fb, port := .running, sched := tl }
      ∧ w = deliverAll evs m
      ∧ u = { w with fb := u.fb, port := .idle, sched := tl.drop (n - k) }
      ∧ (∀ p q r j a b, p < 3 → q < cw → r < ch → j = 3 * (r * cw + q) + p →
          a = addr s.cfg (phys dst s) p (dy.toNat + r) (dbx.toNat + q) →
          b = addr s.cfg (phys src s) p (sy.toNat + r) (sbx.toNat + q) →
          memRead m a = (if 3 * (cw * ch) + j < k then memRead s b else memRead s a)
            ∧ memRead u a = if 3 * (cw * ch) + j < k then memRead w a
              else if j < k then memRead s b else memRead w b)
      ∧ ∀ a, ¬ inRect s.cfg (phys dst s) dbx.toNat dy.toNat cw ch a →
          memRead m a = memRead s a ∧ memRead u a = memRead w a

/-- An operation on the back buffer acts as if atomic: with ticks and changes of the inputs between its accesses it ends in the very state of the undisturbed operation followed by those events (20_memory.md section 5; the order of events is log 4). -/
def Obligations.BackBufferOperationsActAsAtomic : Prop :=
  ∀ (i : Instr) (s : State),
    MachineInv s → s.swapPend = false → backOnly i → dataReady s i →
    (∀ e ∈ s.sched, e = Turn.port ∨ scanEvent e) →
    ∃ u u0 taken, exec i s = .next u ∧ exec i { s with sched := [] } = .next u0
      ∧ s.sched = taken ++ u.sched
      ∧ u = (taken.filter (fun e => e ≠ Turn.port)).foldl (fun s e => deliver e s)
          { u0 with sched := u.sched }

/-- A reset between two accesses of a frame-buffer operation drops what is left of it: every register and all memory are as after reset, and the rest of the order is still to come (70_reset_and_hazards.md section 1).
Of the stream only the data a WRRECT had taken is gone: the pairs of the blocks up to and with the one whose access the reset came in front of.
That the inputs, the bytes not yet taken and the output records stay is the model's choice (log 14), the order of events is log 4. -/
def Obligations.ResetAbandonsOperationInProgress : Prop :=
  ∀ (i : Instr) (s : State) (k : Nat) (rest : List Turn),
    k < accessCount s.cfg i → dataReady s i →
    s.sched = List.replicate k Turn.port ++ Turn.reset :: rest →
    exec i s = .next { State.resetOf s.cfg with
      animPlaying := s.animPlaying
      idleInhibit := s.idleInhibit
      stream := s.stream.drop (dataTaken s.cfg k i)
      segs := s.segs
      animEvents := s.animEvents
      errs := s.errs
      sched := rest }

/-- Two consistent buffers stay consistent under every operation no event falls into, TICK included (41_pixel_and_rect.md section 1). -/
def Obligations.OperationsKeepBuffersConsistent : Prop :=
  ∀ (i : Instr) (s u : State),
    s.cfg.Valid → Mem.wf s.cfg s.fb → consistent s → (∀ e ∈ s.sched, e = Turn.port) →
    exec i s = .next u → consistent u

/-! ## TICK -/

/-- TICK puts out one segment: row `ROW_ORDER[ROW]`, side HALF, the bytes of that half-row of plane PLANE of the front buffer, and LEVEL, all as they stood when the tick came (43_tick.md section 2). -/
def Obligations.TickEmitsScannedSegment : Prop :=
  ∀ (s : State) (pr : Nat), s.cfg.rowOrder[s.row.toNat]? = some pr →
    ∃ u, exec .tick s = .next u
      ∧ u.segs = s.segs ++ [
          { row := pr
            side := s.half
            data := (List.range (s.cfg.w / 16)).map (fun j =>
              memRead s (addr s.cfg s.front s.plane.val pr (s.half.toNat * (s.cfg.w / 16) + j)))
            level := if s.outEn then (if s.fade = .none then s.brCfg else s.brCnt) else 0 }]

/-- TICK inside a frame changes nothing but the cursor, by the countdown half, row, hold, plane, and the segment it puts out (43_tick.md section 3). -/
def Obligations.TickMovesCursorWithinFrame : Prop :=
  ∀ s : State,
    (s.half = false →
        exec .tick s = .next { s with segs := s.segs ++ [segmentOf s], half := true })
      ∧ (s.half = true → s.row.toNat < s.cfg.h - 1 →
        exec .tick s
          = .next { s with segs := s.segs ++ [segmentOf s], half := false, row := s.row + 1 })
      ∧ (s.half = true → s.cfg.h - 1 ≤ s.row.toNat → 1 < s.holdRem.toNat →
        exec .tick s
          = .next { s with
              segs := s.segs ++ [segmentOf s], half := false, row := 0, holdRem := s.holdRem - 1 })
      ∧ (s.half = true → s.cfg.h - 1 ≤ s.row.toNat → s.holdRem.toNat ≤ 1 → s.plane = 2 →
        exec .tick s
          = .next { s with
              segs := s.segs ++ [segmentOf s], half := false, row := 0, plane := 1,
              holdRem := s.ht.b })
      ∧ (s.half = true → s.cfg.h - 1 ≤ s.row.toNat → s.holdRem.toNat ≤ 1 → s.plane = 1 →
        exec .tick s
          = .next { s with
              segs := s.segs ++ [segmentOf s], half := false, row := 0, plane := 0,
              holdRem := s.ht.a })

/-- TICK at the end of a frame: the cursor wraps to plane 2, a pending swap exchanges the buffers, a pending brightness becomes BR_CFG, both requests are served, the frame-changed mark is set, and beyond the idle and fade steps nothing else changes (43_tick.md section 4). -/
def Obligations.FrameBoundaryServesRequests : Prop :=
  ∀ s : State, boundaryNext s →
    ∃ u, exec .tick s = .next u
      ∧ u = { s with
          segs := s.segs ++ [segmentOf s]
          half := false
          row := 0
          plane := 2
          holdRem := s.ht.c
          front := (s.front ^^ s.swapPend)
          swapPend := false
          brCfg := if s.brPend then s.brReq else s.brCfg
          brPend := false
          frameChg := true
          brCnt := u.brCnt
          idleCnt := u.idleCnt
          fade := u.fade
          fb := u.fb
          animEvents := u.animEvents }

/-- The mark is set at every frame boundary, whatever the other steps did (43_tick.md R209). -/
def Obligations.FrameChangedSetAtEveryBoundary : Prop :=
  ∀ s : State, boundaryNext s → ∃ u, exec .tick s = .next u ∧ u.frameChg = true

/-- The boundary whose increment reaches the trigger with fade-on-idle enabled begins FadingOut from the effective brightness, which is the level just latched when no fade runs; the counter stays at the trigger and no action runs (43_tick.md section 4). -/
def Obligations.IdleTriggerBeginsFade : Prop :=
  ∀ s : State, boundaryNext s → idleReaches s → s.fadeEn = true →
    ∃ u, exec .tick s = .next u
      ∧ u.fade = .fadingOut
      ∧ u.brCnt = (if s.fade = .none then latchedBright s else s.brCnt)
      ∧ u.idleCnt = s.idleTrig
      ∧ u.fb = s.fb
      ∧ u.animEvents = s.animEvents

/-- The boundary whose increment reaches the trigger without fade-on-idle, no fade running, runs the end action and zeroes the counter; no fade starts (43_tick.md section 4). -/
def Obligations.IdleTriggerRunsActionWithoutFade : Prop :=
  ∀ s : State, Mem.wf s.cfg s.fb → boundaryNext s → idleReaches s → s.fadeEn = false →
    s.fade = .none →
    ∃ u, exec .tick s = .next u
      ∧ u.fade = .none
      ∧ u.brCnt = s.brCnt
      ∧ u.idleCnt = 0
      ∧ actionEffect s u

/-- With no fade running and the trigger not reached, a frame boundary counts one idle frame if the counter may advance and leaves it where it is if not; fade, fade counter, memory and events stay (43_tick.md section 4). -/
def Obligations.IdleCounterRunsWhenAllowed : Prop :=
  ∀ s : State, boundaryNext s → s.fade = .none → ¬ idleReaches s →
    ∃ u, exec .tick s = .next u
      ∧ (idleAdvances s → u.idleCnt.toNat = s.idleCnt.toNat + 1)
      ∧ (¬ idleAdvances s → u.idleCnt = s.idleCnt)
      ∧ u.fade = .none
      ∧ u.brCnt = s.brCnt
      ∧ u.fb = s.fb
      ∧ u.animEvents = s.animEvents

/-- A frame boundary during FadingOut lowers the fade counter by one, not below 0, and leaves the idle counter; reaching 0 it runs the end action and enters FadingIn (43_tick.md section 4). -/
def Obligations.FadeOutCountsDownToAction : Prop :=
  ∀ s : State, Mem.wf s.cfg s.fb → boundaryNext s → s.fade = .fadingOut →
    ∃ u, exec .tick s = .next u
      ∧ u.brCnt.toNat = s.brCnt.toNat - 1
      ∧ u.idleCnt = s.idleCnt
      ∧ (1 < s.brCnt.toNat → u.fade = .fadingOut ∧ u.fb = s.fb ∧ u.animEvents = s.animEvents)
      ∧ (s.brCnt.toNat ≤ 1 → u.fade = .fadingIn ∧ actionEffect s u)

/-- A frame boundary during FadingIn that does not start a fade raises the fade counter by one while it is below the brightness just latched; at the target the fade is over and the idle counter is 0; the end action runs if the idle trigger was reached without fade-on-idle (43_tick.md section 4). -/
def Obligations.FadeInCountsUpToTarget : Prop :=
  ∀ s : State, Mem.wf s.cfg s.fb → boundaryNext s → s.fade = .fadingIn →
    ¬ (idleReaches s ∧ s.fadeEn = true) →
    ∃ u, exec .tick s = .next u
      ∧ u.brCnt.toNat
          = (if s.brCnt.toNat < (latchedBright s).toNat then s.brCnt.toNat + 1 else s.brCnt.toNat)
      ∧ ((latchedBright s).toNat ≤ u.brCnt.toNat → u.fade = .none ∧ u.idleCnt = 0)
      ∧ (u.brCnt.toNat < (latchedBright s).toNat → u.fade = .fadingIn
          ∧ (idleReaches s → u.idleCnt = 0)
          ∧ (¬ idleReaches s → idleAdvances s → u.idleCnt.toNat = s.idleCnt.toNat + 1)
          ∧ (¬ idleAdvances s → u.idleCnt = s.idleCnt))
      ∧ (idleReaches s → actionEffect s u)
      ∧ (¬ idleReaches s → u.fb = s.fb ∧ u.animEvents = s.animEvents)

/-! ## Frames -/

/-- The scan of one frame: from its start, tick `n` finds side `n mod 2`, row index `(n div 2) mod H` and plane 2, 1, 0 for `h2`, `h1`, `h0` passes; no swap, brightness or fade changes before its last tick, which brings the cursor back to the start and sets the mark; a frame takes `6*H` to `2*H*765` ticks (43_tick.md sections 3, 5). -/
def Obligations.FrameScansPlanesByHoldCounts : Prop :=
  ∀ s : State, MachineInv s → frameStart s →
    (∀ n < frameTicks s,
        (ticks n s).half = decide (n % 2 = 1)
          ∧ (ticks n s).row.toNat = n / 2 % s.cfg.h
          ∧ (n < 2 * s.cfg.h * passes s 2 → (ticks n s).plane = 2)
          ∧ (2 * s.cfg.h * passes s 2 ≤ n → n < 2 * s.cfg.h * (passes s 2 + passes s 1) →
              (ticks n s).plane = 1)
          ∧ (2 * s.cfg.h * (passes s 2 + passes s 1) ≤ n → (ticks n s).plane = 0)
          ∧ ticks n s = { s with
              segs := (ticks n s).segs
              row := (ticks n s).row
              half := (ticks n s).half
              plane := (ticks n s).plane
              holdRem := (ticks n s).holdRem })
      ∧ (∀ n < frameTicks s, boundaryNext (ticks n s) ↔ n + 1 = frameTicks s)
      ∧ frameStart (ticks (frameTicks s) s)
      ∧ (ticks (frameTicks s) s).frameChg = true
      ∧ 6 * s.cfg.h ≤ frameTicks s
      ∧ frameTicks s ≤ 2 * s.cfg.h * 765

/-- Gray levels: in one frame a consistent pixel of value `v` is lit in `0`, `h0`, `h0+h1`, `h0+h1+h2` of the frame's ticks for `v` = 0, 1, 2, 3 (43_tick.md section 3). -/
def Obligations.GrayValueIsLitForItsWeight : Prop :=
  ∀ (s : State) (x y : Nat), MachineInv s → frameStart s → x < s.cfg.w → y < s.cfg.h →
    (planesAt s s.front (x / 8) y).consistent = true →
    ((List.range (frameTicks s)).filter (fun n => lit x y (ticks n s))).length
      = match (laneValue (decodeBlock (planesAt s s.front (x / 8) y)) (x % 8)).toNat with
        | 0 => 0
        | 1 => passes s 0
        | 2 => passes s 0 + passes s 1
        | _ => passes s 0 + passes s 1 + passes s 2

/-- A pending swap is served at the end of the frame in progress: the first tick that runs a frame boundary, at most `2*H*765` ticks on, exchanges the buffers and releases the port, and no tick before it does either (43_tick.md section 5, 42_engine_requests.md section 3). -/
def Obligations.SwapIsServedWithinOneFrame : Prop :=
  ∀ s : State, MachineInv s → s.swapPend = true →
    ∃ n, 1 ≤ n ∧ n ≤ 2 * s.cfg.h * 765
      ∧ (ticks n s).swapPend = false
      ∧ (ticks n s).front = !s.front
      ∧ boundaryNext (ticks (n - 1) s)
      ∧ (∀ m < n - 1, ¬ boundaryNext (ticks m s))
      ∧ ∀ m < n, (ticks m s).swapPend = true ∧ (ticks m s).front = s.front

/-- A fade out and in from brightness `B`, no request pending and the idle counter at or above its trigger, takes `2*B` frames: `B` down to 0, where FadingIn begins, and `B` back up, where the fade is over and the idle counter is 0 (43_tick.md section 4, 70_reset_and_hazards.md section 4). -/
def Obligations.FadeCycleTakesTwiceBrightnessFrames : Prop :=
  ∀ s : State, MachineInv s → frameStart s → s.fade = .fadingOut → s.brPend = false →
    s.brCnt = s.brCfg → 1 ≤ s.brCfg.toNat → s.idleTrig.toNat ≤ s.idleCnt.toNat →
    (∀ k < s.brCfg.toNat,
        (ticks (k * frameTicks s) s).fade = .fadingOut
          ∧ (ticks (k * frameTicks s) s).brCnt.toNat = s.brCfg.toNat - k)
      ∧ (∀ k < s.brCfg.toNat,
        (ticks ((s.brCfg.toNat + k) * frameTicks s) s).fade = .fadingIn
          ∧ (ticks ((s.brCfg.toNat + k) * frameTicks s) s).brCnt.toNat = k)
      ∧ (ticks (2 * s.brCfg.toNat * frameTicks s) s).fade = .none
      ∧ (ticks (2 * s.brCfg.toNat * frameTicks s) s).brCnt = s.brCfg
      ∧ (ticks (2 * s.brCfg.toNat * frameTicks s) s).idleCnt = 0

/-! ## The whole machine -/

/-- Who writes what: no port operation without an event inside it changes the cursor, BR_CFG, BR_CNT, FADE or FRONT, clears a request flag, sets the mark or moves IDLE_CNT except to 0; no TICK changes HT, BR_REQ, IDLE_TRIG, FADE_EN, END_ACT or OUT_EN, sets a request flag, clears the mark, or writes memory unless END_ACT is Clear at a frame boundary (10_state.md section 6). -/
def Obligations.ContextsWriteTheirOwnRegisters : Prop :=
  (∀ (i : Instr) (s u : State), i ≠ .tick → (∀ e ∈ s.sched, e = Turn.port) →
      exec i s = .next u →
      u.row = s.row ∧ u.half = s.half ∧ u.plane = s.plane ∧ u.holdRem = s.holdRem
        ∧ u.brCfg = s.brCfg ∧ u.brCnt = s.brCnt ∧ u.fade = s.fade ∧ u.front = s.front
        ∧ (s.swapPend = true → u.swapPend = true) ∧ (s.brPend = true → u.brPend = true)
        ∧ (u.frameChg = true → s.frameChg = true)
        ∧ (u.idleCnt = s.idleCnt ∨ u.idleCnt = 0))
    ∧ ∀ s u : State, exec .tick s = .next u →
      u.ht = s.ht ∧ u.brReq = s.brReq ∧ u.idleTrig = s.idleTrig ∧ u.fadeEn = s.fadeEn
        ∧ u.endAct = s.endAct ∧ u.outEn = s.outEn
        ∧ (u.swapPend = true → s.swapPend = true) ∧ (u.brPend = true → s.brPend = true)
        ∧ (s.frameChg = true → u.frameChg = true)
        ∧ (¬ (s.endAct = .clear ∧ boundaryNext s) → u.fb = s.fb)

/-- The scanned buffer never changes mid-scan: barring reset, a step that changes FRONT is a TICK at a frame boundary with a swap pending (43_tick.md section 5, 10_state.md section 3). -/
def Obligations.FrontChangesOnlyAtServedSwap : Prop :=
  ∀ s u : State, MachineInv s → Turn.reset ∉ s.sched → step s = .next u → u.front ≠ s.front →
    s.swapPend = true ∧ boundaryNext s ∧ ∃ rest, s.sched = Turn.tick :: rest

/-- No operation and no step ever stops: every one answers a next state (60_exceptions.md section 1).
That a step which only waits answers a next state is the model's choice (log 6), and so is that an illegal cursor or address gives a free value and no fault (log 10). -/
def Obligations.NoOperationAndNoStepStops : Prop :=
  (∀ (i : Instr) (s : State), ∃ u, exec i s = .next u) ∧ ∀ s : State, ∃ u, step s = .next u

/-- Every step keeps the invariant, whatever events fall into it, and never changes the configuration (10_state.md sections 1 to 4, 20_memory.md section 1; the canonical form of memory and what the port keeps between two steps are the model's own, log 3, log 13). -/
def Obligations.StepsKeepTheInvariant : Prop :=
  ∀ s u : State, MachineInv s → step s = .next u → MachineInv u ∧ u.cfg = s.cfg

/-- The state after reset meets the invariant, for the instance of `State.reset` and for every legal configuration (10_state.md section 8). -/
def Obligations.ResetMeetsTheInvariant : Prop :=
  MachineInv State.reset ∧ ∀ c : Config, c.Valid → MachineInv (State.resetOf c)

/-- The outputs are only put out: a step does the same, and puts out the same, whatever record of earlier outputs the state holds (10_state.md section 9; the records are the model's own, log 8). -/
def Obligations.OutputsAreNeverRead : Prop :=
  ∀ s u : State, step s = .next u →
    ∃ u', step (withoutOutputs s) = .next u'
      ∧ withoutOutputs u' = withoutOutputs u
      ∧ u.segs = s.segs ++ u'.segs
      ∧ u.animEvents = s.animEvents ++ u'.animEvents
      ∧ u.errs = s.errs ++ u'.errs

/-! ## Steps -/

/-- When the port may take bytes and those it holds and the stream's begin with a whole command, a step in which it has the turn runs that command, on the state with those bytes taken (30_encoding.md section 1; the order of turns is log 4). -/
def Obligations.StepRunsDecodedCommand : Prop :=
  ∀ (s : State) (bs : List Byte) (i : Instr) (rest : List Byte),
    s.swapPend = false → (s.port = .idle ∧ bs = [] ∨ s.port = .taking bs) →
    decode (bs ++ s.stream) = .ok (i, rest) →
    (s.sched = [] → step s = exec i { s with port := .idle, stream := rest })
      ∧ ∀ tl, s.sched = Turn.port :: tl →
        step s = exec i { s with port := .idle, stream := rest, sched := tl }

/-- An illegal header raises BadCommand: the byte is consumed, `err` presents it, no operand is taken and nothing else changes, so the next byte is a header (60_exceptions.md section 1, 30_encoding.md section 3; the order of turns is log 4, the record of `err` is log 8). -/
def Obligations.StepRaisesBadCommand : Prop :=
  ∀ (s : State) (hdr : Byte) (rest : List Byte),
    s.swapPend = false → s.port = .idle → s.stream = hdr :: rest → illegalHeader hdr = true →
    (s.sched = [] → step s = .next { s with stream := rest, errs := s.errs ++ [hdr] })
      ∧ ∀ tl, s.sched = Turn.port :: tl →
        step s = .next { s with stream := rest, errs := s.errs ++ [hdr], sched := tl }

/-- A command whose bytes are not all there is not run: the port takes the bytes there are and keeps them (30_encoding.md section 1).
That it keeps them is log 13, and that a turn with no byte to take answers the same state is log 6: both are the model's. -/
def Obligations.IncompleteCommandWaits : Prop :=
  ∀ (s : State) (bs : List Byte) (n : Nat),
    s.swapPend = false → s.sched = [] → (s.port = .idle ∧ bs = [] ∨ s.port = .taking bs) →
    decode (bs ++ s.stream) = .error (.truncated n) →
    (s.stream = [] → step s = .next s)
      ∧ (s.stream ≠ [] → step s = .next { s with port := .taking (bs ++ s.stream), stream := [] })

/-- Port hold: while SWAP_PEND = 1 the port's turn takes no byte, the other inputs act as ever, and with SWAP_PEND = 0 the port's turn runs the command at the head of the stream (42_engine_requests.md section 3).
That a turn which can take nothing answers the same state, less the turn, is the model's choice (log 6), and so is the order of turns (log 4). -/
def Obligations.PortTakesNothingWhileSwapPending : Prop :=
  (∀ s : State, s.swapPend = true →
      (s.sched = [] → step s = .next s)
        ∧ ∀ tl, s.sched = Turn.port :: tl → step s = .next { s with sched := tl })
    ∧ (∀ (s : State) (e : Turn) (tl : List Turn), s.swapPend = true → e ≠ .port →
      s.sched = e :: tl → step s = .next (deliver e { s with sched := tl }))
    ∧ ∀ (s : State) (i : Instr) (rest : List Byte), s.swapPend = false → s.port = .idle →
      s.sched = [] → decode s.stream = .ok (i, rest) → step s = exec i { s with stream := rest }

/-- An event at the head of the order is one step: a tick is the TICK operation, the inputs take their values, an offered byte joins the end of the stream, a collected byte leaves the response stream (10_state.md section 7, 70_reset_and_hazards.md section 5; the order of turns is log 4). -/
def Obligations.StepDeliversTheFirstEvent : Prop :=
  ∀ (s : State) (tl : List Turn),
    (s.sched = Turn.tick :: tl → step s = exec .tick { s with sched := tl })
      ∧ (∀ b, s.sched = Turn.animPlaying b :: tl →
          step s = .next { s with animPlaying := b, sched := tl })
      ∧ (∀ b, s.sched = Turn.idleInhibit b :: tl →
          step s = .next { s with idleInhibit := b, sched := tl })
      ∧ (∀ b, s.sched = Turn.offer b :: tl →
          step s = .next { s with stream := s.stream ++ [b], sched := tl })
      ∧ (s.sched = Turn.collect :: tl → step s = .next { s with resp := s.resp.drop 1, sched := tl })

/-- The reset event loads every register, both buffers and the port with the values of the reset table, and empties the response stream (70_reset_and_hazards.md section 1, 10_state.md section 8).
That the inputs, the bytes not yet taken and the output records stay is the model's choice (log 14). -/
def Obligations.ResetLoadsEveryRegister : Prop :=
  ∀ (s : State) (tl : List Turn), s.cfg.Valid → s.sched = Turn.reset :: tl →
    ∃ u, step s = .next u
      ∧ u = { s with
          ht := s.cfg.resetHt
          brCfg := s.cfg.resetBright
          brReq := s.cfg.resetBright
          brCnt := 0
          idleTrig := 255
          idleCnt := 0
          row := 0
          half := false
          plane := 2
          holdRem := s.cfg.resetHt.c
          swapPend := false
          brPend := false
          frameChg := false
          outEn := true
          front := false
          fadeEn := false
          fade := .none
          endAct := .noAction
          fb := u.fb
          port := .idle
          resp := []
          sched := tl }
      ∧ (∀ a < s.cfg.bufLen, s.cfg.powerOnImage[a]? = some (memRead u a))
      ∧ ∀ a x, s.cfg.resetBack[a]? = some x → memRead u (s.cfg.bufLen + a) = x

/-- After reset of any legal configuration the first TICK puts out row `ROW_ORDER[0]`, side 0, plane 2 of the power-on image at the reset brightness (70_reset_and_hazards.md section 1). -/
def Obligations.FirstTickAfterResetShowsPowerOnImage : Prop :=
  ∀ (c : Config) (pr : Nat), c.Valid → c.rowOrder[0]? = some pr →
    ∃ u data, exec .tick (State.resetOf c) = .next u
      ∧ u.segs = [{ row := pr, side := false, data := data, level := c.resetBright }]
      ∧ data.length = c.w / 16
      ∧ ∀ j < c.w / 16,
          data[j]? = c.powerOnImage[2 * (c.w / 8 * c.h) + pr * (c.w / 8) + j]?
end

