-- ==== Sys2Proof/Laws/State.lean ====
section
/-! SUPPORT. One lemma per field for every named update of the state, so that no later proof unfolds a record update. -/

namespace Sys2Proof.Machine

open Sys2Proof


/-! ## memWrite -/

@[simp] theorem memWrite_cfg (s : State) (a : Nat) (x : Byte) : (memWrite s a x).cfg = s.cfg := rfl
@[simp] theorem memWrite_ht (s : State) (a : Nat) (x : Byte) : (memWrite s a x).ht = s.ht := rfl
@[simp] theorem memWrite_brCfg (s : State) (a : Nat) (x : Byte) : (memWrite s a x).brCfg = s.brCfg := rfl
@[simp] theorem memWrite_brReq (s : State) (a : Nat) (x : Byte) : (memWrite s a x).brReq = s.brReq := rfl
@[simp] theorem memWrite_brCnt (s : State) (a : Nat) (x : Byte) : (memWrite s a x).brCnt = s.brCnt := rfl
@[simp] theorem memWrite_idleTrig (s : State) (a : Nat) (x : Byte) : (memWrite s a x).idleTrig = s.idleTrig := rfl
@[simp] theorem memWrite_idleCnt (s : State) (a : Nat) (x : Byte) : (memWrite s a x).idleCnt = s.idleCnt := rfl
@[simp] theorem memWrite_row (s : State) (a : Nat) (x : Byte) : (memWrite s a x).row = s.row := rfl
@[simp] theorem memWrite_half (s : State) (a : Nat) (x : Byte) : (memWrite s a x).half = s.half := rfl
@[simp] theorem memWrite_plane (s : State) (a : Nat) (x : Byte) : (memWrite s a x).plane = s.plane := rfl
@[simp] theorem memWrite_holdRem (s : State) (a : Nat) (x : Byte) : (memWrite s a x).holdRem = s.holdRem := rfl
@[simp] theorem memWrite_swapPend (s : State) (a : Nat) (x : Byte) : (memWrite s a x).swapPend = s.swapPend := rfl
@[simp] theorem memWrite_brPend (s : State) (a : Nat) (x : Byte) : (memWrite s a x).brPend = s.brPend := rfl
@[simp] theorem memWrite_frameChg (s : State) (a : Nat) (x : Byte) : (memWrite s a x).frameChg = s.frameChg := rfl
@[simp] theorem memWrite_outEn (s : State) (a : Nat) (x : Byte) : (memWrite s a x).outEn = s.outEn := rfl
@[simp] theorem memWrite_front (s : State) (a : Nat) (x : Byte) : (memWrite s a x).front = s.front := rfl
@[simp] theorem memWrite_fadeEn (s : State) (a : Nat) (x : Byte) : (memWrite s a x).fadeEn = s.fadeEn := rfl
@[simp] theorem memWrite_fade (s : State) (a : Nat) (x : Byte) : (memWrite s a x).fade = s.fade := rfl
@[simp] theorem memWrite_endAct (s : State) (a : Nat) (x : Byte) : (memWrite s a x).endAct = s.endAct := rfl
@[simp] theorem memWrite_fb (s : State) (a : Nat) (x : Byte) : (memWrite s a x).fb = Mem.store (resetByte s.cfg) s.fb a x := rfl
@[simp] theorem memWrite_animPlaying (s : State) (a : Nat) (x : Byte) : (memWrite s a x).animPlaying = s.animPlaying := rfl
@[simp] theorem memWrite_idleInhibit (s : State) (a : Nat) (x : Byte) : (memWrite s a x).idleInhibit = s.idleInhibit := rfl
@[simp] theorem memWrite_port (s : State) (a : Nat) (x : Byte) : (memWrite s a x).port = s.port := rfl
@[simp] theorem memWrite_stream (s : State) (a : Nat) (x : Byte) : (memWrite s a x).stream = s.stream := rfl
@[simp] theorem memWrite_resp (s : State) (a : Nat) (x : Byte) : (memWrite s a x).resp = s.resp := rfl
@[simp] theorem memWrite_segs (s : State) (a : Nat) (x : Byte) : (memWrite s a x).segs = s.segs := rfl
@[simp] theorem memWrite_animEvents (s : State) (a : Nat) (x : Byte) : (memWrite s a x).animEvents = s.animEvents := rfl
@[simp] theorem memWrite_errs (s : State) (a : Nat) (x : Byte) : (memWrite s a x).errs = s.errs := rfl
@[simp] theorem memWrite_sched (s : State) (a : Nat) (x : Byte) : (memWrite s a x).sched = s.sched := rfl

/-! ## emit -/

@[simp] theorem emit_cfg (bs : List Byte) (s : State) : (emit bs s).cfg = s.cfg := rfl
@[simp] theorem emit_ht (bs : List Byte) (s : State) : (emit bs s).ht = s.ht := rfl
@[simp] theorem emit_brCfg (bs : List Byte) (s : State) : (emit bs s).brCfg = s.brCfg := rfl
@[simp] theorem emit_brReq (bs : List Byte) (s : State) : (emit bs s).brReq = s.brReq := rfl
@[simp] theorem emit_brCnt (bs : List Byte) (s : State) : (emit bs s).brCnt = s.brCnt := rfl
@[simp] theorem emit_idleTrig (bs : List Byte) (s : State) : (emit bs s).idleTrig = s.idleTrig := rfl
@[simp] theorem emit_idleCnt (bs : List Byte) (s : State) : (emit bs s).idleCnt = s.idleCnt := rfl
@[simp] theorem emit_row (bs : List Byte) (s : State) : (emit bs s).row = s.row := rfl
@[simp] theorem emit_half (bs : List Byte) (s : State) : (emit bs s).half = s.half := rfl
@[simp] theorem emit_plane (bs : List Byte) (s : State) : (emit bs s).plane = s.plane := rfl
@[simp] theorem emit_holdRem (bs : List Byte) (s : State) : (emit bs s).holdRem = s.holdRem := rfl
@[simp] theorem emit_swapPend (bs : List Byte) (s : State) : (emit bs s).swapPend = s.swapPend := rfl
@[simp] theorem emit_brPend (bs : List Byte) (s : State) : (emit bs s).brPend = s.brPend := rfl
@[simp] theorem emit_frameChg (bs : List Byte) (s : State) : (emit bs s).frameChg = s.frameChg := rfl
@[simp] theorem emit_outEn (bs : List Byte) (s : State) : (emit bs s).outEn = s.outEn := rfl
@[simp] theorem emit_front (bs : List Byte) (s : State) : (emit bs s).front = s.front := rfl
@[simp] theorem emit_fadeEn (bs : List Byte) (s : State) : (emit bs s).fadeEn = s.fadeEn := rfl
@[simp] theorem emit_fade (bs : List Byte) (s : State) : (emit bs s).fade = s.fade := rfl
@[simp] theorem emit_endAct (bs : List Byte) (s : State) : (emit bs s).endAct = s.endAct := rfl
@[simp] theorem emit_fb (bs : List Byte) (s : State) : (emit bs s).fb = s.fb := rfl
@[simp] theorem emit_animPlaying (bs : List Byte) (s : State) : (emit bs s).animPlaying = s.animPlaying := rfl
@[simp] theorem emit_idleInhibit (bs : List Byte) (s : State) : (emit bs s).idleInhibit = s.idleInhibit := rfl
@[simp] theorem emit_port (bs : List Byte) (s : State) : (emit bs s).port = s.port := rfl
@[simp] theorem emit_stream (bs : List Byte) (s : State) : (emit bs s).stream = s.stream := rfl
@[simp] theorem emit_resp (bs : List Byte) (s : State) : (emit bs s).resp = s.resp ++ bs := rfl
@[simp] theorem emit_segs (bs : List Byte) (s : State) : (emit bs s).segs = s.segs := rfl
@[simp] theorem emit_animEvents (bs : List Byte) (s : State) : (emit bs s).animEvents = s.animEvents := rfl
@[simp] theorem emit_errs (bs : List Byte) (s : State) : (emit bs s).errs = s.errs := rfl
@[simp] theorem emit_sched (bs : List Byte) (s : State) : (emit bs s).sched = s.sched := rfl

/-! ## raiseBadCommand -/

@[simp] theorem raiseBadCommand_cfg (hdr : Byte) (s : State) : (raiseBadCommand hdr s).cfg = s.cfg := rfl
@[simp] theorem raiseBadCommand_ht (hdr : Byte) (s : State) : (raiseBadCommand hdr s).ht = s.ht := rfl
@[simp] theorem raiseBadCommand_brCfg (hdr : Byte) (s : State) : (raiseBadCommand hdr s).brCfg = s.brCfg := rfl
@[simp] theorem raiseBadCommand_brReq (hdr : Byte) (s : State) : (raiseBadCommand hdr s).brReq = s.brReq := rfl
@[simp] theorem raiseBadCommand_brCnt (hdr : Byte) (s : State) : (raiseBadCommand hdr s).brCnt = s.brCnt := rfl
@[simp] theorem raiseBadCommand_idleTrig (hdr : Byte) (s : State) : (raiseBadCommand hdr s).idleTrig = s.idleTrig := rfl
@[simp] theorem raiseBadCommand_idleCnt (hdr : Byte) (s : State) : (raiseBadCommand hdr s).idleCnt = s.idleCnt := rfl
@[simp] theorem raiseBadCommand_row (hdr : Byte) (s : State) : (raiseBadCommand hdr s).row = s.row := rfl
@[simp] theorem raiseBadCommand_half (hdr : Byte) (s : State) : (raiseBadCommand hdr s).half = s.half := rfl
@[simp] theorem raiseBadCommand_plane (hdr : Byte) (s : State) : (raiseBadCommand hdr s).plane = s.plane := rfl
@[simp] theorem raiseBadCommand_holdRem (hdr : Byte) (s : State) : (raiseBadCommand hdr s).holdRem = s.holdRem := rfl
@[simp] theorem raiseBadCommand_swapPend (hdr : Byte) (s : State) : (raiseBadCommand hdr s).swapPend = s.swapPend := rfl
@[simp] theorem raiseBadCommand_brPend (hdr : Byte) (s : State) : (raiseBadCommand hdr s).brPend = s.brPend := rfl
@[simp] theorem raiseBadCommand_frameChg (hdr : Byte) (s : State) : (raiseBadCommand hdr s).frameChg = s.frameChg := rfl
@[simp] theorem raiseBadCommand_outEn (hdr : Byte) (s : State) : (raiseBadCommand hdr s).outEn = s.outEn := rfl
@[simp] theorem raiseBadCommand_front (hdr : Byte) (s : State) : (raiseBadCommand hdr s).front = s.front := rfl
@[simp] theorem raiseBadCommand_fadeEn (hdr : Byte) (s : State) : (raiseBadCommand hdr s).fadeEn = s.fadeEn := rfl
@[simp] theorem raiseBadCommand_fade (hdr : Byte) (s : State) : (raiseBadCommand hdr s).fade = s.fade := rfl
@[simp] theorem raiseBadCommand_endAct (hdr : Byte) (s : State) : (raiseBadCommand hdr s).endAct = s.endAct := rfl
@[simp] theorem raiseBadCommand_fb (hdr : Byte) (s : State) : (raiseBadCommand hdr s).fb = s.fb := rfl
@[simp] theorem raiseBadCommand_animPlaying (hdr : Byte) (s : State) : (raiseBadCommand hdr s).animPlaying = s.animPlaying := rfl
@[simp] theorem raiseBadCommand_idleInhibit (hdr : Byte) (s : State) : (raiseBadCommand hdr s).idleInhibit = s.idleInhibit := rfl
@[simp] theorem raiseBadCommand_port (hdr : Byte) (s : State) : (raiseBadCommand hdr s).port = PortState.idle := rfl
@[simp] theorem raiseBadCommand_stream (hdr : Byte) (s : State) : (raiseBadCommand hdr s).stream = s.stream := rfl
@[simp] theorem raiseBadCommand_resp (hdr : Byte) (s : State) : (raiseBadCommand hdr s).resp = s.resp := rfl
@[simp] theorem raiseBadCommand_segs (hdr : Byte) (s : State) : (raiseBadCommand hdr s).segs = s.segs := rfl
@[simp] theorem raiseBadCommand_animEvents (hdr : Byte) (s : State) : (raiseBadCommand hdr s).animEvents = s.animEvents := rfl
@[simp] theorem raiseBadCommand_errs (hdr : Byte) (s : State) : (raiseBadCommand hdr s).errs = s.errs ++ [hdr] := rfl
@[simp] theorem raiseBadCommand_sched (hdr : Byte) (s : State) : (raiseBadCommand hdr s).sched = s.sched := rfl

/-! ## emitSegment -/

@[simp] theorem emitSegment_cfg (s : State) : (emitSegment s).cfg = s.cfg := rfl
@[simp] theorem emitSegment_ht (s : State) : (emitSegment s).ht = s.ht := rfl
@[simp] theorem emitSegment_brCfg (s : State) : (emitSegment s).brCfg = s.brCfg := rfl
@[simp] theorem emitSegment_brReq (s : State) : (emitSegment s).brReq = s.brReq := rfl
@[simp] theorem emitSegment_brCnt (s : State) : (emitSegment s).brCnt = s.brCnt := rfl
@[simp] theorem emitSegment_idleTrig (s : State) : (emitSegment s).idleTrig = s.idleTrig := rfl
@[simp] theorem emitSegment_idleCnt (s : State) : (emitSegment s).idleCnt = s.idleCnt := rfl
@[simp] theorem emitSegment_row (s : State) : (emitSegment s).row = s.row := rfl
@[simp] theorem emitSegment_half (s : State) : (emitSegment s).half = s.half := rfl
@[simp] theorem emitSegment_plane (s : State) : (emitSegment s).plane = s.plane := rfl
@[simp] theorem emitSegment_holdRem (s : State) : (emitSegment s).holdRem = s.holdRem := rfl
@[simp] theorem emitSegment_swapPend (s : State) : (emitSegment s).swapPend = s.swapPend := rfl
@[simp] theorem emitSegment_brPend (s : State) : (emitSegment s).brPend = s.brPend := rfl
@[simp] theorem emitSegment_frameChg (s : State) : (emitSegment s).frameChg = s.frameChg := rfl
@[simp] theorem emitSegment_outEn (s : State) : (emitSegment s).outEn = s.outEn := rfl
@[simp] theorem emitSegment_front (s : State) : (emitSegment s).front = s.front := rfl
@[simp] theorem emitSegment_fadeEn (s : State) : (emitSegment s).fadeEn = s.fadeEn := rfl
@[simp] theorem emitSegment_fade (s : State) : (emitSegment s).fade = s.fade := rfl
@[simp] theorem emitSegment_endAct (s : State) : (emitSegment s).endAct = s.endAct := rfl
@[simp] theorem emitSegment_fb (s : State) : (emitSegment s).fb = s.fb := rfl
@[simp] theorem emitSegment_animPlaying (s : State) : (emitSegment s).animPlaying = s.animPlaying := rfl
@[simp] theorem emitSegment_idleInhibit (s : State) : (emitSegment s).idleInhibit = s.idleInhibit := rfl
@[simp] theorem emitSegment_port (s : State) : (emitSegment s).port = s.port := rfl
@[simp] theorem emitSegment_stream (s : State) : (emitSegment s).stream = s.stream := rfl
@[simp] theorem emitSegment_resp (s : State) : (emitSegment s).resp = s.resp := rfl
@[simp] theorem emitSegment_segs (s : State) : (emitSegment s).segs = s.segs ++ [segmentOf s] := rfl
@[simp] theorem emitSegment_animEvents (s : State) : (emitSegment s).animEvents = s.animEvents := rfl
@[simp] theorem emitSegment_errs (s : State) : (emitSegment s).errs = s.errs := rfl
@[simp] theorem emitSegment_sched (s : State) : (emitSegment s).sched = s.sched := rfl

/-! ## enterPlane -/

@[simp] theorem enterPlane_cfg (p : Fin 3) (s : State) : (enterPlane p s).cfg = s.cfg := rfl
@[simp] theorem enterPlane_ht (p : Fin 3) (s : State) : (enterPlane p s).ht = s.ht := rfl
@[simp] theorem enterPlane_brCfg (p : Fin 3) (s : State) : (enterPlane p s).brCfg = s.brCfg := rfl
@[simp] theorem enterPlane_brReq (p : Fin 3) (s : State) : (enterPlane p s).brReq = s.brReq := rfl
@[simp] theorem enterPlane_brCnt (p : Fin 3) (s : State) : (enterPlane p s).brCnt = s.brCnt := rfl
@[simp] theorem enterPlane_idleTrig (p : Fin 3) (s : State) : (enterPlane p s).idleTrig = s.idleTrig := rfl
@[simp] theorem enterPlane_idleCnt (p : Fin 3) (s : State) : (enterPlane p s).idleCnt = s.idleCnt := rfl
@[simp] theorem enterPlane_row (p : Fin 3) (s : State) : (enterPlane p s).row = s.row := rfl
@[simp] theorem enterPlane_half (p : Fin 3) (s : State) : (enterPlane p s).half = s.half := rfl
@[simp] theorem enterPlane_plane (p : Fin 3) (s : State) : (enterPlane p s).plane = p := rfl
@[simp] theorem enterPlane_holdRem (p : Fin 3) (s : State) : (enterPlane p s).holdRem = holdAt s.ht p := rfl
@[simp] theorem enterPlane_swapPend (p : Fin 3) (s : State) : (enterPlane p s).swapPend = s.swapPend := rfl
@[simp] theorem enterPlane_brPend (p : Fin 3) (s : State) : (enterPlane p s).brPend = s.brPend := rfl
@[simp] theorem enterPlane_frameChg (p : Fin 3) (s : State) : (enterPlane p s).frameChg = s.frameChg := rfl
@[simp] theorem enterPlane_outEn (p : Fin 3) (s : State) : (enterPlane p s).outEn = s.outEn := rfl
@[simp] theorem enterPlane_front (p : Fin 3) (s : State) : (enterPlane p s).front = s.front := rfl
@[simp] theorem enterPlane_fadeEn (p : Fin 3) (s : State) : (enterPlane p s).fadeEn = s.fadeEn := rfl
@[simp] theorem enterPlane_fade (p : Fin 3) (s : State) : (enterPlane p s).fade = s.fade := rfl
@[simp] theorem enterPlane_endAct (p : Fin 3) (s : State) : (enterPlane p s).endAct = s.endAct := rfl
@[simp] theorem enterPlane_fb (p : Fin 3) (s : State) : (enterPlane p s).fb = s.fb := rfl
@[simp] theorem enterPlane_animPlaying (p : Fin 3) (s : State) : (enterPlane p s).animPlaying = s.animPlaying := rfl
@[simp] theorem enterPlane_idleInhibit (p : Fin 3) (s : State) : (enterPlane p s).idleInhibit = s.idleInhibit := rfl
@[simp] theorem enterPlane_port (p : Fin 3) (s : State) : (enterPlane p s).port = s.port := rfl
@[simp] theorem enterPlane_stream (p : Fin 3) (s : State) : (enterPlane p s).stream = s.stream := rfl
@[simp] theorem enterPlane_resp (p : Fin 3) (s : State) : (enterPlane p s).resp = s.resp := rfl
@[simp] theorem enterPlane_segs (p : Fin 3) (s : State) : (enterPlane p s).segs = s.segs := rfl
@[simp] theorem enterPlane_animEvents (p : Fin 3) (s : State) : (enterPlane p s).animEvents = s.animEvents := rfl
@[simp] theorem enterPlane_errs (p : Fin 3) (s : State) : (enterPlane p s).errs = s.errs := rfl
@[simp] theorem enterPlane_sched (p : Fin 3) (s : State) : (enterPlane p s).sched = s.sched := rfl

/-! ## beginOp -/

@[simp] theorem beginOp_cfg (s : State) : (beginOp s).cfg = s.cfg := rfl
@[simp] theorem beginOp_ht (s : State) : (beginOp s).ht = s.ht := rfl
@[simp] theorem beginOp_brCfg (s : State) : (beginOp s).brCfg = s.brCfg := rfl
@[simp] theorem beginOp_brReq (s : State) : (beginOp s).brReq = s.brReq := rfl
@[simp] theorem beginOp_brCnt (s : State) : (beginOp s).brCnt = s.brCnt := rfl
@[simp] theorem beginOp_idleTrig (s : State) : (beginOp s).idleTrig = s.idleTrig := rfl
@[simp] theorem beginOp_idleCnt (s : State) : (beginOp s).idleCnt = s.idleCnt := rfl
@[simp] theorem beginOp_row (s : State) : (beginOp s).row = s.row := rfl
@[simp] theorem beginOp_half (s : State) : (beginOp s).half = s.half := rfl
@[simp] theorem beginOp_plane (s : State) : (beginOp s).plane = s.plane := rfl
@[simp] theorem beginOp_holdRem (s : State) : (beginOp s).holdRem = s.holdRem := rfl
@[simp] theorem beginOp_swapPend (s : State) : (beginOp s).swapPend = s.swapPend := rfl
@[simp] theorem beginOp_brPend (s : State) : (beginOp s).brPend = s.brPend := rfl
@[simp] theorem beginOp_frameChg (s : State) : (beginOp s).frameChg = s.frameChg := rfl
@[simp] theorem beginOp_outEn (s : State) : (beginOp s).outEn = s.outEn := rfl
@[simp] theorem beginOp_front (s : State) : (beginOp s).front = s.front := rfl
@[simp] theorem beginOp_fadeEn (s : State) : (beginOp s).fadeEn = s.fadeEn := rfl
@[simp] theorem beginOp_fade (s : State) : (beginOp s).fade = s.fade := rfl
@[simp] theorem beginOp_endAct (s : State) : (beginOp s).endAct = s.endAct := rfl
@[simp] theorem beginOp_fb (s : State) : (beginOp s).fb = s.fb := rfl
@[simp] theorem beginOp_animPlaying (s : State) : (beginOp s).animPlaying = s.animPlaying := rfl
@[simp] theorem beginOp_idleInhibit (s : State) : (beginOp s).idleInhibit = s.idleInhibit := rfl
@[simp] theorem beginOp_port (s : State) : (beginOp s).port = PortState.running := rfl
@[simp] theorem beginOp_stream (s : State) : (beginOp s).stream = s.stream := rfl
@[simp] theorem beginOp_resp (s : State) : (beginOp s).resp = s.resp := rfl
@[simp] theorem beginOp_segs (s : State) : (beginOp s).segs = s.segs := rfl
@[simp] theorem beginOp_animEvents (s : State) : (beginOp s).animEvents = s.animEvents := rfl
@[simp] theorem beginOp_errs (s : State) : (beginOp s).errs = s.errs := rfl
@[simp] theorem beginOp_sched (s : State) : (beginOp s).sched = s.sched := rfl

/-! ## finishOp -/

@[simp] theorem finishOp_cfg (s : State) : (finishOp s).cfg = s.cfg := by unfold finishOp; split <;> rfl
@[simp] theorem finishOp_ht (s : State) : (finishOp s).ht = s.ht := by unfold finishOp; split <;> rfl
@[simp] theorem finishOp_brCfg (s : State) : (finishOp s).brCfg = s.brCfg := by unfold finishOp; split <;> rfl
@[simp] theorem finishOp_brReq (s : State) : (finishOp s).brReq = s.brReq := by unfold finishOp; split <;> rfl
@[simp] theorem finishOp_brCnt (s : State) : (finishOp s).brCnt = s.brCnt := by unfold finishOp; split <;> rfl
@[simp] theorem finishOp_idleTrig (s : State) : (finishOp s).idleTrig = s.idleTrig := by unfold finishOp; split <;> rfl
@[simp] theorem finishOp_idleCnt (s : State) : (finishOp s).idleCnt = s.idleCnt := by unfold finishOp; split <;> rfl
@[simp] theorem finishOp_row (s : State) : (finishOp s).row = s.row := by unfold finishOp; split <;> rfl
@[simp] theorem finishOp_half (s : State) : (finishOp s).half = s.half := by unfold finishOp; split <;> rfl
@[simp] theorem finishOp_plane (s : State) : (finishOp s).plane = s.plane := by unfold finishOp; split <;> rfl
@[simp] theorem finishOp_holdRem (s : State) : (finishOp s).holdRem = s.holdRem := by unfold finishOp; split <;> rfl
@[simp] theorem finishOp_swapPend (s : State) : (finishOp s).swapPend = s.swapPend := by unfold finishOp; split <;> rfl
@[simp] theorem finishOp_brPend (s : State) : (finishOp s).brPend = s.brPend := by unfold finishOp; split <;> rfl
@[simp] theorem finishOp_frameChg (s : State) : (finishOp s).frameChg = s.frameChg := by unfold finishOp; split <;> rfl
@[simp] theorem finishOp_outEn (s : State) : (finishOp s).outEn = s.outEn := by unfold finishOp; split <;> rfl
@[simp] theorem finishOp_front (s : State) : (finishOp s).front = s.front := by unfold finishOp; split <;> rfl
@[simp] theorem finishOp_fadeEn (s : State) : (finishOp s).fadeEn = s.fadeEn := by unfold finishOp; split <;> rfl
@[simp] theorem finishOp_fade (s : State) : (finishOp s).fade = s.fade := by unfold finishOp; split <;> rfl
@[simp] theorem finishOp_endAct (s : State) : (finishOp s).endAct = s.endAct := by unfold finishOp; split <;> rfl
@[simp] theorem finishOp_fb (s : State) : (finishOp s).fb = s.fb := by unfold finishOp; split <;> rfl
@[simp] theorem finishOp_animPlaying (s : State) : (finishOp s).animPlaying = s.animPlaying := by unfold finishOp; split <;> rfl
@[simp] theorem finishOp_idleInhibit (s : State) : (finishOp s).idleInhibit = s.idleInhibit := by unfold finishOp; split <;> rfl
@[simp] theorem finishOp_stream (s : State) : (finishOp s).stream = s.stream := by unfold finishOp; split <;> rfl
@[simp] theorem finishOp_resp (s : State) : (finishOp s).resp = s.resp := by unfold finishOp; split <;> rfl
@[simp] theorem finishOp_segs (s : State) : (finishOp s).segs = s.segs := by unfold finishOp; split <;> rfl
@[simp] theorem finishOp_animEvents (s : State) : (finishOp s).animEvents = s.animEvents := by unfold finishOp; split <;> rfl
@[simp] theorem finishOp_errs (s : State) : (finishOp s).errs = s.errs := by unfold finishOp; split <;> rfl
@[simp] theorem finishOp_sched (s : State) : (finishOp s).sched = s.sched := by unfold finishOp; split <;> rfl

/-! ## busEmit -/

@[simp] theorem busEmit_cfg (bs : List Byte) (s : State) : (busEmit bs s).cfg = s.cfg := by unfold busEmit; split <;> rfl
@[simp] theorem busEmit_ht (bs : List Byte) (s : State) : (busEmit bs s).ht = s.ht := by unfold busEmit; split <;> rfl
@[simp] theorem busEmit_brCfg (bs : List Byte) (s : State) : (busEmit bs s).brCfg = s.brCfg := by unfold busEmit; split <;> rfl
@[simp] theorem busEmit_brReq (bs : List Byte) (s : State) : (busEmit bs s).brReq = s.brReq := by unfold busEmit; split <;> rfl
@[simp] theorem busEmit_brCnt (bs : List Byte) (s : State) : (busEmit bs s).brCnt = s.brCnt := by unfold busEmit; split <;> rfl
@[simp] theorem busEmit_idleTrig (bs : List Byte) (s : State) : (busEmit bs s).idleTrig = s.idleTrig := by unfold busEmit; split <;> rfl
@[simp] theorem busEmit_idleCnt (bs : List Byte) (s : State) : (busEmit bs s).idleCnt = s.idleCnt := by unfold busEmit; split <;> rfl
@[simp] theorem busEmit_row (bs : List Byte) (s : State) : (busEmit bs s).row = s.row := by unfold busEmit; split <;> rfl
@[simp] theorem busEmit_half (bs : List Byte) (s : State) : (busEmit bs s).half = s.half := by unfold busEmit; split <;> rfl
@[simp] theorem busEmit_plane (bs : List Byte) (s : State) : (busEmit bs s).plane = s.plane := by unfold busEmit; split <;> rfl
@[simp] theorem busEmit_holdRem (bs : List Byte) (s : State) : (busEmit bs s).holdRem = s.holdRem := by unfold busEmit; split <;> rfl
@[simp] theorem busEmit_swapPend (bs : List Byte) (s : State) : (busEmit bs s).swapPend = s.swapPend := by unfold busEmit; split <;> rfl
@[simp] theorem busEmit_brPend (bs : List Byte) (s : State) : (busEmit bs s).brPend = s.brPend := by unfold busEmit; split <;> rfl
@[simp] theorem busEmit_frameChg (bs : List Byte) (s : State) : (busEmit bs s).frameChg = s.frameChg := by unfold busEmit; split <;> rfl
@[simp] theorem busEmit_outEn (bs : List Byte) (s : State) : (busEmit bs s).outEn = s.outEn := by unfold busEmit; split <;> rfl
@[simp] theorem busEmit_front (bs : List Byte) (s : State) : (busEmit bs s).front = s.front := by unfold busEmit; split <;> rfl
@[simp] theorem busEmit_fadeEn (bs : List Byte) (s : State) : (busEmit bs s).fadeEn = s.fadeEn := by unfold busEmit; split <;> rfl
@[simp] theorem busEmit_fade (bs : List Byte) (s : State) : (busEmit bs s).fade = s.fade := by unfold busEmit; split <;> rfl
@[simp] theorem busEmit_endAct (bs : List Byte) (s : State) : (busEmit bs s).endAct = s.endAct := by unfold busEmit; split <;> rfl
@[simp] theorem busEmit_fb (bs : List Byte) (s : State) : (busEmit bs s).fb = s.fb := by unfold busEmit; split <;> rfl
@[simp] theorem busEmit_animPlaying (bs : List Byte) (s : State) : (busEmit bs s).animPlaying = s.animPlaying := by unfold busEmit; split <;> rfl
@[simp] theorem busEmit_idleInhibit (bs : List Byte) (s : State) : (busEmit bs s).idleInhibit = s.idleInhibit := by unfold busEmit; split <;> rfl
@[simp] theorem busEmit_port (bs : List Byte) (s : State) : (busEmit bs s).port = s.port := by unfold busEmit; split <;> rfl
@[simp] theorem busEmit_stream (bs : List Byte) (s : State) : (busEmit bs s).stream = s.stream := by unfold busEmit; split <;> rfl
@[simp] theorem busEmit_segs (bs : List Byte) (s : State) : (busEmit bs s).segs = s.segs := by unfold busEmit; split <;> rfl
@[simp] theorem busEmit_animEvents (bs : List Byte) (s : State) : (busEmit bs s).animEvents = s.animEvents := by unfold busEmit; split <;> rfl
@[simp] theorem busEmit_errs (bs : List Byte) (s : State) : (busEmit bs s).errs = s.errs := by unfold busEmit; split <;> rfl
@[simp] theorem busEmit_sched (bs : List Byte) (s : State) : (busEmit bs s).sched = s.sched := by unfold busEmit; split <;> rfl

/-! ## The port inside an operation -/

@[simp] theorem isRunning_beginOp (s : State) : isRunning (beginOp s) = true := rfl

@[simp] theorem isRunning_memWrite (s : State) (a : Nat) (x : Byte) :
    isRunning (memWrite s a x) = isRunning s := rfl

@[simp] theorem isRunning_emit (bs : List Byte) (s : State) :
    isRunning (emit bs s) = isRunning s := rfl

@[simp] theorem isRunning_busEmit (bs : List Byte) (s : State) :
    isRunning (busEmit bs s) = isRunning s := by unfold busEmit; split <;> rfl

theorem isRunning_iff (s : State) : isRunning s = true ↔ s.port = .running := by
  simp [isRunning]

theorem finishOp_of_running {s : State} (h : isRunning s = true) :
    finishOp s = { s with port := .idle } := by simp [finishOp, h]

theorem finishOp_of_not_running {s : State} (h : isRunning s = false) : finishOp s = s := by
  simp [finishOp, h]

theorem busEmit_of_running {s : State} (bs : List Byte) (h : isRunning s = true) :
    busEmit bs s = emit bs s := by simp [busEmit, h]

theorem busEmit_of_not_running {s : State} (bs : List Byte) (h : isRunning s = false) :
    busEmit bs s = s := by simp [busEmit, h]

end Sys2Proof.Machine
end

