-- ==== Sys2Proof/Laws/Memory.lean ====
section
/-! SUPPORT. The laws of the frame-buffer memory: what a read after a write gives, and that every write keeps the canonical form. -/

namespace Sys2Proof.Machine

open Sys2Proof

/-- Addresses strictly rising. -/
abbrev Mem.sorted (m : List Host.Cell) : Prop := m.Pairwise (fun x y => x.1 < y.1)

theorem Mem.find_of_lt {dflt : Nat → Byte} {m : List Host.Cell} {a : Nat}
    (h : ∀ x ∈ m, a < x.1) : Mem.find dflt m a = dflt a := by
  induction m with
  | nil => rfl
  | cons c m ih =>
    obtain ⟨b, v⟩ := c
    have hb : a < b := h (b, v) (by simp)
    simp only [Mem.find, if_neg (Nat.ne_of_lt hb)]
    exact ih fun x hx => h x (by simp [hx])

theorem Mem.mem_erase {a : Nat} {m : List Host.Cell} {x : Host.Cell}
    (h : x ∈ Mem.erase a m) : x ∈ m := by
  induction m with
  | nil => exact h
  | cons c m ih =>
    obtain ⟨b, v⟩ := c
    simp only [Mem.erase] at h
    split at h
    · simp [h]
    · rcases List.mem_cons.1 h with rfl | h
      · simp
      · simp [ih h]

theorem Mem.mem_insert {a : Nat} {y : Byte} {m : List Host.Cell} {x : Host.Cell}
    (h : x ∈ Mem.insert a y m) : x = (a, y) ∨ x ∈ m := by
  induction m with
  | nil => simpa [Mem.insert] using h
  | cons c m ih =>
    obtain ⟨b, v⟩ := c
    simp only [Mem.insert] at h
    split at h
    · simpa using h
    · split at h
      · rcases List.mem_cons.1 h with h | h <;> simp [h]
      · rcases List.mem_cons.1 h with h | h
        · simp [h]
        · rcases ih h with h | h <;> simp [h]

theorem Mem.sorted_erase {a : Nat} {m : List Host.Cell} (h : Mem.sorted m) :
    Mem.sorted (Mem.erase a m) := by
  induction m with
  | nil => exact h
  | cons c m ih =>
    obtain ⟨b, v⟩ := c
    rw [Mem.sorted, List.pairwise_cons] at h
    simp only [Mem.erase]
    split
    · exact h.2
    · exact List.pairwise_cons.2 ⟨fun x hx => h.1 x (Mem.mem_erase hx), ih h.2⟩

theorem Mem.sorted_insert {a : Nat} {y : Byte} {m : List Host.Cell} (h : Mem.sorted m) :
    Mem.sorted (Mem.insert a y m) := by
  induction m with
  | nil => simp [Mem.insert, Mem.sorted]
  | cons c m ih =>
    obtain ⟨b, v⟩ := c
    have h' := h
    rw [Mem.sorted, List.pairwise_cons] at h'
    simp only [Mem.insert]
    split
    · rename_i hab
      refine List.pairwise_cons.2 ⟨fun x hx => ?_, h⟩
      rcases List.mem_cons.1 hx with rfl | hx
      · exact hab
      · exact lt_trans hab (h'.1 x hx)
    · split
      · rename_i hab
        exact List.pairwise_cons.2 ⟨fun x hx => hab ▸ h'.1 x hx, h'.2⟩
      · rename_i h1 h2
        refine List.pairwise_cons.2 ⟨fun x hx => ?_, ih h'.2⟩
        rcases Mem.mem_insert hx with rfl | hx
        · show b < a
          omega
        · exact h'.1 x hx

theorem Mem.find_erase {dflt : Nat → Byte} {a b : Nat} {m : List Host.Cell} (h : Mem.sorted m) :
    Mem.find dflt (Mem.erase a m) b = if b = a then dflt a else Mem.find dflt m b := by
  induction m with
  | nil =>
    simp only [Mem.erase, Mem.find]
    split
    · rename_i h; rw [h]
    · rfl
  | cons c m ih =>
    obtain ⟨d, v⟩ := c
    rw [Mem.sorted, List.pairwise_cons] at h
    simp only [Mem.erase]
    by_cases had : a = d
    · subst had
      simp only [if_true]
      by_cases hba : b = a
      · subst hba
        simp only [if_true]
        exact Mem.find_of_lt h.1
      · simp [Mem.find, hba]
    · simp only [if_neg had, Mem.find, ih h.2]
      by_cases hbd : b = d
      · subst hbd
        have : b ≠ a := fun h => had h.symm
        simp [this]
      · simp [hbd]

theorem Mem.find_insert {dflt : Nat → Byte} {a b : Nat} {y : Byte} {m : List Host.Cell} :
    Mem.find dflt (Mem.insert a y m) b = if b = a then y else Mem.find dflt m b := by
  induction m with
  | nil => simp [Mem.insert, Mem.find]
  | cons c m ih =>
    obtain ⟨d, v⟩ := c
    simp only [Mem.insert]
    split
    · simp [Mem.find]
    · split
      · rename_i h1 h2
        subst h2
        simp only [Mem.find]
        split <;> simp_all
      · rename_i h1 h2
        simp only [Mem.find, ih]
        by_cases hbd : b = d
        · subst hbd
          have : b ≠ a := fun h => h2 h.symm
          simp [this]
        · simp [hbd]

/-- Read after write, here and elsewhere, in a memory whose addresses rise. -/
theorem Mem.find_store {dflt : Nat → Byte} {a b : Nat} {y : Byte} {m : List Host.Cell}
    (h : Mem.sorted m) :
    Mem.find dflt (Mem.store dflt m a y) b = if b = a then y else Mem.find dflt m b := by
  unfold Mem.store
  split
  · rename_i hy
    rw [Mem.find_erase h, hy]
  · exact Mem.find_insert

/-- A store keeps the canonical form. -/
theorem Mem.wf_store {c : Config} {m : List Host.Cell} {a : Nat} {y : Byte}
    (h : Mem.wf c m) (ha : a < c.fbLen) : Mem.wf c (Mem.store (resetByte c) m a y) := by
  unfold Mem.store
  split
  · exact ⟨Mem.sorted_erase h.1, fun x hx => h.2 x (Mem.mem_erase hx)⟩
  · rename_i hy
    refine ⟨Mem.sorted_insert h.1, fun x hx => ?_⟩
    rcases Mem.mem_insert hx with rfl | hx
    · exact ⟨ha, hy⟩
    · exact h.2 x hx

/-- A memory that lists nothing is in canonical form. -/
theorem Mem.wf_nil (c : Config) : Mem.wf c [] := by simp [Mem.wf]

/-- `MemRead` after `MemWrite` (00_scope.md R14). -/
theorem memRead_memWrite {s : State} (h : Mem.wf s.cfg s.fb) (a b : Nat) (y : Byte) :
    memRead (memWrite s a y) b = if b = a then y else memRead s b := Mem.find_store h.1

theorem memWrite_wf {s : State} (h : Mem.wf s.cfg s.fb) {a : Nat} (ha : a < s.cfg.fbLen)
    (y : Byte) : Mem.wf (memWrite s a y).cfg (memWrite s a y).fb := Mem.wf_store h ha

/-- A read looks at the configuration and the memory alone. -/
theorem memRead_congr {s u : State} (hc : u.cfg = s.cfg) (hf : u.fb = s.fb) (a : Nat) :
    memRead u a = memRead s a := by simp [memRead, hc, hf]

/-- A legal position has an address inside the space (20_memory.md R60). -/
theorem addr_lt_fbLen (c : Config) (buf : Bool) {p y bc : Nat} (hp : p < 3) (hy : y < c.h)
    (hb : bc < c.wb) : addr c buf p y bc < c.fbLen := by
  have h1 : y * c.wb + bc < c.planeLen := by
    have : y * c.wb + c.wb ≤ c.h * c.wb := by
      rw [← Nat.succ_mul]
      exact Nat.mul_le_mul_right _ hy
    rw [Config.planeLen, Config.stride, Nat.mul_comm c.wb]
    omega
  have h2 : p * c.planeLen + c.planeLen ≤ 3 * c.planeLen := by
    rw [← Nat.succ_mul]
    exact Nat.mul_le_mul_right _ hp
  have h3 : buf.toNat ≤ 1 := by cases buf <;> simp
  have h4 : buf.toNat * c.bufLen ≤ c.bufLen := by
    calc buf.toNat * c.bufLen ≤ 1 * c.bufLen := Nat.mul_le_mul_right _ h3
      _ = c.bufLen := Nat.one_mul _
  have h5 : c.bufLen = 3 * c.planeLen := rfl
  have h6 : c.fbLen = 2 * c.bufLen := rfl
  have h7 : y * c.stride = y * c.wb := rfl
  unfold addr
  omega

end Sys2Proof.Machine
end

