-- ==== Sys2Proof/Laws/Scan.lean ====
section
/-! SUPPORT. What TICK and its parts can change: one frame equation per function, and the fields they leave alone. -/

namespace Sys2Proof.Machine

open Sys2Proof

theorem foldl_memWrite_frame (as : List Nat) (x : Byte) (s : State) :
    as.foldl (fun s a => memWrite s a x) s
      = { s with fb := (as.foldl (fun s a => memWrite s a x) s).fb } := by
  induction as generalizing s with
  | nil => rfl
  | cons a as ih =>
    rw [List.foldl_cons, ih (memWrite s a x)]
    rfl

theorem clearFront_frame (s : State) : clearFront s = { s with fb := (clearFront s).fb } :=
  foldl_memWrite_frame _ _ _

/-- `RunEndAction` writes memory or puts out an event, and nothing else (43_tick.md R208). -/
theorem runEndAction_frame (s : State) :
    runEndAction s
      = { s with fb := (runEndAction s).fb, animEvents := (runEndAction s).animEvents } := by
  unfold runEndAction
  split
  · rfl
  · have e : (clearFront s).animEvents = s.animEvents := by rw [clearFront_frame]
    rw [e]
    exact clearFront_frame s
  · rfl
  · rfl

theorem swapLatch_frame (s : State) :
    swapLatch s
      = { s with front := (s.front ^^ s.swapPend), swapPend := false } := by
  cases h : s.swapPend <;> simp [swapLatch, h]
  rw [← h]

theorem brightLatch_frame (s : State) :
    brightLatch s = { s with brCfg := if s.brPend then s.brReq else s.brCfg, brPend := false } := by
  cases h : s.brPend <;> simp [brightLatch, h]
  rw [← h]

theorem idleFire_frame (s : State) :
    (idleFire s).1
      = { s with
          brCnt := (idleFire s).1.brCnt
          fade := (idleFire s).1.fade
          idleCnt := (idleFire s).1.idleCnt
          fb := (idleFire s).1.fb
          animEvents := (idleFire s).1.animEvents } := by
  unfold idleFire
  split
  · rfl
  · dsimp only
    rw [runEndAction_frame]

/-- The idle step (43_tick.md R206). -/
theorem idleStep_frame (s : State) :
    (idleStep s).1
      = { s with
          brCnt := (idleStep s).1.brCnt
          fade := (idleStep s).1.fade
          idleCnt := (idleStep s).1.idleCnt
          fb := (idleStep s).1.fb
          animEvents := (idleStep s).1.animEvents } := by
  unfold idleStep
  split
  · dsimp only
    split
    · rw [idleFire_frame]
    · rfl
  · rfl

theorem fadeOutStep_frame (s : State) :
    fadeOutStep s
      = { s with
          brCnt := (fadeOutStep s).brCnt
          fade := (fadeOutStep s).fade
          fb := (fadeOutStep s).fb
          animEvents := (fadeOutStep s).animEvents } := by
  unfold fadeOutStep
  dsimp only
  by_cases h : 0 < s.brCnt
  · simp only [if_pos h]
    split
    · rw [runEndAction_frame]
    · rfl
  · simp only [if_neg h]
    split
    · rw [runEndAction_frame]
    · rfl

theorem fadeInStep_frame (s : State) :
    fadeInStep s
      = { s with
          brCnt := (fadeInStep s).brCnt
          fade := (fadeInStep s).fade
          idleCnt := (fadeInStep s).idleCnt } := by
  unfold fadeInStep
  dsimp only
  by_cases h : s.brCnt < s.brCfg
  · simp only [if_pos h]
    split <;> rfl
  · simp only [if_neg h]
    split <;> rfl

/-- The fade step (43_tick.md R207). -/
theorem fadeStep_frame (s : State) :
    fadeStep s
      = { s with
          brCnt := (fadeStep s).brCnt
          fade := (fadeStep s).fade
          idleCnt := (fadeStep s).idleCnt
          fb := (fadeStep s).fb
          animEvents := (fadeStep s).animEvents } := by
  cases h : s.fade <;> simp only [fadeStep, h]
  · rw [← h]
  · rw [fadeInStep_frame]
  · rw [fadeOutStep_frame]

/-- The frame boundary as a whole: both latches and the mark are as said, the fade machine, memory and the events are as the idle and fade steps leave them (43_tick.md R203). -/
theorem frameBoundary_frame (s : State) :
    frameBoundary s
      = { s with
          front := (s.front ^^ s.swapPend)
          swapPend := false
          brCfg := if s.brPend then s.brReq else s.brCfg
          brPend := false
          frameChg := true
          brCnt := (frameBoundary s).brCnt
          fade := (frameBoundary s).fade
          idleCnt := (frameBoundary s).idleCnt
          fb := (frameBoundary s).fb
          animEvents := (frameBoundary s).animEvents } := by
  have h2 : brightLatch (swapLatch s)
      = { s with
          front := (s.front ^^ s.swapPend)
          swapPend := false
          brCfg := if s.brPend then s.brReq else s.brCfg
          brPend := false } := by rw [swapLatch_frame, brightLatch_frame]
  have hi := (idleStep_frame (brightLatch (swapLatch s))).trans (congrArg (fun w : State =>
    { w with
      brCnt := (idleStep (brightLatch (swapLatch s))).1.brCnt
      fade := (idleStep (brightLatch (swapLatch s))).1.fade
      idleCnt := (idleStep (brightLatch (swapLatch s))).1.idleCnt
      fb := (idleStep (brightLatch (swapLatch s))).1.fb
      animEvents := (idleStep (brightLatch (swapLatch s))).1.animEvents }) h2)
  unfold frameBoundary
  dsimp only
  generalize idleStep (brightLatch (swapLatch s)) = q at hi
  split
  · exact congrArg markFrame hi
  · have hf := fadeStep_frame q.1
    generalize fadeStep q.1 = v at hf
    generalize q.1 = w at hf hi
    exact congrArg markFrame (hf.trans (congrArg (fun w : State =>
      { w with
        brCnt := v.brCnt
        fade := v.fade
        idleCnt := v.idleCnt
        fb := v.fb
        animEvents := v.animEvents }) hi))

/-! ## Every tick -/

/-- The four ways the cursor advances, the last the frame boundary (43_tick.md R202). -/
theorem advance_cases (s : State) :
    (s.half = false ∧ advance s = { s with half := true })
      ∨ (s.half = true ∧ s.row.toNat < s.cfg.h - 1
          ∧ advance s = { s with half := false, row := s.row + 1 })
      ∨ (s.half = true ∧ s.cfg.h - 1 ≤ s.row.toNat ∧ 1 < s.holdRem.toNat
          ∧ advance s = { s with half := false, row := 0, holdRem := s.holdRem - 1 })
      ∨ (s.half = true ∧ s.cfg.h - 1 ≤ s.row.toNat ∧ s.holdRem.toNat ≤ 1 ∧ s.plane = 2
          ∧ advance s = { s with half := false, row := 0, plane := 1, holdRem := s.ht.b })
      ∨ (s.half = true ∧ s.cfg.h - 1 ≤ s.row.toNat ∧ s.holdRem.toNat ≤ 1 ∧ s.plane = 1
          ∧ advance s = { s with half := false, row := 0, plane := 0, holdRem := s.ht.a })
      ∨ (s.half = true ∧ s.cfg.h - 1 ≤ s.row.toNat ∧ s.holdRem.toNat ≤ 1 ∧ s.plane = 0
          ∧ advance s
              = frameBoundary
                  { s with half := false, row := 0, plane := 2, holdRem := s.ht.c }) := by
  have hold : ∀ x : Byte, 1 < x ↔ 1 < x.toNat := fun x => by
    simp [BitVec.lt_def]
  by_cases hh : s.half = false
  · exact .inl ⟨hh, by rw [advance, if_pos hh]⟩
  have ht : s.half = true := by simpa using hh
  by_cases hr : s.row.toNat < s.cfg.h - 1
  · exact .inr (.inl ⟨ht, hr, by rw [advance, if_neg hh, if_pos hr]⟩)
  have hr' : s.cfg.h - 1 ≤ s.row.toNat := by omega
  have hadv : advance s = endPass { s with half := false, row := 0 } := by
    rw [advance, if_neg hh, if_neg hr]
  by_cases hp : 1 < s.holdRem
  · refine .inr (.inr (.inl ⟨ht, hr', (hold _).1 hp, ?_⟩))
    rw [hadv, endPass, if_pos hp]
  have hp' : s.holdRem.toNat ≤ 1 := by
    have := mt (hold s.holdRem).2 hp
    omega
  rw [hadv, endPass, if_neg hp]
  dsimp only
  match hpl : s.plane with
  | 2 => exact .inr (.inr (.inr (.inl ⟨ht, hr', hp', rfl, rfl⟩)))
  | 1 => exact .inr (.inr (.inr (.inr (.inl ⟨ht, hr', hp', rfl, rfl⟩))))
  | 0 => exact .inr (.inr (.inr (.inr (.inr ⟨ht, hr', hp', rfl, rfl⟩))))

/-- What a TICK leaves alone (10_state.md R42): the frame equation over the fields it may write. -/
theorem tickOp_frame (s : State) :
    tickOp s
      = { s with
          segs := s.segs ++ [segmentOf s]
          row := (tickOp s).row
          half := (tickOp s).half
          plane := (tickOp s).plane
          holdRem := (tickOp s).holdRem
          front := (tickOp s).front
          swapPend := (tickOp s).swapPend
          brCfg := (tickOp s).brCfg
          brPend := (tickOp s).brPend
          frameChg := (tickOp s).frameChg
          brCnt := (tickOp s).brCnt
          fade := (tickOp s).fade
          idleCnt := (tickOp s).idleCnt
          fb := (tickOp s).fb
          animEvents := (tickOp s).animEvents } := by
  unfold tickOp
  rcases advance_cases (emitSegment s) with
    ⟨-, h⟩ | ⟨-, -, h⟩ | ⟨-, -, -, h⟩ | ⟨-, -, -, -, h⟩ | ⟨-, -, -, -, h⟩ | ⟨-, -, -, -, h⟩
  all_goals rw [h]
  case inr.inr.inr.inr.inr => rw [frameBoundary_frame]; rfl
  all_goals rfl

@[simp] theorem tickOp_cfg (s : State) : (tickOp s).cfg = s.cfg := by
  rw [tickOp_frame]

@[simp] theorem tickOp_ht (s : State) : (tickOp s).ht = s.ht := by
  rw [tickOp_frame]

@[simp] theorem tickOp_brReq (s : State) : (tickOp s).brReq = s.brReq := by
  rw [tickOp_frame]

@[simp] theorem tickOp_idleTrig (s : State) : (tickOp s).idleTrig = s.idleTrig := by
  rw [tickOp_frame]

@[simp] theorem tickOp_outEn (s : State) : (tickOp s).outEn = s.outEn := by
  rw [tickOp_frame]

@[simp] theorem tickOp_fadeEn (s : State) : (tickOp s).fadeEn = s.fadeEn := by
  rw [tickOp_frame]

@[simp] theorem tickOp_endAct (s : State) : (tickOp s).endAct = s.endAct := by
  rw [tickOp_frame]

@[simp] theorem tickOp_animPlaying (s : State) : (tickOp s).animPlaying = s.animPlaying := by
  rw [tickOp_frame]

@[simp] theorem tickOp_idleInhibit (s : State) : (tickOp s).idleInhibit = s.idleInhibit := by
  rw [tickOp_frame]

@[simp] theorem tickOp_port (s : State) : (tickOp s).port = s.port := by
  rw [tickOp_frame]

@[simp] theorem tickOp_stream (s : State) : (tickOp s).stream = s.stream := by
  rw [tickOp_frame]

@[simp] theorem tickOp_resp (s : State) : (tickOp s).resp = s.resp := by
  rw [tickOp_frame]

@[simp] theorem tickOp_errs (s : State) : (tickOp s).errs = s.errs := by
  rw [tickOp_frame]

@[simp] theorem tickOp_sched (s : State) : (tickOp s).sched = s.sched := by
  rw [tickOp_frame]

@[simp] theorem tickOp_segs (s : State) : (tickOp s).segs = s.segs ++ [segmentOf s] := by
  rw [tickOp_frame]

/-- A TICK serves a pending swap at the boundary or leaves FRONT and the flag alone; without a request FRONT stays (43_tick.md R204). -/
theorem tickOp_front (s : State) (h : s.swapPend = false) :
    (tickOp s).front = s.front ∧ (tickOp s).swapPend = false := by
  unfold tickOp
  rcases advance_cases (emitSegment s) with
    ⟨-, e⟩ | ⟨-, -, e⟩ | ⟨-, -, -, e⟩ | ⟨-, -, -, -, e⟩ | ⟨-, -, -, -, e⟩ | ⟨-, -, -, -, e⟩
  all_goals rw [e]
  case inr.inr.inr.inr.inr => rw [frameBoundary_frame]; simp [h]
  all_goals exact ⟨rfl, h⟩

end Sys2Proof.Machine
end

