-- ==== Sys2Proof/Laws/Bus.lean ====
section
/-! SUPPORT. Everything the events between two accesses can do, and what the byte accesses and block accesses are when no event falls among them. -/

namespace Sys2Proof.Machine

open Sys2Proof

/-! ## Events -/

@[simp] theorem deliver_cfg (e : Turn) (s : State) : (deliver e s).cfg = s.cfg := by
  cases e <;> simp [deliver, resetEvent, State.resetOf]

@[simp] theorem deliver_sched (e : Turn) (s : State) : (deliver e s).sched = s.sched := by
  cases e <;> simp [deliver, resetEvent]

/-- Only a reset touches what the port is in the middle of, and it makes it idle. -/
theorem deliver_port (e : Turn) (s : State) :
    (deliver e s).port = if e = .reset then .idle else s.port := by
  cases e <;> simp [deliver, resetEvent, State.resetOf]

/-- Whatever no event undoes and the order of events does not matter to holds after the events before an access. -/
theorem pauseTurns_induct {P : State → Prop} (hs : ∀ s l, P s → P { s with sched := l })
    (hd : ∀ s e, P s → P (deliver e s)) (l : List Turn) {s : State} (h : P s) :
    P (pauseTurns l s) := by
  induction l generalizing s with
  | nil => exact hs s [] h
  | cons e l ih =>
    simp only [pauseTurns]
    split
    · exact hs s l h
    · split
      · exact ih (hd _ e (hs s l h))
      · exact hd _ e (hs s l h)

theorem pause_induct {P : State → Prop} (hs : ∀ s l, P s → P { s with sched := l })
    (hd : ∀ s e, P s → P (deliver e s)) {s : State} (h : P s) : P (pause s) := by
  unfold pause
  split
  · exact pauseTurns_induct hs hd _ h
  · exact h

@[simp] theorem pause_cfg (s : State) : (pause s).cfg = s.cfg :=
  pause_induct (P := fun u => u.cfg = s.cfg) (fun _ _ h => h) (fun _ _ h => by simp [h]) rfl

theorem pause_of_not_running {s : State} (h : isRunning s = false) : pause s = s := by
  simp [pause, h]

@[simp] theorem busRead_cfg (a : Nat) (s : State) : (busRead a s).2.cfg = s.cfg := by
  simp [busRead]

@[simp] theorem busWrite_cfg (a : Nat) (x : Byte) (s : State) : (busWrite a x s).cfg = s.cfg := by
  unfold busWrite
  dsimp only
  split <;> simp

@[simp] theorem readPlanes_cfg (buf : Bool) (pos : Pos) (s : State) :
    (readPlanes buf pos s).2.cfg = s.cfg := by
  simp [readPlanes]

@[simp] theorem writePlanes_cfg (buf : Bool) (pos : Pos) (p : Planes) (s : State) :
    (writePlanes buf pos p s).cfg = s.cfg := by
  simp [writePlanes]

@[simp] theorem setLane_cfg (buf : Bool) (pos : Pos) (m : Byte) (p : Nat) (on : Bool) (s : State) :
    (setLane buf pos m p on s).cfg = s.cfg := by
  simp [setLane]

/-- Whatever no event undoes, the order of events does not matter to and a write to this address keeps holds after the write access. -/
theorem busWrite_induct {P : State → Prop} (hs : ∀ s l, P s → P { s with sched := l })
    (hd : ∀ s e, P s → P (deliver e s)) {a : Nat} {x : Byte}
    (hw : ∀ s, P s → P (memWrite s a x)) {s : State} (h : P s) : P (busWrite a x s) := by
  unfold busWrite
  dsimp only
  split
  · exact hw _ (pause_induct hs hd h)
  · exact pause_induct hs hd h

/-! ## Accesses no event falls among -/

theorem Undisturbed.mono {m n : Nat} {s : State} (h : Undisturbed n s) (hm : m ≤ n) :
    Undisturbed m s := fun e he =>
  h e ((List.take_prefix_take_left hm).subset he)

theorem Undisturbed.drop {m n : Nat} {s u : State} (h : Undisturbed (m + n) s)
    (hu : u.sched = s.sched.drop m) : Undisturbed n u := fun e he => by
  rw [hu, List.take_drop] at he
  exact h e (List.mem_of_mem_drop he)

theorem Undisturbed.of_all {s : State} (h : ∀ e ∈ s.sched, e = Turn.port) (n : Nat) :
    Undisturbed n s := fun e he => h e (List.mem_of_mem_take he)

/-- The state after the port has taken `n` turns of the order. -/
def takeTurns (n : Nat) (s : State) : State := { s with sched := s.sched.drop n }

@[simp] theorem takeTurns_cfg (n : Nat) (s : State) : (takeTurns n s).cfg = s.cfg := rfl
@[simp] theorem takeTurns_sched (n : Nat) (s : State) : (takeTurns n s).sched = s.sched.drop n := rfl
@[simp] theorem takeTurns_zero (s : State) : takeTurns 0 s = s := rfl

@[simp] theorem takeTurns_takeTurns (m n : Nat) (s : State) :
    takeTurns m (takeTurns n s) = takeTurns (n + m) s := by
  simp [takeTurns]

@[simp] theorem isRunning_takeTurns (n : Nat) (s : State) :
    isRunning (takeTurns n s) = isRunning s := rfl

@[simp] theorem memRead_takeTurns (n : Nat) (s : State) (a : Nat) :
    memRead (takeTurns n s) a = memRead s a := rfl

@[simp] theorem memWrite_takeTurns (n : Nat) (s : State) (a : Nat) (x : Byte) :
    memWrite (takeTurns n s) a x = takeTurns n (memWrite s a x) := by
  simp only [takeTurns, memWrite]

@[simp] theorem planesAt_takeTurns (n : Nat) (s : State) (buf : Bool) (bc y : Nat) :
    planesAt (takeTurns n s) buf bc y = planesAt s buf bc y := rfl

theorem Undisturbed.takeTurns {m n : Nat} {s : State} (h : Undisturbed (m + n) s) :
    Undisturbed n (takeTurns m s) := h.drop rfl

theorem Undisturbed.memWrite {n : Nat} {s : State} (h : Undisturbed n s) (a : Nat) (x : Byte) :
    Undisturbed n (memWrite s a x) := h

/-- With no event before it, an access only takes the port's turn. -/
theorem pause_undisturbed {s : State} (hr : isRunning s = true) (h : Undisturbed 1 s) :
    pause s = takeTurns 1 s := by
  rw [pause, if_pos hr]
  cases hs : s.sched with
  | nil => simp [pauseTurns, takeTurns, hs]
  | cons e l =>
    have : e = Turn.port := h e (by simp [hs])
    simp [pauseTurns, this, takeTurns, hs]

theorem busRead_undisturbed {s : State} (hr : isRunning s = true) (h : Undisturbed 1 s) (a : Nat) :
    busRead a s = (memRead s a, takeTurns 1 s) := by
  simp [busRead, pause_undisturbed hr h]

theorem busWrite_undisturbed {s : State} (hr : isRunning s = true) (h : Undisturbed 1 s) (a : Nat)
    (x : Byte) : busWrite a x s = takeTurns 1 (memWrite s a x) := by
  simp [busWrite, pause_undisturbed hr h, hr]

/-- A block read is one look at its three plane bytes (41_pixel_and_rect.md R141). -/
theorem readPlanes_undisturbed {s : State} (hr : isRunning s = true) (h : Undisturbed 3 s)
    (buf : Bool) (pos : Pos) :
    readPlanes buf pos s = (planesAt s buf pos.1 pos.2, takeTurns 3 s) := by
  have h1 := busRead_undisturbed hr (h.mono (by omega)) (addr s.cfg buf 0 pos.2 pos.1)
  have d1 : Undisturbed 2 (takeTurns 1 s) := h.takeTurns (m := 1)
  have h2 := busRead_undisturbed (s := takeTurns 1 s) hr (d1.mono (by omega))
    (addr s.cfg buf 1 pos.2 pos.1)
  have d2 : Undisturbed 1 (takeTurns 1 (takeTurns 1 s)) := d1.takeTurns (m := 1)
  have h3 := busRead_undisturbed (s := takeTurns 1 (takeTurns 1 s)) hr d2
    (addr s.cfg buf 2 pos.2 pos.1)
  unfold readPlanes
  dsimp only
  rw [h1]
  dsimp only [takeTurns_cfg]
  rw [h2]
  dsimp only [takeTurns_cfg]
  rw [h3]
  simp [planesAt]

/-- Three plane bytes stored at a block position, as one update (41_pixel_and_rect.md R142). -/
def storePlanes (buf : Bool) (pos : Pos) (p : Planes) (s : State) : State :=
  memWrite (memWrite (memWrite s (addr s.cfg buf 0 pos.2 pos.1) p.p0)
    (addr s.cfg buf 1 pos.2 pos.1) p.p1) (addr s.cfg buf 2 pos.2 pos.1) p.p2

/-- Storing planes writes memory alone. -/
theorem storePlanes_frame (buf : Bool) (pos : Pos) (p : Planes) (s : State) :
    storePlanes buf pos p s = { s with fb := (storePlanes buf pos p s).fb } := by
  simp only [storePlanes, memWrite]

@[simp] theorem storePlanes_cfg (buf : Bool) (pos : Pos) (p : Planes) (s : State) :
    (storePlanes buf pos p s).cfg = s.cfg := by simp only [storePlanes, memWrite_cfg]

@[simp] theorem storePlanes_sched (buf : Bool) (pos : Pos) (p : Planes) (s : State) :
    (storePlanes buf pos p s).sched = s.sched := by simp only [storePlanes, memWrite_sched]

@[simp] theorem isRunning_storePlanes (buf : Bool) (pos : Pos) (p : Planes) (s : State) :
    isRunning (storePlanes buf pos p s) = isRunning s := by
  simp only [storePlanes, isRunning_memWrite]

@[simp] theorem storePlanes_takeTurns (n : Nat) (buf : Bool) (pos : Pos) (p : Planes) (s : State) :
    storePlanes buf pos p (takeTurns n s) = takeTurns n (storePlanes buf pos p s) := by
  simp only [storePlanes, takeTurns_cfg, memWrite_takeTurns]

/-- A block write is one store of its three plane bytes (41_pixel_and_rect.md R142). -/
theorem writePlanes_undisturbed {s : State} (hr : isRunning s = true) (h : Undisturbed 3 s)
    (buf : Bool) (pos : Pos) (p : Planes) :
    writePlanes buf pos p s = takeTurns 3 (storePlanes buf pos p s) := by
  unfold writePlanes
  dsimp only
  rw [busWrite_undisturbed hr (h.mono (by omega))]
  rw [busWrite_undisturbed (by simpa using hr)
    (((h.memWrite _ _).takeTurns (m := 1) (n := 2)).mono (by omega))]
  rw [busWrite_undisturbed (by simpa using hr)
    ((((h.memWrite _ _).takeTurns (m := 1) (n := 2)).memWrite _ _).takeTurns (m := 1) (n := 1))]
  simp only [memWrite_takeTurns, takeTurns_takeTurns, storePlanes]

/-- The stores of a list of block writes, in order. -/
def storeAll (buf : Bool) (l : List (Pos × Planes)) (s : State) : State :=
  l.foldl (fun s x => storePlanes buf x.1 x.2 s) s

/-- A list of stores writes memory alone. -/
theorem storeAll_frame (buf : Bool) (l : List (Pos × Planes)) (s : State) :
    storeAll buf l s = { s with fb := (storeAll buf l s).fb } := by
  induction l generalizing s with
  | nil => rfl
  | cons x l ih =>
    have e := storePlanes_frame buf x.1 x.2 s
    have h := ih (storePlanes buf x.1 x.2 s)
    rw [storeAll, List.foldl_cons, ← storeAll]
    generalize storePlanes buf x.1 x.2 s = w at e h
    generalize storeAll buf l w = u at h
    rw [e] at h
    exact h

@[simp] theorem storeAll_cfg (buf : Bool) (l : List (Pos × Planes)) (s : State) :
    (storeAll buf l s).cfg = s.cfg := by rw [storeAll_frame]

theorem storeAll_takeTurns (n : Nat) (buf : Bool) (l : List (Pos × Planes)) (s : State) :
    storeAll buf l (takeTurns n s) = takeTurns n (storeAll buf l s) := by
  induction l generalizing s with
  | nil => rfl
  | cons x l ih =>
    simp only [storeAll, List.foldl_cons, storePlanes_takeTurns] at ih ⊢
    exact ih _

/-- Block writes in order are stores in order. -/
theorem writeAll_undisturbed (buf : Bool) (l : List (Pos × Planes)) {s : State}
    (hr : isRunning s = true) (h : Undisturbed (3 * l.length) s) :
    writeAll buf l s = takeTurns (3 * l.length) (storeAll buf l s) := by
  induction l generalizing s with
  | nil => rfl
  | cons x l ih =>
    have hl : 3 * (x :: l).length = 3 + 3 * l.length := by simp; omega
    rw [hl] at h ⊢
    rw [writeAll, writePlanes_undisturbed hr (h.mono (by omega)),
      ih (by simpa using hr) (h.drop (by simp)), storeAll_takeTurns, takeTurns_takeTurns]
    rfl

/-- The snapshot of CPRECT is one look at the whole source (41_pixel_and_rect.md R147). -/
theorem readAll_undisturbed (buf : Bool) (l : List Pos) {s : State} (hr : isRunning s = true)
    (h : Undisturbed (3 * l.length) s) :
    readAll buf l s
      = (l.map (fun pos => planesAt s buf pos.1 pos.2), takeTurns (3 * l.length) s) := by
  induction l generalizing s with
  | nil => rfl
  | cons x l ih =>
    have hl : 3 * (x :: l).length = 3 + 3 * l.length := by simp; omega
    rw [hl] at h ⊢
    simp only [readAll, readPlanes_undisturbed hr (h.mono (by omega)),
      ih (s := takeTurns 3 s) hr h.takeTurns, planesAt_takeTurns, takeTurns_takeTurns,
      List.map_cons]

/-- What a store of planes leaves to read: its three bytes there, everything else elsewhere. -/
theorem storePlanes_wf {s : State} (h : Mem.wf s.cfg s.fb) (buf : Bool) {pos : Pos}
    (hb : pos.1 < s.cfg.wb) (hy : pos.2 < s.cfg.h) (p : Planes) :
    Mem.wf s.cfg (storePlanes buf pos p s).fb := by
  simp only [storePlanes, memWrite_fb, memWrite_cfg]
  exact Mem.wf_store (Mem.wf_store (Mem.wf_store h
    (addr_lt_fbLen s.cfg buf (by omega) hy hb)) (addr_lt_fbLen s.cfg buf (by omega) hy hb))
    (addr_lt_fbLen s.cfg buf (by omega) hy hb)

end Sys2Proof.Machine
end

