-- ==== Sys2Proof/Laws/Block.lean ====
section
/-! SUPPORT. Where the bytes of a block lie, what block stores leave to read, what the Clear action leaves, and the lists of positions the rectangle operations walk. -/

namespace Sys2Proof.Machine

open Sys2Proof

/-! ## Addresses -/

theorem mixed_radix {m a a' r r' : Nat} (hr : r < m) (hr' : r' < m) (h : a * m + r = a' * m + r') :
    a = a' ∧ r = r' := by
  have hm : 0 < m := by omega
  have ha : a = a' := by
    have e1 : (a * m + r) / m = a := by
      rw [Nat.add_comm, Nat.add_mul_div_right _ _ hm, Nat.div_eq_of_lt hr, Nat.zero_add]
    have e2 : (a' * m + r') / m = a' := by
      rw [Nat.add_comm, Nat.add_mul_div_right _ _ hm, Nat.div_eq_of_lt hr', Nat.zero_add]
    rw [← e1, ← e2, h]
  subst ha
  exact ⟨rfl, by omega⟩

/-- A position inside a plane. -/
theorem plane_offset_lt (c : Config) {y bc : Nat} (hy : y < c.h) (hb : bc < c.wb) :
    y * c.stride + bc < c.planeLen := by
  have : y * c.wb + c.wb ≤ c.h * c.wb := by
    rw [← Nat.succ_mul]
    exact Nat.mul_le_mul_right _ hy
  rw [Config.planeLen, Config.stride, Nat.mul_comm c.wb]
  omega

/-- A position inside a buffer. -/
theorem buffer_offset_lt (c : Config) {p y bc : Nat} (hp : p < 3) (hy : y < c.h) (hb : bc < c.wb) :
    p * c.planeLen + (y * c.stride + bc) < c.bufLen := by
  have h1 := plane_offset_lt c hy hb
  have h2 : p * c.planeLen + c.planeLen ≤ 3 * c.planeLen := by
    rw [← Nat.succ_mul]
    exact Nat.mul_le_mul_right _ hp
  rw [Config.bufLen]
  omega

/-- Different legal positions have different addresses (20_memory.md R63). -/
theorem addr_inj (c : Config) {buf buf' : Bool} {p p' y y' bc bc' : Nat} (hp : p < 3) (hp' : p' < 3)
    (hy : y < c.h) (hy' : y' < c.h) (hb : bc < c.wb) (hb' : bc' < c.wb)
    (h : addr c buf p y bc = addr c buf' p' y' bc') :
    buf = buf' ∧ p = p' ∧ y = y' ∧ bc = bc' := by
  have h0 : buf.toNat * c.bufLen + (p * c.planeLen + (y * c.stride + bc))
      = buf'.toNat * c.bufLen + (p' * c.planeLen + (y' * c.stride + bc')) := by
    simpa only [addr, Nat.add_assoc] using h
  obtain ⟨e1, h1⟩ := mixed_radix (buffer_offset_lt c hp hy hb) (buffer_offset_lt c hp' hy' hb') h0
  obtain ⟨e2, h2⟩ := mixed_radix (plane_offset_lt c hy hb) (plane_offset_lt c hy' hb') h1
  obtain ⟨e3, e4⟩ := mixed_radix (m := c.stride) hb hb' h2
  refine ⟨?_, e2, e3, e4⟩
  cases buf <;> cases buf' <;> simp_all

/-- The address of a legal position lies in its buffer. -/
theorem addr_inBuffer (c : Config) (buf : Bool) {p y bc : Nat} (hp : p < 3) (hy : y < c.h)
    (hb : bc < c.wb) : inBuffer c buf (addr c buf p y bc) := by
  have := buffer_offset_lt c hp hy hb
  unfold inBuffer addr
  omega

/-- Every address of a buffer is that of a legal position in it. -/
theorem exists_addr_of_inBuffer (c : Config) {buf : Bool} {a : Nat} (h : inBuffer c buf a) :
    ∃ p y bc, p < 3 ∧ y < c.h ∧ bc < c.wb ∧ addr c buf p y bc = a := by
  obtain ⟨h1, h2⟩ := h
  have hlen : a - buf.toNat * c.bufLen < 3 * (c.wb * c.h) := by
    have : c.bufLen = 3 * (c.wb * c.h) := rfl
    omega
  generalize hk : a - buf.toNat * c.bufLen = k at hlen
  have hpos : 0 < c.wb * c.h := by omega
  have hwb : 0 < c.wb := Nat.pos_of_mul_pos_right hpos
  refine ⟨k / (c.wb * c.h), k % (c.wb * c.h) / c.wb, k % (c.wb * c.h) % c.wb, ?_, ?_, ?_, ?_⟩
  · exact (Nat.div_lt_iff_lt_mul hpos).2 hlen
  · exact (Nat.div_lt_iff_lt_mul hwb).2 (lt_of_lt_of_eq (Nat.mod_lt _ hpos) (Nat.mul_comm _ _))
  · exact Nat.mod_lt _ hwb
  · have e1 := Nat.div_add_mod k (c.wb * c.h)
    have e2 := Nat.div_add_mod (k % (c.wb * c.h)) c.wb
    have e3 : c.planeLen = c.wb * c.h := rfl
    have e4 : c.stride = c.wb := rfl
    unfold addr
    rw [e3, e4, Nat.mul_comm (k / (c.wb * c.h)), Nat.mul_comm (k % (c.wb * c.h) / c.wb)]
    omega

/-! ## Block stores -/

/-- What a store of planes leaves to read: its three bytes, everything else as before (41_pixel_and_rect.md R142). -/
theorem memRead_storePlanes {s : State} (h : Mem.wf s.cfg s.fb) (buf : Bool) {pos : Pos}
    (hb : pos.1 < s.cfg.wb) (hy : pos.2 < s.cfg.h) (p : Planes) (a : Nat) :
    memRead (storePlanes buf pos p s) a
      = if a = addr s.cfg buf 2 pos.2 pos.1 then p.p2
        else if a = addr s.cfg buf 1 pos.2 pos.1 then p.p1
        else if a = addr s.cfg buf 0 pos.2 pos.1 then p.p0
        else memRead s a := by
  have h0 := memWrite_wf h (addr_lt_fbLen s.cfg buf (p := 0) (by omega) hy hb) p.p0
  have h1 := memWrite_wf (s := memWrite s _ p.p0) h0
    (addr_lt_fbLen s.cfg buf (p := 1) (by omega) hy hb) p.p1
  simp only [storePlanes]
  rw [memRead_memWrite h1, memRead_memWrite h0, memRead_memWrite h]

/-- A block store writes its own position and no other. -/
theorem planesAt_storePlanes {s : State} (h : Mem.wf s.cfg s.fb) (buf buf' : Bool) {pos pos' : Pos}
    (hb : pos.1 < s.cfg.wb) (hy : pos.2 < s.cfg.h) (hb' : pos'.1 < s.cfg.wb)
    (hy' : pos'.2 < s.cfg.h) (p : Planes) :
    planesAt (storePlanes buf pos p s) buf' pos'.1 pos'.2
      = if buf' = buf ∧ pos' = pos then p else planesAt s buf' pos'.1 pos'.2 := by
  by_cases hs : buf' = buf ∧ pos' = pos
  · obtain ⟨rfl, rfl⟩ := hs
    have d : ∀ {i j : Nat}, i < 3 → j < 3 → i ≠ j →
        addr s.cfg buf' i pos'.2 pos'.1 ≠ addr s.cfg buf' j pos'.2 pos'.1 :=
      fun hi hj hij he => hij (addr_inj s.cfg hi hj hy hy hb hb he).2.1
    have d01 := d (i := 0) (j := 1) (by omega) (by omega) (by omega)
    have d02 := d (i := 0) (j := 2) (by omega) (by omega) (by omega)
    have d12 := d (i := 1) (j := 2) (by omega) (by omega) (by omega)
    simp only [planesAt, storePlanes_cfg, memRead_storePlanes h buf' hb hy, if_true,
      if_neg d01, if_neg d02, if_neg d12, and_self]
  · have d : ∀ {i j : Nat}, i < 3 → j < 3 →
        addr s.cfg buf' i pos'.2 pos'.1 ≠ addr s.cfg buf j pos.2 pos.1 := fun hi hj he => by
      obtain ⟨e1, -, e3, e4⟩ := addr_inj s.cfg hi hj hy' hy hb' hb he
      exact hs ⟨e1, Prod.ext e4 e3⟩
    rw [if_neg hs]
    simp only [planesAt, storePlanes_cfg, memRead_storePlanes h buf hb hy]
    simp only [if_neg (d (i := 0) (j := 0) (by omega) (by omega)),
      if_neg (d (i := 0) (j := 1) (by omega) (by omega)),
      if_neg (d (i := 0) (j := 2) (by omega) (by omega)),
      if_neg (d (i := 1) (j := 0) (by omega) (by omega)),
      if_neg (d (i := 1) (j := 1) (by omega) (by omega)),
      if_neg (d (i := 1) (j := 2) (by omega) (by omega)),
      if_neg (d (i := 2) (j := 0) (by omega) (by omega)),
      if_neg (d (i := 2) (j := 1) (by omega) (by omega)),
      if_neg (d (i := 2) (j := 2) (by omega) (by omega))]

/-- A list of block stores keeps the canonical form. -/
theorem storeAll_wf {s : State} (h : Mem.wf s.cfg s.fb) (buf : Bool) {l : List (Pos × Planes)}
    (hl : ∀ x ∈ l, x.1.1 < s.cfg.wb ∧ x.1.2 < s.cfg.h) :
    Mem.wf s.cfg (storeAll buf l s).fb := by
  induction l generalizing s with
  | nil => exact h
  | cons x l ih =>
    obtain ⟨h1, h2⟩ := hl x (by simp)
    have hw := storePlanes_wf h buf h1 h2 x.2
    have := ih (s := storePlanes buf x.1 x.2 s) (by simpa using hw)
      (fun y hy => by simpa using hl y (by simp [hy]))
    simpa [storeAll] using this

/-- A list of block stores leaves every address that is none of its bytes. -/
theorem memRead_storeAll_of_outside {s : State} (h : Mem.wf s.cfg s.fb) (buf : Bool)
    {l : List (Pos × Planes)} (hl : ∀ x ∈ l, x.1.1 < s.cfg.wb ∧ x.1.2 < s.cfg.h) {a : Nat}
    (ha : ∀ x ∈ l, ∀ p < 3, a ≠ addr s.cfg buf p x.1.2 x.1.1) :
    memRead (storeAll buf l s) a = memRead s a := by
  induction l generalizing s with
  | nil => rfl
  | cons x l ih =>
    obtain ⟨h1, h2⟩ := hl x (by simp)
    have hx := ha x (by simp)
    have hr := memRead_storePlanes h buf h1 h2 x.2 a
    rw [if_neg (hx 2 (by omega)), if_neg (hx 1 (by omega)), if_neg (hx 0 (by omega))] at hr
    rw [← hr]
    exact ih (s := storePlanes buf x.1 x.2 s) (by simpa using storePlanes_wf h buf h1 h2 x.2)
      (fun y hy => by simpa using hl y (by simp [hy]))
      (fun y hy p hp => by simpa using ha y (by simp [hy]) p hp)

/-- Block stores of another buffer or of other positions leave a block. -/
theorem planesAt_storeAll_of_not_mem {s : State} (h : Mem.wf s.cfg s.fb) (buf buf' : Bool)
    {l : List (Pos × Planes)} (hl : ∀ x ∈ l, x.1.1 < s.cfg.wb ∧ x.1.2 < s.cfg.h) {pos : Pos}
    (hb : pos.1 < s.cfg.wb) (hy : pos.2 < s.cfg.h) (hn : buf' = buf → pos ∉ l.map Prod.fst) :
    planesAt (storeAll buf l s) buf' pos.1 pos.2 = planesAt s buf' pos.1 pos.2 := by
  have key : ∀ p < 3, memRead (storeAll buf l s) (addr s.cfg buf' p pos.2 pos.1)
      = memRead s (addr s.cfg buf' p pos.2 pos.1) := fun p hp =>
    memRead_storeAll_of_outside h buf hl fun x hx q hq he => by
      obtain ⟨h1, h2⟩ := hl x hx
      obtain ⟨e1, -, e3, e4⟩ := addr_inj s.cfg hp hq hy h2 hb h1 he
      exact hn e1 (List.mem_map.2 ⟨x, hx, (Prod.ext e4 e3).symm⟩)
  simp only [planesAt, storeAll_cfg, key 0 (by omega), key 1 (by omega), key 2 (by omega)]

/-- Stores at distinct positions leave each position with its own planes. -/
theorem planesAt_storeAll_of_mem {s : State} (h : Mem.wf s.cfg s.fb) (buf : Bool)
    {l : List (Pos × Planes)} (hl : ∀ x ∈ l, x.1.1 < s.cfg.wb ∧ x.1.2 < s.cfg.h)
    (hd : (l.map Prod.fst).Nodup) {pos : Pos} {p : Planes} (hm : (pos, p) ∈ l) :
    planesAt (storeAll buf l s) buf pos.1 pos.2 = p := by
  induction l generalizing s with
  | nil => simp at hm
  | cons x l ih =>
    obtain ⟨h1, h2⟩ := hl x (by simp)
    obtain ⟨hp1, hp2⟩ := hl (pos, p) hm
    rw [List.map_cons, List.nodup_cons] at hd
    have hw : Mem.wf (storePlanes buf x.1 x.2 s).cfg (storePlanes buf x.1 x.2 s).fb := by
      simpa using storePlanes_wf h buf h1 h2 x.2
    have hl' : ∀ y ∈ l, y.1.1 < (storePlanes buf x.1 x.2 s).cfg.wb
        ∧ y.1.2 < (storePlanes buf x.1 x.2 s).cfg.h := fun y hy => by
      simpa using hl y (by simp [hy])
    rcases List.mem_cons.1 hm with rfl | hm
    · have e := planesAt_storeAll_of_not_mem hw buf buf hl' (pos := pos) (by simpa using hp1)
        (by simpa using hp2) (fun _ => hd.1)
      refine Eq.trans e ?_
      rw [planesAt_storePlanes h buf buf h1 h2 hp1 hp2]
      simp
    · exact ih hw hl' hd.2 hm

/-! ## The Clear action -/

theorem foldl_memWrite_read {s : State} (h : Mem.wf s.cfg s.fb) {as : List Nat}
    (ha : ∀ a ∈ as, a < s.cfg.fbLen) (x : Byte) :
    Mem.wf s.cfg (as.foldl (fun s a => memWrite s a x) s).fb
      ∧ ∀ b, memRead (as.foldl (fun s a => memWrite s a x) s) b
          = if b ∈ as then x else memRead s b := by
  induction as generalizing s with
  | nil => exact ⟨h, fun b => by simp⟩
  | cons a as ih =>
    have hw := memWrite_wf h (ha a (by simp)) x
    obtain ⟨i1, i2⟩ := ih (s := memWrite s a x) hw (fun b hb => ha b (by simp [hb]))
    refine ⟨i1, fun b => ?_⟩
    rw [List.foldl_cons, i2 b, memRead_memWrite h]
    by_cases h1 : b ∈ as
    · simp [h1]
    · by_cases h2 : b = a <;> simp [h1, h2]

/-- The addresses the Clear action writes are those of the buffer (43_tick.md R208). -/
theorem mem_bufferAddrs (c : Config) (buf : Bool) (a : Nat) :
    a ∈ bufferAddrs c buf ↔ inBuffer c buf a := by
  simp only [bufferAddrs, List.mem_flatMap, List.mem_map, List.mem_range]
  constructor
  · rintro ⟨p, hp, y, hy, bc, hb, rfl⟩
    exact addr_inBuffer c buf hp hy hb
  · intro h
    obtain ⟨p, y, bc, hp, hy, hb, he⟩ := exists_addr_of_inBuffer c h
    exact ⟨p, hp, y, hy, bc, hb, he⟩

theorem inBuffer_lt_fbLen (c : Config) {buf : Bool} {a : Nat} (h : inBuffer c buf a) :
    a < c.fbLen := by
  obtain ⟨p, y, bc, hp, hy, hb, rfl⟩ := exists_addr_of_inBuffer c h
  exact addr_lt_fbLen c buf hp hy hb

/-- Clear zeroes the front buffer, leaves the rest, and keeps the canonical form (43_tick.md R208). -/
theorem clearFront_read {s : State} (h : Mem.wf s.cfg s.fb) :
    Mem.wf s.cfg (clearFront s).fb
      ∧ (∀ a, inBuffer s.cfg s.front a → memRead (clearFront s) a = 0)
      ∧ ∀ a, ¬ inBuffer s.cfg s.front a → memRead (clearFront s) a = memRead s a := by
  obtain ⟨h1, h2⟩ := foldl_memWrite_read h (as := bufferAddrs s.cfg s.front)
    (fun a ha => inBuffer_lt_fbLen s.cfg ((mem_bufferAddrs _ _ a).1 ha)) 0
  refine ⟨h1, fun a ha => ?_, fun a ha => ?_⟩
  · rw [clearFront, h2 a, if_pos ((mem_bufferAddrs _ _ a).2 ha)]
  · rw [clearFront, h2 a, if_neg (fun hm => ha ((mem_bufferAddrs _ _ a).1 hm))]

/-! ## Lists of positions -/

theorem mem_offsets {w h : Nat} {o : Nat × Nat} : o ∈ offsets w h ↔ o.1 < w ∧ o.2 < h := by
  obtain ⟨q, r⟩ := o
  simp only [offsets, List.mem_flatMap, List.mem_map, List.mem_range, Prod.mk.injEq]
  constructor
  · rintro ⟨r', hr, q', hq, rfl, rfl⟩
    exact ⟨hq, hr⟩
  · rintro ⟨hq, hr⟩
    exact ⟨r, hr, q, hq, rfl, rfl⟩

@[simp] theorem length_offsets (w h : Nat) : (offsets w h).length = w * h := by
  simp [offsets, Nat.mul_comm]

/-- The walk visits no position twice (41_pixel_and_rect.md R149). -/
theorem nodup_offsets (w h : Nat) : (offsets w h).Nodup := by
  unfold offsets
  rw [List.nodup_flatMap]
  refine ⟨fun r _ => ?_, ?_⟩
  · exact List.Nodup.map (fun a b hab => (Prod.mk.inj hab).1) List.nodup_range
  · refine List.Pairwise.imp_of_mem ?_ List.nodup_range
    intro r r' _ _ hne o ho ho'
    simp only [List.mem_map] at ho ho'
    obtain ⟨q, -, rfl⟩ := ho
    obtain ⟨q', -, he⟩ := ho'
    exact hne (Prod.mk.inj he).2.symm

theorem shift_injective (bx y : Nat) : Function.Injective (shift bx y) := fun o o' h => by
  obtain ⟨q, r⟩ := o
  obtain ⟨q', r'⟩ := o'
  simp only [shift, Prod.mk.injEq] at h ⊢
  omega

/-- The positions of a clipped rectangle are in range (41_pixel_and_rect.md R140). -/
theorem clippedRect_inRange (c : Config) (bx y bw h : Nat) :
    ∀ pos ∈ clippedRect c bx y bw h, pos.1 < c.wb ∧ pos.2 < c.h := by
  intro pos hm
  simp only [clippedRect, List.mem_map] at hm
  obtain ⟨o, ho, rfl⟩ := hm
  obtain ⟨hq, hr⟩ := mem_offsets.1 ho
  simp only [clipWidth, clipHeight, shift] at *
  split at hq <;> split at hr <;> omega

end Sys2Proof.Machine
end

