-- ==== Sys2Proof/Laws/Events.lean ====
section
/-! SUPPORT. Events between two accesses: they do not depend on the order still to come, and the access they stand in front of sees all of them. -/

namespace Sys2Proof.Machine

open Sys2Proof

/-! ## Events do not read the order of events -/

theorem withSched_foldl (as : List Nat) (x : Byte) (s : State) (l : List Turn) :
    as.foldl (fun s a => memWrite s a x) { s with sched := l }
      = { as.foldl (fun s a => memWrite s a x) s with sched := l } := by
  induction as generalizing s with
  | nil => rfl
  | cons a as ih => exact ih (memWrite s a x)

/-- `RunEndAction` does not read the order of events. -/
theorem withSched_runEndAction (s : State) (l : List Turn) :
    runEndAction { s with sched := l } = { runEndAction s with sched := l } := by
  unfold runEndAction
  dsimp only
  split
  · rfl
  · exact withSched_foldl _ _ s l
  · rfl
  · rfl

theorem withSched_swapLatch (s : State) (l : List Turn) :
    swapLatch { s with sched := l } = { swapLatch s with sched := l } := by
  unfold swapLatch; split <;> rfl

theorem withSched_brightLatch (s : State) (l : List Turn) :
    brightLatch { s with sched := l } = { brightLatch s with sched := l } := by
  unfold brightLatch; split <;> rfl

theorem withSched_idleStep (s : State) (l : List Turn) :
    idleStep { s with sched := l } = ({ (idleStep s).1 with sched := l }, (idleStep s).2) := by
  have hc : idleCounts { s with sched := l } = idleCounts s := rfl
  unfold idleStep
  rw [hc]
  split
  · dsimp only
    split
    · unfold idleFire
      dsimp only
      split
      · rfl
      · exact congrArg (fun w : State => ({ w with idleCnt := 0 }, false))
          (withSched_runEndAction { s with idleCnt := s.idleCnt + 1 } l)
    · rfl
  · rfl

theorem withSched_fadeStep (s : State) (l : List Turn) :
    fadeStep { s with sched := l } = { fadeStep s with sched := l } := by
  unfold fadeStep
  dsimp only
  split
  · rfl
  rotate_left
  · unfold fadeInStep
    dsimp only
    by_cases h : s.brCnt < s.brCfg
    · simp only [if_pos h]; split <;> rfl
    · simp only [if_neg h]; split <;> rfl
  · unfold fadeOutStep
    dsimp only
    by_cases h : 0 < s.brCnt
    · simp only [if_pos h]
      split
      · exact congrArg (fun w : State => { w with fade := .fadingIn })
          (withSched_runEndAction { s with brCnt := s.brCnt - 1 } l)
      · rfl
    · simp only [if_neg h]
      split
      · exact congrArg (fun w : State => { w with fade := .fadingIn }) (withSched_runEndAction s l)
      · rfl

theorem withSched_frameBoundary (s : State) (l : List Turn) :
    frameBoundary { s with sched := l } = { frameBoundary s with sched := l } := by
  unfold frameBoundary
  rw [withSched_swapLatch, withSched_brightLatch, withSched_idleStep]
  dsimp only
  generalize idleStep (brightLatch (swapLatch s)) = q
  split
  · rfl
  · rw [withSched_fadeStep]; rfl

theorem withSched_tickOp (s : State) (l : List Turn) :
    tickOp { s with sched := l } = { tickOp s with sched := l } := by
  unfold tickOp
  have he : emitSegment { s with sched := l } = { emitSegment s with sched := l } := rfl
  rw [he]
  generalize emitSegment s = v
  unfold advance
  split
  · rfl
  · split
    · rfl
    · unfold endPass
      dsimp only
      split
      · rfl
      · split
        · rfl
        · rfl
        · exact withSched_frameBoundary (enterPlane 2 { v with half := false, row := 0 }) l

/-- No event reads or changes the order of events. -/
theorem withSched_deliver (e : Turn) (s : State) (l : List Turn) :
    deliver e { s with sched := l } = { deliver e s with sched := l } := by
  cases e with
  | tick => exact withSched_tickOp s l
  | _ => rfl

/-- Only a reset ends the operation in progress (70_reset_and_hazards.md R270). -/
theorem deliver_running {e : Turn} (he : e ≠ .reset) (s : State) :
    isRunning (deliver e s) = isRunning s := by
  simp [isRunning, deliver_port, he]

theorem deliverAll_sched (evs : List Turn) (s : State) : (deliverAll evs s).sched = s.sched := by
  induction evs generalizing s with
  | nil => rfl
  | cons e evs ih => exact (ih (deliver e s)).trans (deliver_sched e s)

theorem deliverAll_running {evs : List Turn} (he : ∀ e ∈ evs, e ≠ .reset) (s : State) :
    isRunning (deliverAll evs s) = isRunning s := by
  induction evs generalizing s with
  | nil => rfl
  | cons e evs ih =>
    exact (ih (fun x hx => he x (by simp [hx])) (deliver e s)).trans
      (deliver_running (he e (by simp)) s)

theorem deliverAll_cfg (evs : List Turn) (s : State) : (deliverAll evs s).cfg = s.cfg := by
  induction evs generalizing s with
  | nil => rfl
  | cons e evs ih => exact (ih (deliver e s)).trans (deliver_cfg e s)

/-! ## Events keep the canonical form of memory -/

theorem runEndAction_wf {s : State} (h : Mem.wf s.cfg s.fb) : Mem.wf s.cfg (runEndAction s).fb := by
  unfold runEndAction
  split
  · exact h
  · exact (clearFront_read h).1
  · exact h
  · exact h

theorem idleStep_wf {s : State} (h : Mem.wf s.cfg s.fb) : Mem.wf s.cfg (idleStep s).1.fb := by
  unfold idleStep
  split
  · dsimp only
    split
    · unfold idleFire
      split
      · exact h
      · exact runEndAction_wf (s := { s with idleCnt := s.idleCnt + 1 }) h
    · exact h
  · exact h

theorem fadeOutStep_wf {s : State} (h : Mem.wf s.cfg s.fb) :
    Mem.wf s.cfg (fadeOutStep s).fb := by
  unfold fadeOutStep
  dsimp only
  by_cases hb : 0 < s.brCnt
  · simp only [if_pos hb]
    split
    · exact runEndAction_wf (s := { s with brCnt := s.brCnt - 1 }) h
    · exact h
  · simp only [if_neg hb]
    split
    · exact runEndAction_wf h
    · exact h

theorem fadeStep_wf {s : State} (h : Mem.wf s.cfg s.fb) : Mem.wf s.cfg (fadeStep s).fb := by
  unfold fadeStep
  split
  · exact h
  · exact fadeOutStep_wf h
  · rw [fadeInStep_frame]
    exact h

theorem frameBoundary_wf {s : State} (h : Mem.wf s.cfg s.fb) :
    Mem.wf s.cfg (frameBoundary s).fb := by
  have hc : (brightLatch (swapLatch s)).cfg = s.cfg := by rw [swapLatch_frame, brightLatch_frame]
  have hf : (brightLatch (swapLatch s)).fb = s.fb := by rw [swapLatch_frame, brightLatch_frame]
  have hi := idleStep_wf (s := brightLatch (swapLatch s)) (by rw [hc, hf]; exact h)
  have hci : (idleStep (brightLatch (swapLatch s))).1.cfg = s.cfg := by rw [idleStep_frame, hc]
  rw [hc] at hi
  unfold frameBoundary
  dsimp only
  split
  · exact hi
  · have := fadeStep_wf (s := (idleStep (brightLatch (swapLatch s))).1) (by rw [hci]; exact hi)
    rwa [hci] at this

theorem tickOp_wf {s : State} (h : Mem.wf s.cfg s.fb) : Mem.wf s.cfg (tickOp s).fb := by
  unfold tickOp
  rcases advance_cases (emitSegment s) with
    ⟨-, e⟩ | ⟨-, -, e⟩ | ⟨-, -, -, e⟩ | ⟨-, -, -, -, e⟩ | ⟨-, -, -, -, e⟩ | ⟨-, -, -, -, e⟩
  all_goals rw [e]
  case inr.inr.inr.inr.inr => exact frameBoundary_wf h
  all_goals exact h

theorem deliver_wf {s : State} (h : Mem.wf s.cfg s.fb) (e : Turn) :
    Mem.wf s.cfg (deliver e s).fb := by
  cases e with
  | tick => exact tickOp_wf h
  | reset => exact Mem.wf_nil s.cfg
  | _ => exact h

/-- Events keep the canonical form of memory. -/
theorem deliverAll_wf {s : State} (h : Mem.wf s.cfg s.fb) (evs : List Turn) :
    Mem.wf s.cfg (deliverAll evs s).fb := by
  induction evs generalizing s with
  | nil => exact h
  | cons e evs ih =>
    have := ih (s := deliver e s) (by rw [deliver_cfg]; exact deliver_wf h e)
    rwa [deliver_cfg] at this

/-! ## An access and the events in front of it -/

/-- Events that end no operation are delivered in order in front of the port's turn (20_memory.md R74). -/
theorem pause_of_events {evs tl : List Turn} {s : State} (hr : isRunning s = true)
    (he : ∀ e ∈ evs, e ≠ .port ∧ e ≠ .reset) (ht : ∀ e ∈ tl.take 1, e = .port)
    (hs : s.sched = evs ++ tl) :
    pause s = deliverAll evs { s with sched := tl.drop 1 } := by
  rw [pause, if_pos hr, hs]
  clear hs
  induction evs generalizing s with
  | nil =>
    cases tl with
    | nil => rfl
    | cons e tl =>
      have : e = .port := ht e (by simp)
      simp [pauseTurns, this, deliverAll]
  | cons e evs ih =>
    obtain ⟨h1, h2⟩ := he e (by simp)
    have hrun : isRunning (deliver e { s with sched := evs ++ tl }) = true := by
      rw [deliver_running h2]; exact hr
    simp only [List.cons_append, pauseTurns, if_neg h1, hrun, if_true]
    rw [ih hrun (fun x hx => he x (by simp [hx])), withSched_deliver]
    simp only [deliverAll, List.foldl_cons, withSched_deliver]

/-- A read sees every event in front of it. -/
theorem busRead_of_events {evs tl : List Turn} {s : State} (hr : isRunning s = true)
    (he : ∀ e ∈ evs, e ≠ .port ∧ e ≠ .reset) (ht : ∀ e ∈ tl.take 1, e = .port)
    (hs : s.sched = evs ++ tl) (a : Nat) :
    busRead a s
      = (memRead (deliverAll evs { s with sched := tl.drop 1 }) a,
          deliverAll evs { s with sched := tl.drop 1 }) := by
  simp only [busRead, pause_of_events hr he ht hs]

/-- A write is made over what the events in front of it left. -/
theorem busWrite_of_events {evs tl : List Turn} {s : State} (hr : isRunning s = true)
    (he : ∀ e ∈ evs, e ≠ .port ∧ e ≠ .reset) (ht : ∀ e ∈ tl.take 1, e = .port)
    (hs : s.sched = evs ++ tl) (a : Nat) (x : Byte) :
    busWrite a x s = memWrite (deliverAll evs { s with sched := tl.drop 1 }) a x := by
  have hrun : isRunning (deliverAll evs { s with sched := tl.drop 1 }) = true := by
    rw [deliverAll_running (fun e h => (he e h).2)]; exact hr
  simp only [busWrite, pause_of_events hr he ht hs, hrun, if_true]

end Sys2Proof.Machine
end

