-- ==== Sys2Proof/Laws/PerInstr.lean ====
section
/-! SUPPORT. Statements about every operation as syntax, one lemma per constructor. -/

namespace Sys2Proof.Laws

open Sys2Proof

namespace EncodedLength

/-- The bytes R98 of 30_encoding.md gives an operation: its header and its operands; TICK has none (R103). -/
def byteCount : Instr → Nat
  | .query _ => 1
  | .bright _ => 2
  | .swap => 1
  | .rdrect _ _ _ _ _ => 5
  | .wrrect _ _ _ _ _ => 5
  | .cprect _ _ _ _ _ _ _ _ => 7
  | .flrect _ _ _ _ _ _ => 5
  | .setpx _ _ _ _ => 3
  | .getpx _ _ _ => 3
  | .holds _ _ _ => 4
  | .idle _ _ _ => 2
  | .idlerst => 1
  | .outen _ => 1
  | .enc _ _ => 3
  | .dec _ _ _ => 4
  | .clrfc => 1
  | .tick => 0

/-- The encoder writes as many bytes as R98 says; an encodable operation has at least its header. -/
def Statement (i : Instr) : Prop :=
  (encode i).length = byteCount i ∧ (i.isCommand = true ↔ encode i ≠ [])

theorem query (r : BitVec 4) : Statement (.query r) := ⟨rfl, by simp [Instr.isCommand, encode]⟩

theorem bright (level : Byte) : Statement (.bright level) :=
  ⟨rfl, by simp [Instr.isCommand, encode]⟩

theorem swap : Statement .swap := ⟨rfl, by simp [Instr.isCommand, encode]⟩

theorem rdrect (t : Target) (bx y bw h : Byte) : Statement (.rdrect t bx y bw h) :=
  ⟨rfl, by simp [Instr.isCommand, encode]⟩

theorem wrrect (t : Target) (bx y bw h : Byte) : Statement (.wrrect t bx y bw h) :=
  ⟨rfl, by simp [Instr.isCommand, encode]⟩

theorem cprect (src dst : Target) (sbx sy bw h dbx dy : Byte) :
    Statement (.cprect src dst sbx sy bw h dbx dy) := ⟨rfl, by simp [Instr.isCommand, encode]⟩

theorem flrect (t : Target) (v : BitVec 2) (bx y bw h : Byte) : Statement (.flrect t v bx y bw h) :=
  ⟨rfl, by simp [Instr.isCommand, encode]⟩

theorem setpx (t : Target) (v : BitVec 2) (x y : Byte) : Statement (.setpx t v x y) :=
  ⟨rfl, by simp [Instr.isCommand, encode]⟩

theorem getpx (t : Target) (x y : Byte) : Statement (.getpx t x y) :=
  ⟨rfl, by simp [Instr.isCommand, encode]⟩

theorem holds (a b c : Byte) : Statement (.holds a b c) := ⟨rfl, by simp [Instr.isCommand, encode]⟩

theorem idle (f : Bool) (aa : EndAct) (trig : Byte) : Statement (.idle f aa trig) :=
  ⟨rfl, by simp [Instr.isCommand, encode]⟩

theorem idlerst : Statement .idlerst := ⟨rfl, by simp [Instr.isCommand, encode]⟩

theorem outen (e : Bool) : Statement (.outen e) := ⟨rfl, by simp [Instr.isCommand, encode]⟩

theorem enc (low high : Byte) : Statement (.enc low high) :=
  ⟨rfl, by simp [Instr.isCommand, encode]⟩

theorem dec (p0 p1 p2 : Byte) : Statement (.dec p0 p1 p2) :=
  ⟨rfl, by simp [Instr.isCommand, encode]⟩

theorem clrfc : Statement .clrfc := ⟨rfl, by simp [Instr.isCommand, encode]⟩

theorem tick : Statement .tick := ⟨rfl, by simp [Instr.isCommand, encode]⟩

end EncodedLength

end Sys2Proof.Laws
end

