-- ==== Sys2Proof/Tests/Slice0.lean ====
section
/-! SUPPORT. Tests with values from the spec's vectors (95_test_vectors.md) or worked out by hand from its rules, and a witness for the hypotheses of every statement. -/

namespace Sys2Proof.Tests

open Sys2Proof Sys2Proof.Machine

/-! ## Helpers -/

/-- CFG_T right after reset. -/
def tiny : State := State.resetOf Config.tiny

/-- CFG_A right after reset, with a zero back buffer (the start of 95_test_vectors.md sections 2.2 to 2.5). -/
def wide : State :=
  State.resetOf { Config.badge with resetBack := List.replicate 216 0 }

/-- The state an outcome answers. -/
def after (o : Host.Outcome State Fault Refusal) : State :=
  match o with
  | .next s => s
  | .fault _ => tiny
  | .refused _ => tiny

/-- CFG_T at the last segment of a frame: the next TICK runs the frame boundary. -/
def lastSegment : State := { tiny with half := true, row := 1, plane := 0 }

/-! ## Well-formedness -/

theorem test_query_id_seven_is_ill_formed : Instr.wf (.query 7) = false := by decide
theorem test_tick_is_not_encodable : Instr.encodable .tick = false := by decide
theorem test_query_id_six_is_well_formed : Instr.encodable (.query 6) = true := by decide

/-! ## Decoding: words written out from 30_encoding.md R96 -/

theorem test_decode_query : decode [0b00010110] = .ok (.query 6, []) := by decide
theorem test_decode_bright : decode [0b00100000, 10] = .ok (.bright 10, []) := by decide
theorem test_decode_swap : decode [0b00110000] = .ok (.swap, []) := by decide
theorem test_decode_rdrect :
    decode [0b01000001, 5, 11, 2, 3] = .ok (.rdrect .front 5 11 2 3, []) := by decide
theorem test_decode_wrrect :
    decode [0b01010000, 1, 2, 3, 4, 0x5A] = .ok (.wrrect .back 1 2 3 4, [0x5A]) := by decide
theorem test_decode_cprect :
    decode [0b01100010, 1, 2, 3, 4, 5, 6] = .ok (.cprect .back .front 1 2 3 4 5 6, []) := by decide
theorem test_decode_flrect :
    decode [0b01111101, 5, 0, 1, 2] = .ok (.flrect .front 3 5 0 1 2, []) := by decide
theorem test_decode_setpx :
    decode [0b10001000, 13, 1] = .ok (.setpx .back 2 13 1, []) := by decide
theorem test_decode_getpx : decode [0b10010001, 13, 1] = .ok (.getpx .front 13 1, []) := by decide
theorem test_decode_holds : decode [0b10100000, 1, 2, 3] = .ok (.holds 1 2 3, []) := by decide
theorem test_decode_idle : decode [0b10110101, 1] = .ok (.idle true .restart 1, []) := by decide
theorem test_decode_idlerst : decode [0b11000000] = .ok (.idlerst, []) := by decide
theorem test_decode_outen : decode [0b11010001] = .ok (.outen true, []) := by decide
theorem test_decode_enc : decode [0b11100000, 1, 0x80] = .ok (.enc 1 0x80, []) := by decide
theorem test_decode_dec : decode [0b11100001, 1, 2, 3] = .ok (.dec 1 2 3, []) := by decide
theorem test_decode_clrfc : decode [0b11110000] = .ok (.clrfc, []) := by decide
/-- The table's one-bit `tick` line, alone or rounded up to a byte (R103), while the header byte 0x01 is illegal (R97). -/
theorem test_decode_tick :
    decodeTableWord 1 1 = some .tick ∧ decodeTableWord 8 1 = some .tick
      ∧ decode [0x01] = .error (.badCommand 0x01) := by decide

theorem test_illegal_headers_are_rejected :
    decode [0x05, 0x14] = .error (.badCommand 0x05)
      ∧ decode [0x17] = .error (.badCommand 0x17)
      ∧ decode [0x72, 0, 0, 0, 0] = .error (.badCommand 0x72)
      ∧ decode [0xE2, 1, 2, 3] = .error (.badCommand 0xE2)
      ∧ decode [0xF1] = .error (.badCommand 0xF1) := by decide

/-- No header fits two rows of the opcode map. -/
theorem test_opcode_rows_do_not_overlap :
    opTable.Pairwise (fun r r' => r.pat &&& r'.mask ≠ r'.pat &&& r.mask) := by decide

theorem test_truncated_command_is_told : decode [0x40, 1, 2] = .error (.truncated 2) := by decide

/-- A table word shorter than the command reads as zeros above its bits. -/
theorem test_table_word_operands_are_zero :
    decodeTableWord 8 0x7C = some (.flrect .back 3 0 0 0 0)
      ∧ decodeTableWord 56 0x0B040102000062
          = some (.cprect .back .front 0 0 2 1 4 11)
      ∧ decodeTableWord 8 0x05 = none := by decide

theorem test_fetch_word_runs_next :
    (after (step (State.reset.withFetchWord 8 0x30))).swapPend = true
      ∧ (after (step (State.reset.withFetchWord 16 0xC820))).brReq = 200
      ∧ (after (step (State.reset.withFetchWord 1 1))).half = true := by decide

/-! ## One step of each operation -/

/-- V60. -/
theorem test_query_status_after_reset : (after (exec (.query 4) tiny)).resp = [0x08] := by decide
theorem test_query_reserved_id :
    (after (step { tiny with stream := [0x17, 0x14] })).errs = [0x17]
      ∧ (after (step { tiny with stream := [0x17, 0x14] })).stream = [0x14] := by decide

/-- V61. -/
theorem test_bright_is_latched :
    (after (exec (.bright 200) tiny)).brCfg = 10
      ∧ (after (exec (.query 4) (after (exec (.bright 200) tiny)))).resp = [0x0A] := by decide

theorem test_swap_holds_port :
    (after (step (after (step { tiny with stream := [0x30, 0x14] })))).stream = [0x14] := by decide

/-- R143 on CFG_T: block column 1, lane 5, addresses 15, 19, 23 of the back buffer. -/
theorem test_setpx_writes_three_planes :
    (after (exec (.setpx .back 2 13 1) tiny)).fb = [(15, 0x20), (19, 0x20)] := by decide
/-- R143: the write a pixel already holds leaves canonical memory empty again. -/
theorem test_setpx_back_to_reset_value :
    (after (exec (.setpx .back 0 13 1) (after (exec (.setpx .back 2 13 1) tiny)))).fb = [] := by
  decide

/-- V11 and V22 on CFG_T: the front buffer is another one. -/
theorem test_getpx_reads_target :
    (after (exec (.getpx .back 13 1) (after (exec (.setpx .back 2 13 1) tiny)))).resp = [2]
      ∧ (after (exec (.getpx .front 13 1) (after (exec (.setpx .back 2 13 1) tiny)))).resp
          = [0] := by decide

/-- V32 on CFG_T: only the first block of the rectangle is in range. -/
theorem test_rdrect_pads_clipped_blocks :
    (after (exec (.rdrect .back 1 1 2 2) { tiny with fb := [(15, 0x33), (19, 0x22)] })).resp
      = [0x11, 0x22, 0, 0, 0, 0, 0, 0] := by decide

/-- V30 on CFG_T. -/
theorem test_wrrect_encodes :
    (after (exec (.wrrect .back 0 0 1 1) { tiny with stream := [0x5A, 0x3C] })).fb
      = [(12, 0x7E), (16, 0x3C), (20, 0x18)] := by decide
/-- V31 on CFG_T: all eight data bytes are taken, one block is written. -/
theorem test_wrrect_takes_all_data :
    (after (exec (.wrrect .back 1 1 2 2)
        { tiny with stream := [0x11, 0x22, 0x33, 0x44, 0x55, 0x66, 0x77, 0x88, 0x14] })).stream
      = [0x14]
      ∧ (after (exec (.wrrect .back 1 1 2 2)
        { tiny with stream := [0x11, 0x22, 0x33, 0x44, 0x55, 0x66, 0x77, 0x88, 0x14] })).fb
      = [(15, 0x33), (19, 0x22)] := by decide

/-- V52. -/
theorem test_cprect_overlap_is_snapshot :
    (after (exec (.cprect .back .back 0 0 2 1 1 0)
        { wide with fb := [(216, 1), (217, 2), (218, 3)] })).fb
      = [(216, 1), (217, 1), (218, 2)] := by decide
/-- V50. -/
theorem test_cprect_back_to_front :
    (after (exec (.cprect .back .front 0 0 2 1 4 11)
        { wide with fb := [(216, 0x7E), (217, 0xFF), (288, 0x3C), (360, 0x18)] })).fb
      = [(70, 0x7E), (71, 0xFF), (142, 0x3C), (214, 0x18), (216, 0x7E), (217, 0xFF), (288, 0x3C),
          (360, 0x18)] := by decide

/-- V40. -/
theorem test_flrect_clips :
    (after (exec (.flrect .back 3 4 10 9 9) wide)).fb
      = [(280, 0xFF), (281, 0xFF), (286, 0xFF), (287, 0xFF), (352, 0xFF), (353, 0xFF), (358, 0xFF),
          (359, 0xFF), (424, 0xFF), (425, 0xFF), (430, 0xFF), (431, 0xFF)] := by decide

/-- S2. -/
theorem test_holds_reads_back :
    (after (exec (.query 1) (after (exec (.holds 0 0xFF 0x10) tiny)))).resp = [0x00, 0xFF, 0x10]
      ∧ (after (exec (.holds 0 0xFF 0x10) tiny)).holdRem = 1 := by decide

/-- V63. -/
theorem test_idle_reads_back :
    (after (exec (.query 2) (after (exec (.idle true .clear 2) tiny)))).resp = [0x03, 0x02]
      ∧ (after (exec (.query 2) (after (exec (.idle false .resume 255) tiny)))).resp
          = [0x06, 0xFF] := by decide

theorem test_idlerst_zeroes_counter :
    (after (exec .idlerst { tiny with idleCnt := 2 })).idleCnt = 0 := by decide

/-- V65. -/
theorem test_outen_darkens :
    (after (exec (.query 6) (after (exec (.outen false) tiny)))).resp = [0]
      ∧ ((after (exec .tick (after (exec (.outen false) tiny)))).segs.map Seg.level) = [0] := by
  decide

theorem test_enc_example : (after (exec (.enc 0x5A 0x3C) tiny)).resp = [0x7E, 0x3C, 0x18] := by
  decide
/-- V1. -/
theorem test_dec_inconsistent : (after (exec (.dec 0x00 0x01 0x00) tiny)).resp = [0x01, 0x01] := by
  decide

theorem test_clrfc_clears_mark :
    (after (exec .clrfc { tiny with frameChg := true })).frameChg = false := by decide

/-- R201's example. -/
theorem test_tick_emits_first_segment :
    (after (exec .tick { tiny with fb := [(10, 0x81), (11, 0x7E)] })).segs
      = [{ row := 1, side := false, data := [0x81], level := 10 }] := by decide
/-- Tick 12 of S3. -/
theorem test_tick_serves_requests_at_boundary :
    (after (exec .tick { lastSegment with swapPend := true, brPend := true, brReq := 200 })).front
        = true
      ∧ (after (exec .tick
          { lastSegment with swapPend := true, brPend := true, brReq := 200 })).brCfg = 200
      ∧ (after (exec .tick
          { lastSegment with swapPend := true, brPend := true, brReq := 200 })).plane = 2 := by
  decide

/-- R74: a TICK between two writes of a front-buffer operation sees the first and not the second.
Its plane is 2, whose byte is the last one written. -/
theorem test_tick_between_accesses_sees_old_byte :
    ((after (exec (.setpx .front 3 0 1)
        { tiny with sched := [.port, .port, .port, .port, .port, .tick, .port] })).segs.map Seg.data)
      = [[0x00]]
      ∧ ((after (exec (.setpx .front 3 0 1) tiny)).fb) = [(2, 1), (6, 1), (10, 1)] := by decide

/-- R146, R270: a reset in front of WRRECT's second block leaves the bytes after that block's pair. -/
theorem test_reset_inside_wrrect_keeps_later_bytes :
    (after (exec (.wrrect .front 0 0 2 1)
      { tiny with
        stream := [1, 2, 3, 4, 0x14]
        sched := [.port, .port, .port, .reset] })).stream = [0x14]
      ∧ (after (exec (.wrrect .front 0 0 2 1)
      { tiny with
        stream := [1, 2, 3, 4, 0x14]
        sched := [.port, .port, .reset] })).stream = [3, 4, 0x14] := by decide

/-- The eight-bit hold counter never counts a 0 down (R202, V81). -/
theorem test_hold_zero_is_one_pass :
    (after (exec .tick { lastSegment with plane := 2, holdRem := 0 })).plane = 1 := by decide

/-! ## Witnesses: states and operands that meet the hypotheses of the statements -/

theorem tiny_valid : Config.tiny.Valid where
  wMod := by decide
  wLow := by decide
  wHigh := by decide
  hLow := by decide
  hHigh := by decide
  rowLength := by decide
  rowRange := by decide
  rowDistinct := by decide
  imageLength := by decide
  imageConsistent := by decide

theorem tiny_inv : MachineInv tiny where
  config := tiny_valid
  rowInRange := by decide
  idleBelow := by decide
  memory := by decide
  heldIdle := by decide
  port := trivial

/-- The invariant of a state of CFG_T between commands, from its five fields that matter. -/
theorem inv_of_idle {s : State} (hc : s.cfg = Config.tiny) (hr : s.row.toNat < 2)
    (hi : s.idleCnt.toNat ≤ 254) (hm : Mem.wf Config.tiny s.fb) (hp : s.port = .idle) : MachineInv s where
  config := hc ▸ tiny_valid
  rowInRange := by rw [hc]; exact hr
  idleBelow := hi
  memory := by rw [hc]; exact hm
  heldIdle := fun _ => hp
  port := by rw [hp]; trivial

/-- A frame boundary of CFG_T comes next in a state whose cursor stands at the last segment. -/
theorem boundary_of_cursor {s : State} (hc : s.cfg = Config.tiny) (hh : s.half = true)
    (hr : s.row = 1) (hp : s.plane = 0) (hq : s.holdRem = 1) : boundaryNext s := by
  refine ⟨hh, ?_, ?_, hp⟩
  · rw [hc, hr]; decide
  · rw [hq]; decide

/-! ### Encoding and codec -/

theorem witness_DecodeInvertsEncode : Instr.encodable (.query 6) = true := by decide
theorem witness_EncodeInvertsDecode :
    decode [0x88, 0x0D, 0x01, 0x14] = .ok (.setpx .back 2 13 1, [0x14]) := by decide
theorem witness_ReencodingReturnsExactlyConsistentPlanes :
    (Planes.mk 0x00 0x00 0x80).p0.getLsbD 7 = false
      ∧ (Planes.mk 0x00 0x00 0x80).p1.getLsbD 7 = false
      ∧ (Planes.mk 0x00 0x00 0x80).p2.getLsbD 7 = true
      ∧ (Planes.mk 0x00 0x80 0x00).p1.getLsbD 7 = true
      ∧ (Planes.mk 0x00 0x80 0x80).p2.getLsbD 7 = true
      ∧ (Planes.mk 0x80 0x00 0x80).p0.getLsbD 7 = true := by decide
theorem witness_CodecLanesAreIndependent :
    (Gray.mk 0x80 0x01).low.getLsbD 7 = (Gray.mk 0xC0 0x00).low.getLsbD 7
      ∧ (Gray.mk 0x80 0x01).high.getLsbD 7 = (Gray.mk 0xC0 0x00).high.getLsbD 7
      ∧ (Planes.mk 0x01 0x02 0x04).p0.getLsbD 7 = (Planes.mk 0x00 0x00 0x00).p0.getLsbD 7
      ∧ (Planes.mk 0x01 0x02 0x04).p1.getLsbD 7 = (Planes.mk 0x00 0x00 0x00).p1.getLsbD 7
      ∧ (Planes.mk 0x01 0x02 0x04).p2.getLsbD 7 = (Planes.mk 0x00 0x00 0x00).p2.getLsbD 7 := by
  decide

/-! ### Engine requests -/

theorem witness_QueryReservedIdsRaiseBadCommand :
    7 ≤ (7 : BitVec 4).toNat ∧ 7 ≤ (15 : BitVec 4).toNat := by decide

/-! ### Memory -/

/-- The last position and the last address of CFG_T. -/
theorem witness_AddressFunctionIsBijection :
    2 < 3 ∧ 1 < Config.tiny.h ∧ 1 < Config.tiny.wb ∧ 23 < Config.tiny.fbLen
      ∧ addr Config.tiny true 2 1 1 = 23
      ∧ Config.tiny.powerOnImage[addr Config.tiny false 2 1 1]? = some 0
      ∧ Config.tiny.resetBack[addr Config.tiny false 2 1 1]? = some 0 := by decide
/-- An empty and a non-empty clipped rectangle of CFG_T. -/
theorem witness_ClippedRectangleIsItsInRangePart :
    (1, 1) ∈ clippedRect Config.tiny 1 1 255 255 ∧ clippedRect Config.tiny 2 0 1 1 = []
      ∧ clippedRect Config.tiny 0 2 1 1 = [] ∧ clippedRect Config.tiny 0 0 0 1 = [] := by decide
theorem witness_EqualReadsAreEqualMemories :
    Mem.wf Config.tiny [(0, 1), (23, 0xFF)] ∧ Mem.wf Config.tiny []
      ∧ ∀ a, Mem.find (resetByte Config.tiny) [(0, 1), (23, 0xFF)] a
          = Mem.find (resetByte Config.tiny) [(0, 1), (23, 0xFF)] a :=
  ⟨by decide, by decide, fun _ => rfl⟩

/-! ### Pixels and rectangles -/

/-- CFG_T with an order of events whose first 48 entries are the port's. -/
def busy : State := { tiny with sched := List.replicate 48 .port ++ [.tick, .reset] }

theorem undisturbed_busy {n : Nat} (h : n ≤ 48) : Undisturbed n busy := fun e he => by
  have hp : List.take n busy.sched <+: List.take 48 busy.sched := List.take_prefix_take_left h
  have h48 : List.take 48 busy.sched = List.replicate 48 .port := by decide
  exact List.eq_of_mem_replicate (h48 ▸ hp.subset he)

theorem witness_SetpxWritesOneLane :
    busy.cfg.Valid ∧ Mem.wf busy.cfg busy.fb ∧ (15 : Byte).toNat < busy.cfg.w
      ∧ (1 : Byte).toNat < busy.cfg.h ∧ Undisturbed 6 busy :=
  ⟨tiny_valid, by decide, by decide, by decide, undisturbed_busy (by decide)⟩
theorem witness_PixelsOutOfRangeAreNoOps :
    tiny.cfg.w ≤ (16 : Byte).toNat ∧ tiny.cfg.h ≤ (2 : Byte).toNat := by decide
theorem witness_GetpxAnswersPixelValue :
    (15 : Byte).toNat < busy.cfg.w ∧ (1 : Byte).toNat < busy.cfg.h ∧ Undisturbed 3 busy :=
  ⟨by decide, by decide, undisturbed_busy (by decide)⟩
theorem witness_PixelSetReadsBack :
    busy.cfg.Valid ∧ Mem.wf busy.cfg busy.fb ∧ (0 : Byte).toNat < busy.cfg.w
      ∧ (0 : Byte).toNat < busy.cfg.h ∧ Undisturbed 9 busy :=
  ⟨tiny_valid, by decide, by decide, by decide, undisturbed_busy (by decide)⟩
theorem witness_RdrectAnswersEveryBlock :
    accessCount busy.cfg (.rdrect .back 0 0 255 255) = 12
      ∧ Undisturbed (accessCount busy.cfg (.rdrect .back 0 0 255 255)) busy :=
  ⟨by decide, undisturbed_busy (by decide)⟩
theorem witness_FlrectFillsClippedRectangle :
    Mem.wf busy.cfg busy.fb ∧ Undisturbed (accessCount busy.cfg (.flrect .front 3 1 1 9 9)) busy
      ∧ 0 < clipWidth busy.cfg 1 9 ∧ 0 < clipHeight busy.cfg 1 9
      ∧ ¬ inRect busy.cfg false 1 1 (clipWidth busy.cfg 1 9) (clipHeight busy.cfg 1 9) 12 := by
  refine ⟨by decide, undisturbed_busy (by decide), by decide, by decide, ?_⟩
  rintro ⟨p, q, r, hp, hq, hr, he⟩
  have hq' : q < 1 := hq
  have hr' : r < 1 := hr
  have he' : 12 = 0 * 12 + p * 4 + (1 + r) * 2 + (1 + q) := he
  omega
/-- The last block of the clipped rectangle and its data pair. -/
theorem witness_WrrectStoresEncodedData :
    Mem.wf busy.cfg busy.fb
      ∧ dataCount 2 1 ≤ { busy with stream := [1, 2, 3, 4] }.stream.length
      ∧ Undisturbed (accessCount busy.cfg (.wrrect .back 0 1 2 1)) { busy with stream := [1, 2, 3, 4] }
      ∧ 1 < clipWidth busy.cfg 0 2 ∧ 0 < clipHeight busy.cfg 1 1
      ∧ ([1, 2, 3, 4] : List Byte)[2 * (0 * 2 + 1)]? = some 3
      ∧ ([1, 2, 3, 4] : List Byte)[2 * (0 * 2 + 1) + 1]? = some 4 := by
  refine ⟨by decide, by decide, ?_, by decide, by decide, by decide, by decide⟩
  exact undisturbed_busy (by decide)
/-- Data that ends on a pair and data that ends inside one. -/
theorem witness_WrrectDataMayArriveInPieces :
    { tiny with stream := [1, 2] }.sched = [] ∧ { tiny with stream := [1, 2] }.swapPend = false
      ∧ { tiny with stream := [1, 2] }.stream.length < dataCount 2 1
      ∧ { tiny with stream := [1, 2, 3] }.stream.length < dataCount 2 1 := by decide
theorem witness_CprectCopiesSnapshot :
    Mem.wf busy.cfg busy.fb
      ∧ Undisturbed (accessCount busy.cfg (.cprect .back .front 0 0 2 2 0 0)) busy
      ∧ 1 < min (clipWidth busy.cfg 0 2) (clipWidth busy.cfg 0 2) :=
  ⟨by decide, undisturbed_busy (by decide), by decide⟩

/-! ### Interleaving -/

/-- Two ticks inside a back-buffer write, the first one a frame boundary. -/
theorem witness_BackBufferOperationsActAsAtomic :
    MachineInv { lastSegment with sched := [.port, .tick, .animPlaying true, .port, .tick] }
      ∧ { lastSegment with sched := [.port, .tick, .animPlaying true, .port, .tick] }.swapPend = false
      ∧ backOnly (.setpx .back 3 0 0)
      ∧ dataReady { lastSegment with sched := [.port, .tick, .animPlaying true, .port, .tick] }
          (.setpx .back 3 0 0)
      ∧ ∀ e ∈ [Turn.port, .tick, .animPlaying true, .port, .tick], e = Turn.port ∨ scanEvent e := by
  refine ⟨inv_of_idle rfl (by decide) (by decide) (by decide) rfl, rfl, rfl, trivial, ?_⟩
  intro e he
  fin_cases he <;> simp [scanEvent]
/-- An order with one event in front of access `k` of an operation. -/
def eventAt (k : Nat) (e : Turn) (s : State) : State :=
  { s with sched := List.replicate k .port ++ ([e] ++ [.port, .port, .port]) }

theorem eventsAt_eventAt {n k : Nat} {e : Turn} {s : State} (hk : k < n) (he : e ≠ .port ∧ e ≠ .reset) :
    eventsAt n k [e] [.port, .port, .port] (eventAt k e s) := by
  refine ⟨hk, rfl, by simpa using he, fun x hx => ?_⟩
  have := List.mem_of_mem_take hx
  simpa using this

/-- A TICK in front of the first access, of the write of plane 0 and of the last access. -/
theorem witness_SetpxMeetsEventsBetweenAccesses :
    tiny.cfg.Valid ∧ Mem.wf tiny.cfg tiny.fb ∧ (15 : Byte).toNat < tiny.cfg.w
      ∧ (1 : Byte).toNat < tiny.cfg.h
      ∧ eventsAt 6 0 [.tick] [.port, .port, .port] (eventAt 0 .tick tiny)
      ∧ eventsAt 6 1 [.tick] [.port, .port, .port] (eventAt 1 .tick tiny)
      ∧ eventsAt 6 5 [.tick] [.port, .port, .port] (eventAt 5 .tick tiny) :=
  ⟨tiny_valid, by decide, by decide, by decide, eventsAt_eventAt (by decide) (by decide),
    eventsAt_eventAt (by decide) (by decide), eventsAt_eventAt (by decide) (by decide)⟩
theorem witness_ReadsMeetEventsBetweenAccesses :
    (15 : Byte).toNat < tiny.cfg.w ∧ (1 : Byte).toNat < tiny.cfg.h
      ∧ eventsAt 3 0 [.collect] [.port, .port, .port] (eventAt 0 .collect tiny)
      ∧ eventsAt 3 2 [.tick] [.port, .port, .port] (eventAt 2 .tick tiny)
      ∧ eventsAt (accessCount tiny.cfg (.rdrect .front 0 0 255 255)) 11 [.tick]
          [.port, .port, .port] (eventAt 11 .tick tiny) :=
  ⟨by decide, by decide, eventsAt_eventAt (by decide) (by decide),
    eventsAt_eventAt (by decide) (by decide), eventsAt_eventAt (by decide) (by decide)⟩
theorem witness_FlrectMeetsEventsBetweenAccesses :
    Mem.wf tiny.cfg tiny.fb
      ∧ eventsAt (accessCount tiny.cfg (.flrect .front 3 0 0 2 2)) 0 [.tick] [.port, .port, .port]
          (eventAt 0 .tick tiny)
      ∧ eventsAt (accessCount tiny.cfg (.flrect .front 3 0 0 2 2)) 11 [.tick] [.port, .port, .port]
          (eventAt 11 .tick tiny)
      ∧ 1 < clipWidth tiny.cfg 0 2 ∧ 1 < clipHeight tiny.cfg 0 2
      ∧ ¬ inRect tiny.cfg false 0 0 (clipWidth tiny.cfg 0 2) (clipHeight tiny.cfg 0 2) 12 := by
  refine ⟨by decide, eventsAt_eventAt (by decide) (by decide),
    eventsAt_eventAt (by decide) (by decide), by decide, by decide, ?_⟩
  rintro ⟨p, q, r, hp, hq, hr, he⟩
  have hq' : q < 2 := hq
  have hr' : r < 2 := hr
  have he' : 12 = 0 * 12 + p * 4 + (0 + r) * 2 + (0 + q) := he
  omega
/-- The last access of a two-block write, and its last data pair. -/
theorem witness_WrrectMeetsEventsBetweenAccesses :
    Mem.wf tiny.cfg tiny.fb
      ∧ dataCount 2 1 ≤ (eventAt 5 .tick { tiny with stream := [1, 2, 3, 4] }).stream.length
      ∧ eventsAt (accessCount tiny.cfg (.wrrect .front 0 1 2 1)) 0 [.tick] [.port, .port, .port]
          (eventAt 0 .tick { tiny with stream := [1, 2, 3, 4] })
      ∧ eventsAt (accessCount tiny.cfg (.wrrect .front 0 1 2 1)) 5 [.tick] [.port, .port, .port]
          (eventAt 5 .tick { tiny with stream := [1, 2, 3, 4] })
      ∧ 1 < clipWidth tiny.cfg 0 2 ∧ 0 < clipHeight tiny.cfg 1 1
      ∧ ([1, 2, 3, 4] : List Byte)[2 * (0 * 2 + 1)]? = some 3
      ∧ ([1, 2, 3, 4] : List Byte)[2 * (0 * 2 + 1) + 1]? = some 4 :=
  ⟨by decide, by decide, eventsAt_eventAt (by decide) (by decide),
    eventsAt_eventAt (by decide) (by decide), by decide, by decide, by decide, by decide⟩
/-- A TICK among the reads, one between the last read and the first write, one before the last write. -/
theorem witness_CprectMeetsEventsBetweenAccesses :
    Mem.wf tiny.cfg tiny.fb
      ∧ eventsAt (accessCount tiny.cfg (.cprect .front .front 0 0 2 1 0 1)) 5 [.tick]
          [.port, .port, .port] (eventAt 5 .tick tiny)
      ∧ eventsAt (accessCount tiny.cfg (.cprect .front .front 0 0 2 1 0 1)) 6 [.tick]
          [.port, .port, .port] (eventAt 6 .tick tiny)
      ∧ eventsAt (accessCount tiny.cfg (.cprect .front .front 0 0 2 1 0 1)) 11 [.tick]
          [.port, .port, .port] (eventAt 11 .tick tiny)
      ∧ 1 < min (clipWidth tiny.cfg 0 2) (clipWidth tiny.cfg 0 2)
      ∧ 0 < min (clipHeight tiny.cfg 0 1) (clipHeight tiny.cfg 1 1) :=
  ⟨by decide, eventsAt_eventAt (by decide) (by decide), eventsAt_eventAt (by decide) (by decide),
    eventsAt_eventAt (by decide) (by decide), by decide, by decide⟩

/-- A reset before the first access and one before the last, and one in front of WRRECT's second block. -/
theorem witness_ResetAbandonsOperationInProgress :
    0 < accessCount tiny.cfg (.setpx .front 3 0 0) ∧ 5 < accessCount tiny.cfg (.setpx .front 3 0 0)
      ∧ dataReady tiny (.setpx .front 3 0 0)
      ∧ { tiny with sched := [.reset, .port] }.sched
          = List.replicate 0 Turn.port ++ Turn.reset :: [.port]
      ∧ { tiny with sched := [.port, .port, .port, .port, .port, .reset] }.sched
          = List.replicate 5 Turn.port ++ Turn.reset :: []
      ∧ 3 < accessCount tiny.cfg (.wrrect .front 0 0 2 1)
      ∧ dataReady { tiny with stream := [1, 2, 3, 4, 0x14] } (.wrrect .front 0 0 2 1) := by
  refine ⟨by decide, by decide, trivial, by decide, by decide, by decide, ?_⟩
  show 4 ≤ 5
  decide
theorem tiny_consistent : consistent tiny := by
  intro buf bc y hb hy
  have hb' : bc < 2 := hb
  have hy' : y < 2 := hy
  revert buf
  interval_cases bc <;> interval_cases y <;> decide
theorem witness_OperationsKeepBuffersConsistent :
    tiny.cfg.Valid ∧ Mem.wf tiny.cfg tiny.fb ∧ consistent tiny
      ∧ (∀ e ∈ tiny.sched, e = Turn.port)
      ∧ ∃ u, exec (.flrect .front 2 0 0 1 1) tiny = .next u :=
  ⟨tiny_valid, by decide, tiny_consistent, by decide, _, rfl⟩

/-! ### TICK -/

theorem witness_TickEmitsScannedSegment :
    lastSegment.cfg.rowOrder[lastSegment.row.toNat]? = some 0
      ∧ tiny.cfg.rowOrder[tiny.row.toNat]? = some 1 := by decide
/-- One state for each way the cursor advances inside a frame. -/
theorem witness_TickMovesCursorWithinFrame :
    tiny.half = false
      ∧ ({ tiny with half := true }.row.toNat < tiny.cfg.h - 1)
      ∧ (tiny.cfg.h - 1 ≤ lastSegment.row.toNat ∧ lastSegment.half = true)
      ∧ 1 < { lastSegment with holdRem := 2 }.holdRem.toNat
      ∧ { lastSegment with plane := 2, holdRem := 1 }.holdRem.toNat ≤ 1
      ∧ { lastSegment with plane := 1, holdRem := 0 }.holdRem.toNat ≤ 1 := by decide
theorem witness_FrameBoundaryServesRequests : boundaryNext lastSegment :=
  boundary_of_cursor rfl rfl rfl rfl rfl
theorem witness_FrameChangedSetAtEveryBoundary :
    boundaryNext { lastSegment with swapPend := true, brPend := true } :=
  boundary_of_cursor rfl rfl rfl rfl rfl

/-- One idle frame short of the trigger 2. -/
def nearTrigger : State := { lastSegment with idleTrig := 2, idleCnt := 1 }

theorem nearTrigger_reaches : idleReaches nearTrigger := by
  refine ⟨⟨by decide, rfl, rfl, by decide, by decide⟩, by decide⟩

/-- With no fade running, and during FadingIn. -/
theorem witness_IdleTriggerBeginsFade :
    boundaryNext { nearTrigger with fadeEn := true } ∧ idleReaches { nearTrigger with fadeEn := true }
      ∧ idleReaches { nearTrigger with fadeEn := true, fade := .fadingIn } := by
  refine ⟨boundary_of_cursor rfl rfl rfl rfl rfl, nearTrigger_reaches, ?_⟩
  exact ⟨⟨by decide, rfl, rfl, by decide, by decide⟩, by decide⟩
theorem witness_IdleTriggerRunsActionWithoutFade :
    Mem.wf nearTrigger.cfg nearTrigger.fb ∧ boundaryNext nearTrigger ∧ idleReaches nearTrigger
      ∧ nearTrigger.fadeEn = false ∧ nearTrigger.fade = .none :=
  ⟨by decide, boundary_of_cursor rfl rfl rfl rfl rfl, nearTrigger_reaches, rfl, rfl⟩
/-- A counter that advances, one at its trigger, and one with the timeout off. -/
theorem witness_IdleCounterRunsWhenAllowed :
    (boundaryNext { nearTrigger with idleTrig := 3 } ∧ nearTrigger.fade = .none)
      ∧ (idleAdvances { nearTrigger with idleTrig := 3 }
          ∧ ¬ idleReaches { nearTrigger with idleTrig := 3 })
      ∧ ¬ idleAdvances { nearTrigger with idleCnt := 2 }
      ∧ ¬ idleAdvances { nearTrigger with idleTrig := 255, idleCnt := 254 } := by
  refine ⟨⟨boundary_of_cursor rfl rfl rfl rfl rfl, rfl⟩,
    ⟨⟨by decide, rfl, rfl, by decide, by decide⟩, fun h => ?_⟩, fun h => ?_, fun h => h.1 rfl⟩
  · exact absurd h.2 (by decide)
  · exact absurd h.2.2.2.2 (by decide)
/-- Fade counters 2, 1 and 0. -/
theorem witness_FadeOutCountsDownToAction :
    Mem.wf lastSegment.cfg lastSegment.fb
      ∧ boundaryNext { lastSegment with fade := .fadingOut, brCnt := 2 }
      ∧ { lastSegment with fade := .fadingOut, brCnt := 2 }.fade = .fadingOut
      ∧ 1 < (2 : Byte).toNat ∧ (1 : Byte).toNat ≤ 1 ∧ (0 : Byte).toNat ≤ 1 :=
  ⟨by decide, boundary_of_cursor rfl rfl rfl rfl rfl, rfl, by decide, by decide, by decide⟩
/-- Fade counters 8 and 9 under the target 10, and 11 above it; the trigger reached without fade-on-idle. -/
theorem witness_FadeInCountsUpToTarget :
    boundaryNext { nearTrigger with fade := .fadingIn, brCnt := 8 }
      ∧ ¬ (idleReaches { nearTrigger with fade := .fadingIn, brCnt := 8 }
          ∧ { nearTrigger with fade := .fadingIn, brCnt := 8 }.fadeEn = true)
      ∧ idleReaches { nearTrigger with fade := .fadingIn, brCnt := 8 }
      ∧ latchedBright { nearTrigger with fade := .fadingIn, brCnt := 8 } = 10
      ∧ boundaryNext { lastSegment with fade := .fadingIn, brCnt := 9 }
      ∧ ¬ idleReaches { lastSegment with fade := .fadingIn, brCnt := 9 }
      ∧ ¬ idleAdvances { lastSegment with fade := .fadingIn, brCnt := 11 } := by
  refine ⟨boundary_of_cursor rfl rfl rfl rfl rfl, fun h => absurd h.2 (by decide),
    ⟨⟨by decide, rfl, rfl, by decide, by decide⟩, by decide⟩, by decide,
    boundary_of_cursor rfl rfl rfl rfl rfl, fun h => h.1.1 rfl, fun h => h.1 rfl⟩

/-! ### Frames -/

theorem witness_FrameScansPlanesByHoldCounts : MachineInv tiny ∧ frameStart tiny :=
  ⟨tiny_inv, rfl, rfl, rfl, rfl⟩
/-- The last pixel of CFG_T holding 0, 1, 2 and 3. -/
theorem witness_GrayValueIsLitForItsWeight :
    MachineInv { tiny with fb := [(3, 0x80), (7, 0x80)] }
      ∧ frameStart { tiny with fb := [(3, 0x80), (7, 0x80)] }
      ∧ 15 < tiny.cfg.w ∧ 1 < tiny.cfg.h
      ∧ planesAt tiny tiny.front (15 / 8) 1 = ⟨0, 0, 0⟩
      ∧ planesAt { tiny with fb := [(3, 0x80)] } false (15 / 8) 1 = ⟨0x80, 0, 0⟩
      ∧ planesAt { tiny with fb := [(3, 0x80), (7, 0x80)] } false (15 / 8) 1 = ⟨0x80, 0x80, 0⟩
      ∧ planesAt { tiny with fb := [(3, 0x80), (7, 0x80), (11, 0x80)] } false (15 / 8) 1
          = ⟨0x80, 0x80, 0x80⟩
      ∧ (∀ p ∈ ([⟨0, 0, 0⟩, ⟨0x80, 0, 0⟩, ⟨0x80, 0x80, 0⟩, ⟨0x80, 0x80, 0x80⟩] : List Planes),
          p.consistent = true)
      ∧ ([⟨0, 0, 0⟩, ⟨0x80, 0, 0⟩, ⟨0x80, 0x80, 0⟩, ⟨0x80, 0x80, 0x80⟩] : List Planes).map
          (fun p => laneValue (decodeBlock p) (15 % 8)) = [0, 1, 2, 3] :=
  ⟨inv_of_idle rfl (by decide) (by decide) (by decide) rfl, ⟨rfl, rfl, rfl, rfl⟩, by decide,
    by decide, by decide, by decide, by decide, by decide, by decide, by decide⟩
theorem witness_SwapIsServedWithinOneFrame :
    MachineInv { tiny with swapPend := true } ∧ { tiny with swapPend := true }.swapPend = true :=
  ⟨inv_of_idle rfl (by decide) (by decide) (by decide) rfl, rfl⟩
theorem witness_FadeCycleTakesTwiceBrightnessFrames :
    MachineInv { tiny with fade := .fadingOut, brCnt := 10, idleTrig := 2, idleCnt := 2 }
      ∧ frameStart { tiny with fade := .fadingOut, brCnt := 10, idleTrig := 2, idleCnt := 2 }
      ∧ { tiny with brCnt := 10 }.brCnt = tiny.brCfg ∧ 1 ≤ tiny.brCfg.toNat
      ∧ (2 : Byte).toNat ≤ (2 : Byte).toNat :=
  ⟨inv_of_idle rfl (by decide) (by decide) (by decide) rfl, ⟨rfl, rfl, rfl, rfl⟩, rfl, by decide, by decide⟩

/-! ### The whole machine -/

theorem witness_ContextsWriteTheirOwnRegisters :
    Instr.idlerst ≠ .tick ∧ (∀ e ∈ tiny.sched, e = Turn.port)
      ∧ (∃ u, exec .idlerst tiny = .next u) ∧ (∃ u, exec .tick tiny = .next u)
      ∧ ¬ (tiny.endAct = .clear ∧ boundaryNext tiny) :=
  ⟨by decide, by decide, ⟨_, rfl⟩, ⟨_, rfl⟩, fun h => absurd h.1 (by decide)⟩
theorem witness_FrontChangesOnlyAtServedSwap :
    MachineInv { lastSegment with swapPend := true, sched := [.tick] }
      ∧ Turn.reset ∉ [Turn.tick]
      ∧ (after (step { lastSegment with swapPend := true, sched := [.tick] })).front
          ≠ lastSegment.front :=
  ⟨inv_of_idle rfl (by decide) (by decide) (by decide) rfl, by decide, by decide⟩
theorem witness_StepsKeepTheInvariant :
    MachineInv { tiny with sched := [.reset] } ∧ ∃ u, step { tiny with sched := [.reset] } = .next u :=
  ⟨inv_of_idle rfl (by decide) (by decide) (by decide) rfl, _, rfl⟩
theorem witness_ResetMeetsTheInvariant : Config.tiny.Valid := tiny_valid
theorem witness_OutputsAreNeverRead : ∃ u, step { tiny with sched := [.tick] } = .next u := ⟨_, rfl⟩

/-! ### Steps -/

/-- A command wholly in the stream, and one whose first bytes the port holds; with and without an order. -/
theorem witness_StepRunsDecodedCommand :
    tiny.swapPend = false ∧ tiny.port = .idle ∧ tiny.sched = []
      ∧ decode ([] ++ [0x20, 0x05, 0x14]) = .ok (.bright 5, [0x14])
      ∧ { tiny with port := .taking [0x20], sched := [.port, .tick] }.port = .taking [0x20]
      ∧ decode ([0x20] ++ [0x05, 0x14]) = .ok (.bright 5, [0x14]) := by decide
theorem witness_StepRaisesBadCommand :
    tiny.swapPend = false ∧ tiny.port = .idle ∧ tiny.sched = []
      ∧ { tiny with stream := [0x17, 0x14] }.stream = 0x17 :: [0x14]
      ∧ illegalHeader 0x17 = true ∧ illegalHeader 0xFF = true ∧ illegalHeader 0x00 = true := by
  decide
theorem witness_IncompleteCommandWaits :
    tiny.swapPend = false ∧ tiny.sched = [] ∧ tiny.port = .idle
      ∧ decode ([] ++ [0x40, 1]) = .error (.truncated 3)
      ∧ { tiny with port := .taking [0x40, 1] }.port = .taking [0x40, 1]
      ∧ decode ([0x40, 1] ++ []) = .error (.truncated 3) := by decide
theorem witness_PortTakesNothingWhileSwapPending :
    { tiny with swapPend := true }.swapPend = true ∧ tiny.sched = [] ∧ Turn.tick ≠ Turn.port
      ∧ { tiny with sched := [.port, .tick] }.sched = Turn.port :: [.tick]
      ∧ tiny.swapPend = false ∧ tiny.port = .idle
      ∧ decode { tiny with stream := [0x14] }.stream = .ok (.query 4, []) := by decide
theorem witness_StepDeliversTheFirstEvent :
    { tiny with sched := [.tick] }.sched = Turn.tick :: []
      ∧ { tiny with sched := [.animPlaying true] }.sched = Turn.animPlaying true :: []
      ∧ { tiny with sched := [.idleInhibit true] }.sched = Turn.idleInhibit true :: []
      ∧ { tiny with sched := [.offer 0x14] }.sched = Turn.offer 0x14 :: []
      ∧ { tiny with sched := [.collect] }.sched = Turn.collect :: [] := by decide
theorem witness_ResetLoadsEveryRegister :
    tiny.cfg.Valid ∧ { tiny with sched := [.reset, .tick] }.sched = Turn.reset :: [.tick]
      ∧ 11 < tiny.cfg.bufLen ∧ tiny.cfg.resetBack[11]? = some 0 :=
  ⟨tiny_valid, by decide, by decide, by decide⟩
theorem witness_FirstTickAfterResetShowsPowerOnImage :
    Config.tiny.Valid ∧ Config.tiny.rowOrder[0]? = some 1 ∧ 0 < Config.tiny.w / 16 :=
  ⟨tiny_valid, by decide, by decide⟩

end Sys2Proof.Tests
end

section
/-! PROOFS. The address function and the reset content of the two buffers (20_memory.md R63). -/

namespace Sys2Proof.Machine

open Sys2Proof

/-- The address function with the geometry of R8 written out. -/
theorem addr_eq_geometry (c : Config) (buf : Bool) (p y bc : Nat) :
    addr c buf p y bc
      = buf.toNat * (3 * (c.w / 8 * c.h)) + p * (c.w / 8 * c.h) + y * (c.w / 8) + bc := rfl

/-- Buffer 1 repeats the layout of buffer 0 above its base. -/
theorem addr_true_eq (c : Config) (p y bc : Nat) :
    addr c true p y bc = c.bufLen + addr c false p y bc := by
  simp only [addr, Bool.toNat_true, Bool.toNat_false]
  omega

theorem addr_false_lt_bufLen (c : Config) {p y bc : Nat} (hp : p < 3) (hy : y < c.h)
    (hb : bc < c.wb) : addr c false p y bc < c.bufLen := by
  simpa using (addr_inBuffer c false hp hy hb).2

/-- The two buffers cover the space. -/
theorem exists_inBuffer_of_lt_fbLen (c : Config) {a : Nat} (h : a < c.fbLen) :
    ∃ buf, inBuffer c buf a := by
  have hlen : c.fbLen = c.bufLen + c.bufLen := Nat.two_mul _
  by_cases ha : a < c.bufLen
  · exact ⟨false, by simpa [inBuffer] using ha⟩
  · exact ⟨true, by simp only [inBuffer, Bool.toNat_true]; omega⟩

/-- Nothing is stored after a reset: every read answers the reset content (10_state.md R50). -/
theorem memRead_resetOf (c : Config) (a : Nat) : memRead (State.resetOf c) a = resetByte c a := rfl

/-- Buffer 0 resets to POWER_ON_IMAGE (10_state.md R39). -/
theorem resetByte_of_powerOnImage {c : Config} {a : Nat} {x : Byte} (ha : a < c.bufLen)
    (hx : c.powerOnImage[a]? = some x) : resetByte c a = x := by
  simp [resetByte, ha, List.getD_eq_getElem?_getD, hx]

/-- Buffer 1 resets to the listed bytes of RESET_BACK, counted from its base (10_state.md R39). -/
theorem resetByte_of_resetBack {c : Config} {a : Nat} {x : Byte}
    (hx : c.resetBack[a]? = some x) : resetByte c (c.bufLen + a) = x := by
  simp [resetByte, List.getD_eq_getElem?_getD, hx]

/-- Settles O15: an address determines its buffer, and in it plane, row and block column by the uniqueness of mixed-radix digits. -/
theorem addressFunctionIsBijection : Obligations.AddressFunctionIsBijection := by
  intro c
  refine ⟨addr_eq_geometry c, fun buf _ _ _ => addr_lt_fbLen c buf, fun a ha => ?_,
    fun p y bc hp hy hb => ⟨fun x hx => ?_, fun x hx => ?_⟩⟩
  · obtain ⟨buf, hbuf⟩ := exists_inBuffer_of_lt_fbLen c ha
    obtain ⟨p, y, bc, hp, hy, hb, rfl⟩ := exists_addr_of_inBuffer c hbuf
    exact ⟨buf, p, y, bc, hp, hy, hb, rfl,
      fun _ _ _ _ hp' hy' hb' => addr_inj c hp' hp hy' hy hb' hb⟩
  · rw [memRead_resetOf]
    exact resetByte_of_powerOnImage (addr_false_lt_bufLen c hp hy hb) hx
  · rw [memRead_resetOf, addr_true_eq]
    exact resetByte_of_resetBack hx

end Sys2Proof.Machine
end

section
/-! PROOFS. The pixel codec (40_codec.md R123, R124, R127): every fact is one about a lane's bits, carried to the bytes by extensionality. -/

namespace Sys2Proof.Machine

open Sys2Proof

/-! ## The bits of a lane -/

@[simp] theorem encodeBlock_p0_getLsbD (g : Gray) (i : Nat) :
    (encodeBlock g).p0.getLsbD i = (g.low.getLsbD i || g.high.getLsbD i) := BitVec.getLsbD_or

@[simp] theorem encodeBlock_p1 (g : Gray) : (encodeBlock g).p1 = g.high := rfl

@[simp] theorem encodeBlock_p2_getLsbD (g : Gray) (i : Nat) :
    (encodeBlock g).p2.getLsbD i = (g.low.getLsbD i && g.high.getLsbD i) := BitVec.getLsbD_and

@[simp] theorem decodeBlock_low_getLsbD (p : Planes) (i : Nat) :
    (decodeBlock p).low.getLsbD i
      = ((p.p0.getLsbD i ^^ p.p1.getLsbD i) || p.p2.getLsbD i) := by
  simp [decodeBlock]

@[simp] theorem decodeBlock_high (p : Planes) : (decodeBlock p).high = p.p1 := rfl

/-- A block's value bytes are determined by its lanes. -/
theorem Gray.eq_iff_lanes {g g' : Gray} :
    g = g' ↔ ∀ i < 8, g.low.getLsbD i = g'.low.getLsbD i ∧ g.high.getLsbD i = g'.high.getLsbD i := by
  cases g
  cases g'
  simp only [Gray.mk.injEq, BitVec.eq_of_getLsbD_eq_iff, forall_and]

/-- A block's plane bytes are determined by its lanes. -/
theorem Planes.eq_iff_lanes {p p' : Planes} :
    p = p' ↔ ∀ i < 8, p.p0.getLsbD i = p'.p0.getLsbD i ∧ p.p1.getLsbD i = p'.p1.getLsbD i
      ∧ p.p2.getLsbD i = p'.p2.getLsbD i := by
  cases p
  cases p'
  simp only [Planes.mk.injEq, BitVec.eq_of_getLsbD_eq_iff, forall_and]

/-- A lane's value from its two bits (R120). -/
theorem laneValue_toNat (g : Gray) (i : Nat) :
    (laneValue g i).toNat = 2 * (g.high.getLsbD i).toNat + (g.low.getLsbD i).toNat := by
  unfold laneValue
  cases g.high.getLsbD i <;> cases g.low.getLsbD i <;> rfl

/-! ## Round trip and thermometer code -/

theorem decodeBlock_encodeBlock (g : Gray) : decodeBlock (encodeBlock g) = g :=
  Gray.eq_iff_lanes.mpr fun i _ => by
    cases hl : g.low.getLsbD i <;> cases hh : g.high.getLsbD i <;> simp [hl, hh]

/-- In every lane plane `k` of an encoding is set exactly when the value exceeds `k` (R120). -/
theorem encodeBlock_getLsbD_eq_lt (g : Gray) (i : Nat) :
    (encodeBlock g).p0.getLsbD i = decide (0 < (laneValue g i).toNat)
      ∧ (encodeBlock g).p1.getLsbD i = decide (1 < (laneValue g i).toNat)
      ∧ (encodeBlock g).p2.getLsbD i = decide (2 < (laneValue g i).toNat) := by
  rw [laneValue_toNat]
  cases hl : g.low.getLsbD i <;> cases hh : g.high.getLsbD i <;> simp [hl, hh]

/-! ## Consistent planes -/

theorem Planes.consistent_iff (p : Planes) :
    p.consistent = true ↔ ∀ i < 8,
      Config.lanePattern (p.p0.getLsbD i) (p.p1.getLsbD i) (p.p2.getLsbD i) = true := by
  simp only [Planes.consistent, Config.thermometer, List.all_eq_true, List.mem_range]

/-- Re-encoding keeps a lane's three bits exactly when they are a thermometer pattern: bit 1 always stays, bits 0 and 2 say which patterns do. -/
theorem reencoded_bits_eq_iff_lanePattern (b0 b1 b2 : Bool) :
    ((((b0 ^^ b1) || b2) || b1) = b0 ∧ (((b0 ^^ b1) || b2) && b1) = b2)
      ↔ Config.lanePattern b0 b1 b2 = true := by
  cases b0 <;> cases b1 <;> cases b2 <;> decide

theorem encodeBlock_decodeBlock_eq_iff (p : Planes) :
    encodeBlock (decodeBlock p) = p ↔ p.consistent = true := by
  rw [Planes.eq_iff_lanes, Planes.consistent_iff]
  refine forall₂_congr fun i _ => ?_
  simpa using reencoded_bits_eq_iff_lanePattern
    (p.p0.getLsbD i) (p.p1.getLsbD i) (p.p2.getLsbD i)

/-- An encoding is its own re-encoding, so it is consistent. -/
theorem encodeBlock_consistent (g : Gray) : (encodeBlock g).consistent = true :=
  (encodeBlock_decodeBlock_eq_iff _).mp (congrArg encodeBlock (decodeBlock_encodeBlock g))

/-- The value a lane decodes to depends on the three plane bits alone. -/
theorem laneValue_decodeBlock (p : Planes) (i : Nat) :
    laneValue (decodeBlock p) i = 2 * flagByte (p.p1.getLsbD i)
      + flagByte ((p.p0.getLsbD i ^^ p.p1.getLsbD i) || p.p2.getLsbD i) := by
  rw [laneValue, decodeBlock_low_getLsbD, decodeBlock_high]

/-! ## The obligations -/

/-- Settles O7: consistency of the encoding is the round trip read through the re-encoding lemma. -/
theorem codecRoundTripIsThermometer : Obligations.CodecRoundTripIsThermometer := fun g =>
  ⟨decodeBlock_encodeBlock g, encodeBlock_consistent g, fun i _ => encodeBlock_getLsbD_eq_lt g i⟩

/-- Settles O8: each of the four patterns evaluates in its lane, and re-encoding is compared lane by lane. -/
theorem reencodingReturnsExactlyConsistentPlanes :
    Obligations.ReencodingReturnsExactlyConsistentPlanes := by
  refine ⟨fun p i _ => ?_, encodeBlock_decodeBlock_eq_iff⟩
  rw [laneValue_decodeBlock]
  refine ⟨fun h0 h1 h2 => ?_, fun h0 h1 h2 => ?_, fun h0 h1 h2 => ?_, fun h0 h1 h2 => ?_⟩ <;>
    rw [h0, h1, h2] <;> rfl

/-- Settles O9: each output bit is a function of the input bits of its own lane. -/
theorem codecLanesAreIndependent : Obligations.CodecLanesAreIndependent := by
  refine ⟨fun g g' i hlow hhigh => ?_, fun p p' i h0 h1 h2 => ?_⟩
  · simp only [encodeBlock_p0_getLsbD, encodeBlock_p1, encodeBlock_p2_getLsbD, hlow, hhigh,
      and_self]
  · simp only [decodeBlock_low_getLsbD, decodeBlock_high, h0, h1, h2, and_self]

end Sys2Proof.Machine
end

section
/-! PROOFS. Clipped rectangles: when an offset lies below the clipped width and height, and which positions the rectangle holds (41_pixel_and_rect.md R140). -/

namespace Sys2Proof.Machine

open Sys2Proof

/-! ## The clipping functions -/

/-- A column offset survives clipping exactly when it is one of the rectangle's and its block column is in range. -/
theorem lt_clipWidth_iff {c : Config} {bx bw q : Nat} :
    q < clipWidth c bx bw ↔ q < bw ∧ bx + q < c.wb := by
  unfold clipWidth
  split <;> omega

/-- A row offset survives clipping exactly when it is one of the rectangle's and its row is in range. -/
theorem lt_clipHeight_iff {c : Config} {y h r : Nat} :
    r < clipHeight c y h ↔ r < h ∧ y + r < c.h := by
  unfold clipHeight
  split <;> omega

theorem clipWidth_eq_zero_iff {c : Config} {bx bw : Nat} :
    clipWidth c bx bw = 0 ↔ bw = 0 ∨ c.wb ≤ bx := by
  have h0 := lt_clipWidth_iff (c := c) (bx := bx) (bw := bw) (q := 0)
  omega

theorem clipHeight_eq_zero_iff {c : Config} {y h : Nat} :
    clipHeight c y h = 0 ↔ h = 0 ∨ c.h ≤ y := by
  have h0 := lt_clipHeight_iff (c := c) (y := y) (h := h) (r := 0)
  omega

/-! ## The positions of a clipped rectangle -/

theorem mem_clippedRect_iff_offset {c : Config} {bx y bw h : Nat} {pos : Pos} :
    pos ∈ clippedRect c bx y bw h
      ↔ ∃ q r, q < clipWidth c bx bw ∧ r < clipHeight c y h ∧ pos = (bx + q, y + r) := by
  simp only [clippedRect, List.mem_map, Prod.exists, mem_offsets, shift, and_assoc, eq_comm]

/-- The offset of a position is its distance from the origin, so the clipped rectangle is cut out by bounds alone. -/
theorem mem_clippedRect_iff_inRange {c : Config} {bx y bw h : Nat} {pos : Pos} :
    pos ∈ clippedRect c bx y bw h
      ↔ pos.1 < c.wb ∧ pos.2 < c.h ∧ bx ≤ pos.1 ∧ pos.1 < bx + bw ∧ y ≤ pos.2 ∧ pos.2 < y + h := by
  simp only [mem_clippedRect_iff_offset, lt_clipWidth_iff, lt_clipHeight_iff]
  constructor
  · rintro ⟨q, r, hq, hr, rfl⟩
    dsimp only
    omega
  · rintro ⟨hwb, hh, hbx, hbw, hy, hyh⟩
    exact ⟨pos.1 - bx, pos.2 - y, by omega, by omega, Prod.ext (by omega) (by omega)⟩

theorem length_clippedRect (c : Config) (bx y bw h : Nat) :
    (clippedRect c bx y bw h).length = clipWidth c bx bw * clipHeight c y h := by
  rw [clippedRect, List.length_map, length_offsets]

theorem clippedRect_eq_nil_iff {c : Config} {bx y bw h : Nat} :
    clippedRect c bx y bw h = [] ↔ bw = 0 ∨ h = 0 ∨ c.wb ≤ bx ∨ c.h ≤ y := by
  rw [← List.length_eq_zero_iff, length_clippedRect, Nat.mul_eq_zero, clipWidth_eq_zero_iff,
    clipHeight_eq_zero_iff]
  tauto

theorem pixelInRange_iff {c : Config} {px py : Byte} :
    pixelInRange c px py = true ↔ px.toNat < c.w ∧ py.toNat < c.h := by
  simp only [pixelInRange, Bool.and_eq_true, decide_eq_true_eq]

/-! ## The obligation -/

/-- Settles O16: membership, range and emptiness all come down to which offsets survive clipping. -/
theorem clippedRectangleIsItsInRangePart : Obligations.ClippedRectangleIsItsInRangePart :=
  fun _ _ _ _ _ => ⟨rfl, rfl, fun _ => mem_clippedRect_iff_offset,
    fun _ => mem_clippedRect_iff_inRange, clippedRect_eq_nil_iff, fun _ _ => pixelInRange_iff⟩

end Sys2Proof.Machine
end

section
/-! PROOFS. The TICK that ends a frame, and the mark its boundary sets (43_tick.md R202, R203, R209). -/

namespace Sys2Proof.Machine

open Sys2Proof

/-- Step 5 runs whether or not the idle step made the fade step be left out (R203, R209). -/
@[simp] theorem frameBoundary_frameChg (s : State) : (frameBoundary s).frameChg = true := by
  rw [frameBoundary_frame]

/-- At the end of a frame a TICK emits, wraps the cursor to plane 2 and runs the boundary: the cursor excludes the five other ways to advance (R202). -/
theorem tickOp_of_boundaryNext {s : State} (h : boundaryNext s) :
    tickOp s
      = frameBoundary
          { emitSegment s with half := false, row := 0, plane := 2, holdRem := s.ht.c } := by
  obtain ⟨hhalf, hrow, hhold, hplane⟩ := h
  rw [tickOp]
  rcases advance_cases (emitSegment s) with
    ⟨hc, -⟩ | ⟨-, hc, -⟩ | ⟨-, -, hc, -⟩ | ⟨-, -, -, hc, -⟩ | ⟨-, -, -, hc, -⟩ | ⟨-, -, -, -, heq⟩
  · exact absurd (hhalf.symm.trans hc) (by decide)
  · exact absurd hc hrow.not_gt
  · exact absurd hc hhold.not_gt
  · exact absurd (hplane.symm.trans hc) (by decide)
  · exact absurd (hplane.symm.trans hc) (by decide)
  · exact heq

/-- Settles O33: the TICK runs the frame boundary, and every frame boundary sets the mark. -/
theorem frameChangedSetAtEveryBoundary : Obligations.FrameChangedSetAtEveryBoundary :=
  fun s h => ⟨tickOp s, rfl, by rw [tickOp_of_boundaryNext h, frameBoundary_frameChg]⟩

end Sys2Proof.Machine
end

section
/-! PROOFS. The decoder and the encoder (30_encoding.md sections 1 to 4): what decoding a header followed by its operand bytes gives, and the headers the encoder writes. -/

namespace Sys2Proof

/-! ## Decoding by header -/

theorem decode_cons_of_none {hdr : Byte} (hsel : selectOp hdr = none) (tl : List Byte) :
    decode (hdr :: tl) = .error (.badCommand hdr) := by
  simp only [decode, hsel]

theorem decode_cons_of_some {hdr : Byte} {op : Op} (hsel : selectOp hdr = some op)
    (tl : List Byte) :
    decode (hdr :: tl)
      = if tl.length < operandCount op then .error (.truncated (operandCount op - tl.length))
        else .ok (assemble op hdr (fun j => tl.getD j 0), tl.drop (operandCount op)) := by
  simp only [decode, hsel]

/-- A selected header with all its operand bytes there is one whole command (R90, R92). -/
theorem decode_of_selectOp {hdr : Byte} {op : Op} {ops rest : List Byte}
    (hsel : selectOp hdr = some op) (hlen : ops.length = operandCount op) :
    decode (hdr :: (ops ++ rest)) = .ok (assemble op hdr (fun j => (ops ++ rest).getD j 0), rest) := by
  have hlong : ¬ (ops ++ rest).length < operandCount op := by simp [← hlen]
  rw [decode_cons_of_some hsel, if_neg hlong, List.drop_left' hlen]

/-- A decoded command begins with a header that selects it and has all its operand bytes. -/
theorem decode_ok_cases {bs rest : List Byte} {i : Instr} (h : decode bs = .ok (i, rest)) :
    ∃ hdr tl op, bs = hdr :: tl ∧ selectOp hdr = some op ∧ operandCount op ≤ tl.length
      ∧ i = assemble op hdr (fun j => tl.getD j 0) ∧ rest = tl.drop (operandCount op) := by
  cases bs with
  | nil => cases h
  | cons hdr tl =>
    cases hsel : selectOp hdr with
    | none => rw [decode_cons_of_none hsel] at h; cases h
    | some op =>
      rw [decode_cons_of_some hsel] at h
      split at h
      · cases h
      · next hlong =>
        obtain ⟨rfl, rfl⟩ : _ ∧ _ := by simpa only [Except.ok.injEq, Prod.mk.injEq] using h
        exact ⟨hdr, tl, op, rfl, hsel, by omega, rfl, rfl⟩

/-- A header is refused exactly when it selects nothing, whatever follows it (R97, R104). -/
theorem decode_eq_badCommand_iff (hdr : Byte) (tl : List Byte) :
    decode (hdr :: tl) = .error (.badCommand hdr) ↔ selectOp hdr = none := by
  refine ⟨fun h => ?_, fun hsel => decode_cons_of_none hsel tl⟩
  cases hsel : selectOp hdr with
  | none => rfl
  | some op =>
    rw [decode_cons_of_some hsel] at h
    split at h <;> cases h

/-! ## The headers the encoder writes -/

theorem selectOp_query : ∀ r : BitVec 4, r.toNat ≤ 6 →
    selectOp (0x10 + r.setWidth 8) = some .query ∧ queryField (0x10 + r.setWidth 8) = r := by
  decide

theorem selectOp_rdrect (t : Target) : selectOp (0x40 + t.bit) = some .rdrect
    ∧ targetField (0x40 + t.bit) 0 = t := by
  cases t <;> decide

theorem selectOp_wrrect (t : Target) : selectOp (0x50 + t.bit) = some .wrrect
    ∧ targetField (0x50 + t.bit) 0 = t := by
  cases t <;> decide

theorem selectOp_cprect (src dst : Target) :
    selectOp (0x60 + 2 * dst.bit + src.bit) = some .cprect
      ∧ targetField (0x60 + 2 * dst.bit + src.bit) 0 = src
      ∧ targetField (0x60 + 2 * dst.bit + src.bit) 1 = dst := by
  cases src <;> cases dst <;> decide

theorem selectOp_flrect (t : Target) : ∀ v : BitVec 2,
    selectOp (0x70 + 4 * v.setWidth 8 + t.bit) = some .flrect
      ∧ targetField (0x70 + 4 * v.setWidth 8 + t.bit) 0 = t
      ∧ grayField (0x70 + 4 * v.setWidth 8 + t.bit) = v := by
  cases t <;> decide

theorem selectOp_setpx (t : Target) : ∀ v : BitVec 2,
    selectOp (0x80 + 4 * v.setWidth 8 + t.bit) = some .setpx
      ∧ targetField (0x80 + 4 * v.setWidth 8 + t.bit) 0 = t
      ∧ grayField (0x80 + 4 * v.setWidth 8 + t.bit) = v := by
  cases t <;> decide

theorem selectOp_getpx (t : Target) : selectOp (0x90 + t.bit) = some .getpx
    ∧ targetField (0x90 + t.bit) 0 = t := by
  cases t <;> decide

theorem selectOp_idle (f : Bool) (aa : EndAct) :
    selectOp (0xB0 + 2 * aa.code.setWidth 8 + flagByte f) = some .idle
      ∧ (0xB0 + 2 * aa.code.setWidth 8 + flagByte f).getLsbD 0 = f
      ∧ endActField (0xB0 + 2 * aa.code.setWidth 8 + flagByte f) = aa := by
  cases f <;> cases aa <;> decide

theorem selectOp_outen (e : Bool) : selectOp (0xD0 + flagByte e) = some .outen
    ∧ (0xD0 + flagByte e).getLsbD 0 = e := by
  cases e <;> decide

/-- Settles O1: by constructor, the header written selects the operation and carries its fields, and the operand bytes stand in the listed order. -/
theorem decodeInvertsEncode : Obligations.DecodeInvertsEncode := by
  intro i rest henc
  cases i with
  | query r =>
    have hr : r.toNat ≤ 6 := by simpa [Instr.encodable, Instr.wf, Instr.isCommand] using henc
    obtain ⟨hsel, hid⟩ := selectOp_query r hr
    exact (decode_of_selectOp (ops := []) hsel rfl).trans (by simp only [assemble, hid])
  | bright lvl => exact decode_of_selectOp (ops := [lvl]) (op := .bright) (by decide) rfl
  | swap => exact decode_of_selectOp (ops := []) (op := .swap) (by decide) rfl
  | rdrect t bx y bw h =>
    obtain ⟨hsel, ht⟩ := selectOp_rdrect t
    exact (decode_of_selectOp (ops := [bx, y, bw, h]) hsel rfl).trans
      (by simp only [assemble, ht]; rfl)
  | wrrect t bx y bw h =>
    obtain ⟨hsel, ht⟩ := selectOp_wrrect t
    exact (decode_of_selectOp (ops := [bx, y, bw, h]) hsel rfl).trans
      (by simp only [assemble, ht]; rfl)
  | cprect src dst sbx sy bw h dbx dy =>
    obtain ⟨hsel, hsrc, hdst⟩ := selectOp_cprect src dst
    exact (decode_of_selectOp (ops := [sbx, sy, bw, h, dbx, dy]) hsel rfl).trans
      (by simp only [assemble, hsrc, hdst]; rfl)
  | flrect t v bx y bw h =>
    obtain ⟨hsel, ht, hv⟩ := selectOp_flrect t v
    exact (decode_of_selectOp (ops := [bx, y, bw, h]) hsel rfl).trans
      (by simp only [assemble, ht, hv]; rfl)
  | setpx t v x y =>
    obtain ⟨hsel, ht, hv⟩ := selectOp_setpx t v
    exact (decode_of_selectOp (ops := [x, y]) hsel rfl).trans (by simp only [assemble, ht, hv]; rfl)
  | getpx t x y =>
    obtain ⟨hsel, ht⟩ := selectOp_getpx t
    exact (decode_of_selectOp (ops := [x, y]) hsel rfl).trans (by simp only [assemble, ht]; rfl)
  | holds a b c => exact decode_of_selectOp (ops := [a, b, c]) (op := .holds) (by decide) rfl
  | idle f aa trig =>
    obtain ⟨hsel, hf, haa⟩ := selectOp_idle f aa
    exact (decode_of_selectOp (ops := [trig]) hsel rfl).trans
      (by simp only [assemble, hf, haa]; rfl)
  | idlerst => exact decode_of_selectOp (ops := []) (op := .idlerst) (by decide) rfl
  | outen e =>
    obtain ⟨hsel, he⟩ := selectOp_outen e
    exact (decode_of_selectOp (ops := []) hsel rfl).trans (by simp only [assemble, he])
  | enc low high => exact decode_of_selectOp (ops := [low, high]) (op := .enc) (by decide) rfl
  | dec p0 p1 p2 => exact decode_of_selectOp (ops := [p0, p1, p2]) (op := .dec) (by decide) rfl
  | clrfc => exact decode_of_selectOp (ops := []) (op := .clrfc) (by decide) rfl
  | tick => exact absurd henc (by decide)

/-! ## Encoding what was decoded -/

/-- The header the encoder writes back is the one that was read: no legal header has a bit the encoder does not write (R96, R97). -/
theorem encode_assemble_header : ∀ hdr : Byte, ∀ op ∈ selectOp hdr,
    (assemble op hdr (fun _ => 0)).encodable = true
      ∧ (encode (assemble op hdr (fun _ => 0))).headD 0 = hdr := by
  decide

/-- Whether an assembled operation is encodable, and the header it is written with, do not depend on its operand bytes; these are written in order (R98). -/
theorem encode_assemble_operands (op : Op) (hdr : Byte) (k : Nat → Byte) :
    (assemble op hdr k).encodable = (assemble op hdr (fun _ => 0)).encodable
      ∧ encode (assemble op hdr k)
          = (encode (assemble op hdr (fun _ => 0))).headD 0
              :: (List.range (operandCount op)).map k := by
  cases op <;> exact ⟨rfl, rfl⟩

theorem map_getD_range {n : Nat} {l : List Byte} (h : n ≤ l.length) :
    (List.range n).map (fun j => l.getD j 0) = l.take n := by
  refine List.ext_getElem (by simpa using h) fun j hj _ => ?_
  have hjl : j < l.length := by simp at hj; omega
  simp [hjl]

/-- Settles O2: the header is written back by enumeration of the legal headers, the operand bytes for every operation. -/
theorem encodeInvertsDecode : Obligations.EncodeInvertsDecode := by
  intro bs i rest h
  obtain ⟨hdr, tl, op, rfl, hsel, hlen, rfl, rfl⟩ := decode_ok_cases h
  obtain ⟨hlegal, hhdr⟩ := encode_assemble_header hdr op hsel
  obtain ⟨hcode, hbytes⟩ := encode_assemble_operands op hdr (fun j => tl.getD j 0)
  refine ⟨hcode.trans hlegal, ?_⟩
  rw [hbytes, hhdr, map_getD_range hlen, List.cons_append, List.take_append_drop]

/-! ## Illegal headers and sanity words -/

/-- The opcode map and the arithmetic form of R97 leave out the same headers. -/
theorem selectOp_eq_none_iff : ∀ hdr : Byte, selectOp hdr = none ↔ Machine.illegalHeader hdr = true := by
  decide

/-- The illegal headers among the 256, counted by running the test on each. -/
theorem illegalHeader_count :
    ((List.range 256).filter (fun n => Machine.illegalHeader (BitVec.ofNat 8 n))).length = 206 := by
  rfl

/-- Settles O3: the decoder refuses what selects nothing, and the headers are enumerated. -/
theorem decoderRejectsExactlyIllegalHeaders : Obligations.DecoderRejectsExactlyIllegalHeaders :=
  ⟨fun hdr rest => (decode_eq_badCommand_iff hdr rest).trans (selectOp_eq_none_iff hdr), illegalHeader_count⟩

/-- Settles O4: the words are closed, and the decoder runs on each. -/
theorem specWordsDecode : Obligations.SpecWordsDecode := by
  refine ⟨?_, ?_, ?_, ?_, ?_, ?_, ?_, ?_, ?_, ?_, ?_, ?_, ?_⟩ <;> decide

end Sys2Proof
end

section
/-! PROOFS. The engine requests, ENC and DEC, and pixels out of range: each answers in one step (40_codec.md, 41_pixel_and_rect.md R143 and R144, 42_engine_requests.md). -/

namespace Sys2Proof.Machine

open Sys2Proof

/-! ## The packed bytes of QUERY -/

/-- The IDLE flags byte value by value (10_state.md R38, 30_encoding.md R100). -/
theorem idleFlagsByte_eq (s : State) :
    idleFlagsByte s = match s.endAct, s.fadeEn with
      | .noAction, false => 0
      | .noAction, true => 1
      | .clear, false => 2
      | .clear, true => 3
      | .restart, false => 4
      | .restart, true => 5
      | .resume, false => 6
      | .resume, true => 7 := by
  unfold idleFlagsByte
  cases s.endAct <;> cases s.fadeEn <;> rfl

/-- The FADE byte value by value (10_state.md R37). -/
theorem fadeByte_eq (s : State) :
    fadeByte s = match s.fade with
      | .none => 0
      | .fadingIn => 1
      | .fadingOut => 2 := by
  unfold fadeByte
  cases s.fade <;> rfl

/-- The STATUS byte as a binary number (30_encoding.md R100). -/
theorem statusByte_eq (s : State) :
    statusByte s = BitVec.ofNat 8 (16 * s.front.toNat + 8 * s.outEn.toNat
      + 4 * s.frameChg.toNat + 2 * s.brPend.toNat + s.swapPend.toNat) := by
  unfold statusByte
  cases s.front <;> cases s.outEn <;> cases s.frameChg <;> cases s.brPend <;> cases s.swapPend
    <;> rfl

/-- The flags byte is the low half of the IDLE header that writes those flags (30_encoding.md R96, R100). -/
theorem idleFlagsByte_eq_header (s : State) :
    idleFlagsByte s = (0xB0 + 2 * s.endAct.code.setWidth 8 + flagByte s.fadeEn) &&& 0x0F := by
  unfold idleFlagsByte
  cases s.endAct <;> cases s.fadeEn <;> decide

/-! ## QUERY -/

/-- A register whose first byte is known in another form is answered in that form. -/
theorem exec_query_of_cons {r : BitVec 4} {s : State} {b x : Byte} {bs : List Byte}
    (h : queryResponse r s = some (b :: bs)) (hb : b = x) :
    exec (.query r) s = .next (emit (x :: bs) s) := by
  simp only [exec, execQuery, h, hb]

theorem exec_query_of_none {r : BitVec 4} {s : State} (h : queryResponse r s = none) :
    exec (.query r) s = .next (raiseBadCommand (0x10 + r.setWidth 8) s) := by
  simp only [exec, execQuery, h]

/-- The seven ids of R100 and no others name a register (42_engine_requests.md R171). -/
theorem queryResponse_eq_none {r : BitVec 4} (s : State) (h : 7 ≤ r.toNat) :
    queryResponse r s = none := by
  obtain ⟨n, hn⟩ := Nat.exists_eq_add_of_le h
  simp only [queryResponse, hn, Nat.add_comm 7 n]

theorem query_header_eq (r : BitVec 4) : (0x10 + r.setWidth 8 : Byte) = BitVec.ofNat 8 (16 + r.toNat) := by
  apply BitVec.eq_of_toNat_eq
  simp

/-- Settles O10: id by id, with the packed bytes written out. -/
theorem queryAnswersRegisters : Obligations.QueryAnswersRegisters := fun s =>
  ⟨rfl, rfl,
    exec_query_of_cons rfl (idleFlagsByte_eq s),
    exec_query_of_cons rfl (fadeByte_eq s),
    exec_query_of_cons rfl (statusByte_eq s),
    rfl, rfl⟩

/-- Settles O11: no register answers, so the exception is taken with the header `0x10 + r`. -/
theorem queryReservedIdsRaiseBadCommand : Obligations.QueryReservedIdsRaiseBadCommand := by
  intro r s h
  rw [exec_query_of_none (queryResponse_eq_none s h), query_header_eq]
  rfl

/-! ## Requests that write registers -/

/-- Settles O12: both requests are one record update. -/
theorem latchedRequestsOnlyRaiseFlags : Obligations.LatchedRequestsOnlyRaiseFlags :=
  fun _ _ => ⟨rfl, rfl⟩

/-- Settles O13: each of the five is one record update. -/
theorem immediateRequestsWriteAtOnce : Obligations.ImmediateRequestsWriteAtOnce :=
  fun _ _ _ _ _ _ _ _ => ⟨rfl, rfl, rfl, rfl, rfl⟩

/-- Settles O14: QUERY answers the registers just written, the IDLE flags as the low half of their header. -/
theorem writtenSettingsReadBack : Obligations.WrittenSettingsReadBack := by
  intro a b c trig f aa s
  let t : State := { s with fadeEn := f, endAct := aa, idleTrig := trig }
  exact ⟨⟨_, rfl, rfl⟩, t, rfl,
    exec_query_of_cons rfl (idleFlagsByte_eq_header t)⟩

/-! ## ENC, DEC and pixels out of range -/

/-- Settles O5: the answer is the block's encoding. -/
theorem encAnswersPlaneBytes : Obligations.EncAnswersPlaneBytes := fun _ _ _ => rfl

/-- Settles O6: the answer is the block's decoding. -/
theorem decAnswersValueBytes : Obligations.DecAnswersValueBytes := fun _ _ _ _ => rfl

/-- Settles O19: the range test fails, so neither operation makes an access. -/
theorem pixelsOutOfRangeAreNoOps : Obligations.PixelsOutOfRangeAreNoOps := by
  intro t v x y s hout
  have hrange : ¬ pixelInRange s.cfg x y = true := by
    rw [pixelInRange_iff]
    omega
  simp only [exec, execSetpx, execGetpx, if_neg hrange, true_and]
  rfl

end Sys2Proof.Machine
end

section
/-! PROOFS. One step: who has the turn, what the port's turn does with the bytes at hand, and the state after reset (20_memory.md R74, 30_encoding.md R90, 42_engine_requests.md R174, 70_reset_and_hazards.md R270). -/

namespace Sys2Proof.Machine

open Sys2Proof

/-! ## Whose turn it is -/

theorem step_of_nil {s : State} (h : s.sched = []) : step s = portTurn s := by
  simp only [step, h]

theorem step_of_port {s : State} {tl : List Turn} (h : s.sched = .port :: tl) :
    step s = portTurn { s with sched := tl } := by
  simp only [step, h]

/-- An event at the head of the order is delivered, whichever it is. -/
theorem step_of_event {s : State} {e : Turn} {tl : List Turn} (h : s.sched = e :: tl)
    (he : e ≠ .port) : step s = .next (deliver e { s with sched := tl }) := by
  cases e with
  | port => exact absurd rfl he
  | _ => simp only [step, h] <;> rfl

/-! ## The port's turn -/

theorem portTurn_of_done {s t : State} (h : fetch s = .done t) : portTurn s = .next t := by
  simp only [portTurn, h]

theorem portTurn_of_run {s t : State} {i : Instr} (h : fetch s = .run i t) :
    portTurn s = exec i t := by
  simp only [portTurn, h]

theorem fetch_of_swapPend {s : State} (h : s.swapPend = true) : fetch s = .done s := by
  simp only [fetch, h, if_true]

/-- Between commands or inside one, the port's turn takes the bytes of a command (30_encoding.md R90). -/
theorem fetch_of_taking {s : State} {bs : List Byte} (hs : s.swapPend = false)
    (hp : s.port = .idle ∧ bs = [] ∨ s.port = .taking bs) : fetch s = takeCommand bs s := by
  rcases hp with ⟨hp, rfl⟩ | hp <;> simp [fetch, hs, hp]

theorem takeCommand_of_ok {bs rest : List Byte} {s : State} {i : Instr}
    (h : decode (bs ++ s.stream) = .ok (i, rest)) :
    takeCommand bs s = .run i { s with port := .idle, stream := rest } := by
  simp only [takeCommand, h]

theorem takeCommand_of_badCommand {bs : List Byte} {s : State} {hdr : Byte}
    (h : decode (bs ++ s.stream) = .error (.badCommand hdr)) :
    takeCommand bs s
      = .done (raiseBadCommand hdr { s with stream := (bs ++ s.stream).drop 1 }) := by
  simp only [takeCommand, h]

theorem takeCommand_of_truncated {bs : List Byte} {s : State} {n : Nat}
    (h : decode (bs ++ s.stream) = .error (.truncated n)) :
    takeCommand bs s
      = if s.stream.isEmpty then .done s
        else .done { s with port := .taking (bs ++ s.stream), stream := [] } := by
  simp only [takeCommand, h]

theorem portTurn_of_swapPend {s : State} (h : s.swapPend = true) : portTurn s = .next s :=
  portTurn_of_done (fetch_of_swapPend h)

theorem portTurn_of_decode {s : State} {bs rest : List Byte} {i : Instr} (hs : s.swapPend = false)
    (hp : s.port = .idle ∧ bs = [] ∨ s.port = .taking bs)
    (h : decode (bs ++ s.stream) = .ok (i, rest)) :
    portTurn s = exec i { s with port := .idle, stream := rest } :=
  portTurn_of_run ((fetch_of_taking hs hp).trans (takeCommand_of_ok h))

theorem portTurn_of_illegalHeader {s : State} {hdr : Byte} {rest : List Byte}
    (hs : s.swapPend = false) (hp : s.port = .idle) (hstream : s.stream = hdr :: rest)
    (hill : illegalHeader hdr = true) :
    portTurn s = .next { s with stream := rest, errs := s.errs ++ [hdr] } := by
  have hdec : decode ([] ++ s.stream) = .error (.badCommand hdr) := by
    rw [hstream]
    exact decode_cons_of_none ((selectOp_eq_none_iff hdr).mpr hill) rest
  rw [portTurn_of_done ((fetch_of_taking hs (.inl ⟨hp, rfl⟩)).trans (takeCommand_of_badCommand hdec))]
  simp [raiseBadCommand, hstream, ← hp]

/-! ## The obligations about one step -/

/-- Settles O49: the port's turn is the same with and without an order. -/
theorem stepRunsDecodedCommand : Obligations.StepRunsDecodedCommand :=
  fun _ _ _ _ hs hp hdec =>
    ⟨fun h => (step_of_nil h).trans (portTurn_of_decode hs hp hdec),
      fun _ h => (step_of_port h).trans (portTurn_of_decode hs hp hdec)⟩

/-- Settles O50: the header selects no operation, so the port drops it and presents it. -/
theorem stepRaisesBadCommand : Obligations.StepRaisesBadCommand :=
  fun _ _ _ hs hp hstream hill =>
    ⟨fun h => (step_of_nil h).trans (portTurn_of_illegalHeader hs hp hstream hill),
      fun _ h => (step_of_port h).trans (portTurn_of_illegalHeader hs hp hstream hill)⟩

/-- Settles O51: the bytes end before the command does, so they are kept. -/
theorem incompleteCommandWaits : Obligations.IncompleteCommandWaits := by
  intro s bs n hs hsched hp hdec
  have htake := (fetch_of_taking hs hp).trans (takeCommand_of_truncated hdec)
  rw [step_of_nil hsched]
  refine ⟨fun h => portTurn_of_done ?_, fun h => portTurn_of_done ?_⟩ <;> rw [htake] <;> simp [h]

/-- Settles O52: the hold answers before the port looks at its bytes, and events never ask the port. -/
theorem portTakesNothingWhileSwapPending : Obligations.PortTakesNothingWhileSwapPending :=
  ⟨fun _ hs => ⟨fun h => (step_of_nil h).trans (portTurn_of_swapPend hs),
      fun _ h => (step_of_port h).trans (portTurn_of_swapPend hs)⟩,
    fun _ _ _ _ he h => step_of_event h he,
    fun s _ _ hs hp h hdec => by
      rw [step_of_nil h, portTurn_of_decode hs (.inl ⟨hp, rfl⟩) (by simpa using hdec), ← hp]⟩

/-- Settles O53: each event is delivered, and its delivery is one record update. -/
theorem stepDeliversTheFirstEvent : Obligations.StepDeliversTheFirstEvent :=
  fun _ _ => ⟨fun h => step_of_event h (by decide), fun _ h => step_of_event h (by simp),
    fun _ h => step_of_event h (by simp), fun _ h => step_of_event h (by simp),
    fun h => step_of_event h (by decide)⟩

/-! ## Nothing stops -/

theorem exec_next (i : Instr) (s : State) : ∃ u, exec i s = .next u := by
  cases i with
  | query r =>
    cases h : queryResponse r s with
    | none => exact ⟨_, exec_query_of_none h⟩
    | some bs => exact ⟨emit bs s, by simp only [exec, execQuery, h]⟩
  | setpx t v x y => simp only [exec, execSetpx]; split <;> exact ⟨_, rfl⟩
  | getpx t x y => simp only [exec, execGetpx]; split <;> exact ⟨_, rfl⟩
  | _ => exact ⟨_, rfl⟩

theorem portTurn_next (s : State) : ∃ u, portTurn s = .next u := by
  cases h : fetch s with
  | done t => exact ⟨t, portTurn_of_done h⟩
  | run i t => exact portTurn_of_run h ▸ exec_next i t

/-- Settles O45: every arm of `exec` answers a next state, and a step is an arm, an event or the port's wait. -/
theorem noOperationAndNoStepStops : Obligations.NoOperationAndNoStepStops := by
  refine ⟨exec_next, fun s => ?_⟩
  match h : s.sched with
  | [] => exact step_of_nil h ▸ portTurn_next s
  | e :: tl =>
    by_cases he : e = .port
    · exact step_of_port (he ▸ h) ▸ portTurn_next _
    · exact ⟨_, step_of_event h he⟩

/-! ## Reset -/

theorem getD_replicate_zero (n i : Nat) : (List.replicate n (0 : Byte)).getD i 0 = 0 := by
  simp only [List.getD_eq_getElem?_getD, List.getElem?_replicate]
  split <;> rfl

/-- The invariant at reset: nothing is stored, the cursor is at row 0 and the port is between commands. -/
theorem machineInv_resetOf {c : Config} (hc : c.Valid) : MachineInv (State.resetOf c) where
  config := hc
  rowInRange := hc.hLow
  idleBelow := Nat.zero_le _
  memory := Mem.wf_nil c
  heldIdle := fun _ => rfl
  port := trivial

theorem badge_valid : Config.badge.Valid where
  wMod := by decide
  wLow := by decide
  wHigh := by decide
  hLow := by decide
  hHigh := by decide
  rowLength := by decide
  rowRange := by decide
  rowDistinct := by decide
  imageLength := List.length_replicate
  imageConsistent := fun i _ => by
    have himage : Config.badge.powerOnImage = List.replicate 216 0 := rfl
    simp only [himage, getD_replicate_zero]
    decide

/-- Settles O47: the badge's parameters are legal, and reset from legal parameters meets the invariant. -/
theorem resetMeetsTheInvariant : Obligations.ResetMeetsTheInvariant :=
  ⟨machineInv_resetOf badge_valid, fun _ => machineInv_resetOf⟩

/-- An address of buffer 0 reads after reset as the image has it. -/
theorem powerOnImage_eq_memRead_resetOf {c : Config} (hc : c.Valid) {a : Nat} (ha : a < c.bufLen) :
    c.powerOnImage[a]? = some (memRead (State.resetOf c) a) := by
  have hx := List.getElem?_eq_getElem (hc.imageLength.symm ▸ ha : a < c.powerOnImage.length)
  rw [hx, memRead_resetOf, resetByte_of_powerOnImage ha hx]

/-- Settles O54: the reset event loads `State.resetOf`, whose memory is the reset content. -/
theorem resetLoadsEveryRegister : Obligations.ResetLoadsEveryRegister :=
  fun _ _ hc h => ⟨_, step_of_event h (by decide), rfl,
    fun _ ha => powerOnImage_eq_memRead_resetOf hc ha, fun _ _ hx => resetByte_of_resetBack hx⟩

end Sys2Proof.Machine
end

section
/-! PROOFS. TICK by its cases, and the frame boundary as one record update: what each register becomes, and when the end action runs (43_tick.md R201 to R209). -/

namespace Sys2Proof.Machine

open Sys2Proof

/-! ## The end action -/

/-- A buffer's bytes set to 0, as an update of memory alone (R208). -/
def clearedMem (c : Config) (buf : Bool) (m : List Host.Cell) : List Host.Cell :=
  (bufferAddrs c buf).foldl (fun m a => Mem.store (resetByte c) m a 0) m

/-- Memory after an end action, the front buffer being `buf` (R208). -/
def actionMem (act : EndAct) (c : Config) (buf : Bool) (m : List Host.Cell) : List Host.Cell :=
  if act = .clear then clearedMem c buf m else m

/-- What an end action puts out (R208). -/
def actionEvents : EndAct → List AnimEvent
  | .noAction => []
  | .clear => []
  | .restart => [.restart]
  | .resume => [.resume]

theorem foldl_memWrite_fb (as : List Nat) (x : Byte) (s : State) :
    (as.foldl (fun s a => memWrite s a x) s).fb
      = as.foldl (fun m a => Mem.store (resetByte s.cfg) m a x) s.fb := by
  induction as generalizing s with
  | nil => rfl
  | cons a as ih => exact ih (memWrite s a x)

theorem clearFront_eq (s : State) :
    clearFront s = { s with fb := clearedMem s.cfg s.front s.fb } := by
  have hfb : (clearFront s).fb = clearedMem s.cfg s.front s.fb := foldl_memWrite_fb _ _ _
  rw [← hfb]
  exact clearFront_frame s

theorem runEndAction_eq (s : State) :
    runEndAction s
      = { s with
          fb := actionMem s.endAct s.cfg s.front s.fb
          animEvents := s.animEvents ++ actionEvents s.endAct } := by
  have hmem : s.endAct ≠ .clear → actionMem s.endAct s.cfg s.front s.fb = s.fb := fun h => if_neg h
  cases hact : s.endAct <;> rw [hact] at hmem <;> simp only [runEndAction, hact]
  case clear => simp only [clearFront_eq, actionMem, actionEvents, if_true, List.append_nil, ← hact]
  all_goals
    rw [hmem (by decide)]
    simp only [actionEvents, List.append_nil, ← hact]

/-- What the action did, read back from memory (R208). -/
theorem actionEffect_of_update {s u : State} (hm : Mem.wf s.cfg s.fb) (hc : u.cfg = s.cfg)
    (hfb : u.fb = actionMem s.endAct s.cfg u.front s.fb)
    (hev : u.animEvents = s.animEvents ++ actionEvents s.endAct) : actionEffect s u := by
  unfold actionEffect
  cases hact : s.endAct with
  | noAction => exact ⟨by rw [hfb, hact]; rfl, by simp [hev, hact, actionEvents]⟩
  | restart => exact ⟨by rw [hfb, hact]; rfl, by simp [hev, hact, actionEvents]⟩
  | resume => exact ⟨by rw [hfb, hact]; rfl, by simp [hev, hact, actionEvents]⟩
  | clear =>
    obtain ⟨-, hzero, hrest⟩ := clearFront_read (s := { s with front := u.front }) hm
    have hread : ∀ a, memRead u a = memRead (clearFront { s with front := u.front }) a := fun a => by
      rw [clearFront_eq]
      exact memRead_congr (by simpa using hc) (by rw [hfb, hact]; rfl) a
    exact ⟨fun a ha => (hread a).trans (hzero a ha), fun a ha => (hread a).trans (hrest a ha),
      by simp [hev, hact, actionEvents]⟩

/-! ## The idle step -/

theorem idleCounts_iff (s : State) : idleCounts s = true ↔ idleAdvances s := by
  simp [idleCounts, idleAdvances, idleOff, BitVec.lt_def, and_assoc]

/-- The increment of the next boundary reaches the trigger (R206). -/
def reachesTrigger (s : State) : Bool := idleCounts s && s.idleCnt + 1 == s.idleTrig

/-- A counter that advances is below its trigger, so its increment does not wrap. -/
theorem idleCnt_succ_toNat {s : State} (h : idleAdvances s) :
    (s.idleCnt + 1).toNat = s.idleCnt.toNat + 1 := by
  have hlt : s.idleCnt.toNat < s.idleTrig.toNat := h.2.2.2.2
  have := s.idleTrig.isLt
  rw [BitVec.toNat_add]
  exact Nat.mod_eq_of_lt (by simp; omega)

theorem reachesTrigger_iff (s : State) : reachesTrigger s = true ↔ idleReaches s := by
  rw [reachesTrigger, Bool.and_eq_true, idleCounts_iff, idleReaches, beq_iff_eq]
  refine and_congr_right fun h => ?_
  rw [← BitVec.toNat_inj, idleCnt_succ_toNat h]

theorem idleStep_eq (s : State) :
    idleStep s
      = if reachesTrigger s then
          if s.fadeEn then
            ({ s with idleCnt := s.idleCnt + 1, brCnt := eff s, fade := .fadingOut }, true)
          else ({ runEndAction s with idleCnt := 0 }, false)
        else if idleCounts s then ({ s with idleCnt := s.idleCnt + 1 }, false)
        else (s, false) := by
  cases hc : idleCounts s with
  | false => simp only [idleStep, reachesTrigger, hc, Bool.false_and, Bool.false_eq_true, if_false]
  | true =>
    by_cases ht : s.idleCnt + 1 = s.idleTrig
    · simp only [idleStep, reachesTrigger, hc, ht, beq_self_eq_true, Bool.true_and, if_true,
        idleFire, eff, runEndAction_eq]
    · simp only [idleStep, reachesTrigger, hc, ht, beq_eq_false_iff_ne.mpr ht, Bool.true_and,
        Bool.false_eq_true, if_true, if_false]

/-! ## What a frame boundary makes of the fade machine -/

/-- The idle step begins a fade, and the fade step is left out (R203, R206). -/
def fadeStarts (s : State) : Bool := reachesTrigger s && s.fadeEn

/-- The end action runs: from the idle step, or from the fade step that brings FadingOut to 0 (R206, R207). -/
def endActionRuns (s : State) : Bool :=
  (reachesTrigger s && !s.fadeEn) || (s.fade == .fadingOut && decide (s.brCnt.toNat ≤ 1))

/-- BR_CNT after a frame boundary (R206, R207). -/
def nextBrCnt (s : State) : Byte :=
  if fadeStarts s then (if s.fade = .none then latchedBright s else s.brCnt)
  else match s.fade with
    | .none => s.brCnt
    | .fadingOut => if 0 < s.brCnt then s.brCnt - 1 else s.brCnt
    | .fadingIn => if s.brCnt < latchedBright s then s.brCnt + 1 else s.brCnt

/-- FADE after a frame boundary (R206, R207). -/
def nextFade (s : State) : Fade :=
  if fadeStarts s then .fadingOut
  else match s.fade with
    | .none => .none
    | .fadingOut => if s.brCnt.toNat ≤ 1 then .fadingIn else .fadingOut
    | .fadingIn => if latchedBright s ≤ nextBrCnt s then .none else .fadingIn

/-- IDLE_CNT after a frame boundary (R206, R207). -/
def nextIdleCnt (s : State) : Byte :=
  if s.fade = .fadingIn ∧ nextFade s = .none then 0
  else if reachesTrigger s && !s.fadeEn then 0
  else if idleCounts s then s.idleCnt + 1 else s.idleCnt

/-- The guarded decrement reaches 0 from 1 and from 0. -/
theorem guardedDecrement_eq_zero_iff (b : Byte) :
    (if 0 < b then b - 1 else b) = 0 ↔ b.toNat ≤ 1 := by
  revert b
  decide

/-- FadingIn as one update: the guarded increment, and what reaching the target changes (R207). -/
theorem fadeInStep_eq (s : State) {b : Byte}
    (hb : b = if s.brCnt < s.brCfg then s.brCnt + 1 else s.brCnt) :
    fadeInStep s
      = { s with
          brCnt := b
          idleCnt := if s.brCfg ≤ b then 0 else s.idleCnt
          fade := if s.brCfg ≤ b then .none else s.fade } := by
  subst hb
  unfold fadeInStep
  by_cases h : s.brCnt < s.brCfg <;> simp only [h, if_true, if_false] <;> split <;> rfl

/-- FadingOut as one update: the guarded decrement, and what reaching 0 changes (R207). -/
theorem fadeOutStep_eq (s : State) :
    fadeOutStep s
      = { s with
          brCnt := if 0 < s.brCnt then s.brCnt - 1 else s.brCnt
          fade := if s.brCnt.toNat ≤ 1 then .fadingIn else s.fade
          fb := if s.brCnt.toNat ≤ 1 then actionMem s.endAct s.cfg s.front s.fb else s.fb
          animEvents := if s.brCnt.toNat ≤ 1 then
              s.animEvents ++ actionEvents s.endAct else s.animEvents } := by
  have hzero := guardedDecrement_eq_zero_iff s.brCnt
  unfold fadeOutStep
  by_cases h : 0 < s.brCnt <;> simp only [h, if_true, if_false] at hzero ⊢ <;>
    simp only [hzero] <;> split <;> simp only [runEndAction_eq]

/-- Both latches as one update (R204, R205). -/
def latched (s : State) : State :=
  { s with
    front := (s.front ^^ s.swapPend)
    swapPend := false
    brCfg := latchedBright s
    brPend := false }

theorem brightLatch_swapLatch (s : State) : brightLatch (swapLatch s) = latched s := by
  rw [swapLatch_frame, brightLatch_frame]
  rfl

/-- The frame boundary as one update (R203 to R209). -/
theorem frameBoundary_eq (s : State) :
    frameBoundary s
      = { latched s with
          frameChg := true
          brCnt := nextBrCnt s
          fade := nextFade s
          idleCnt := nextIdleCnt s
          fb := if endActionRuns s then
              actionMem s.endAct s.cfg (s.front ^^ s.swapPend) s.fb else s.fb
          animEvents := if endActionRuns s then
              s.animEvents ++ actionEvents s.endAct else s.animEvents } := by
  have hreach : reachesTrigger (latched s) = reachesTrigger s := rfl
  have hcount : idleCounts (latched s) = idleCounts s := rfl
  have hgate : s.fade = .fadingOut → reachesTrigger s = false := fun h => by
    simp only [reachesTrigger, idleCounts, h, bne_self_eq_false, Bool.and_false, Bool.false_and]
  unfold frameBoundary
  rw [brightLatch_swapLatch, idleStep_eq, hreach, hcount]
  cases hr : reachesTrigger s with
  | true =>
    have hout : s.fade ≠ .fadingOut := fun h => by simp [hgate h] at hr
    have hc : idleCounts s = true := by simp only [reachesTrigger, Bool.and_eq_true] at hr; exact hr.1
    cases he : s.fadeEn with
    | true =>
      simp [latched, markFrame, eff, he, hr, hc, hout, fadeStarts, endActionRuns, nextBrCnt,
        nextFade, nextIdleCnt]
    | false =>
      cases hf : s.fade with
      | none =>
        simp [latched, markFrame, fadeStep, runEndAction_eq, he, hr, hf, fadeStarts, endActionRuns,
          nextBrCnt, nextFade, nextIdleCnt]
      | fadingOut => exact absurd hf hout
      | fadingIn =>
        simp [latched, markFrame, fadeStep, fadeInStep_eq _ rfl, runEndAction_eq, he, hr, hf,
          fadeStarts, endActionRuns, nextBrCnt, nextFade, nextIdleCnt]
  | false =>
    cases hc : idleCounts s <;> cases hf : s.fade <;>
      simp [latched, markFrame, fadeStep, fadeInStep_eq _ rfl, fadeOutStep_eq, hr, hc, hf, fadeStarts,
        endActionRuns, nextBrCnt, nextFade, nextIdleCnt]

/-- The TICK that ends a frame as one update: emission, wrap, boundary (R201 to R209). -/
theorem tickOp_boundary {s : State} (h : boundaryNext s) :
    tickOp s
      = { s with
          segs := s.segs ++ [segmentOf s]
          half := false
          row := 0
          plane := 2
          holdRem := s.ht.c
          front := (s.front ^^ s.swapPend)
          swapPend := false
          brCfg := latchedBright s
          brPend := false
          frameChg := true
          brCnt := nextBrCnt s
          fade := nextFade s
          idleCnt := nextIdleCnt s
          fb := if endActionRuns s then
              actionMem s.endAct s.cfg (s.front ^^ s.swapPend) s.fb else s.fb
          animEvents := if endActionRuns s then
              s.animEvents ++ actionEvents s.endAct else s.animEvents } :=
  (tickOp_of_boundaryNext h).trans (frameBoundary_eq _)

/-- Memory and events after the boundary, where the action runs. -/
theorem tickOp_boundary_action {s : State} (hm : Mem.wf s.cfg s.fb) (h : boundaryNext s)
    (hrun : endActionRuns s = true) : actionEffect s (tickOp s) := by
  rw [tickOp_boundary h]
  exact actionEffect_of_update hm rfl (if_pos hrun) (if_pos hrun)

/-- Memory and events after the boundary, where the action does not run. -/
theorem tickOp_boundary_quiet {s : State} (h : boundaryNext s) (hrun : endActionRuns s = false) :
    (tickOp s).fb = s.fb ∧ (tickOp s).animEvents = s.animEvents := by
  rw [tickOp_boundary h]
  simp [hrun]

/-! ## The registers of the fade machine, case by case -/

theorem fadeStarts_iff (s : State) : fadeStarts s = true ↔ idleReaches s ∧ s.fadeEn = true := by
  rw [fadeStarts, Bool.and_eq_true, reachesTrigger_iff]

theorem endActionRuns_iff (s : State) :
    endActionRuns s = true ↔ (idleReaches s ∧ s.fadeEn = false)
      ∨ (s.fade = .fadingOut ∧ s.brCnt.toNat ≤ 1) := by
  simp only [endActionRuns, Bool.or_eq_true, Bool.and_eq_true, reachesTrigger_iff, beq_iff_eq,
    decide_eq_true_eq, Bool.not_eq_true']

/-- While FadingOut runs the idle counter stands (R206). -/
theorem not_idleReaches_of_fadingOut {s : State} (h : s.fade = .fadingOut) : ¬ idleReaches s :=
  fun ⟨⟨_, _, _, hout, _⟩, _⟩ => hout h

theorem guardedDecrement_toNat (b : Byte) :
    (if 0 < b then b - 1 else b).toNat = b.toNat - 1 := by
  revert b
  decide

/-- The guarded increment does not wrap, since it stays at or below its target. -/
theorem guardedIncrement_toNat (b target : Byte) :
    (if b < target then b + 1 else b).toNat
      = if b.toNat < target.toNat then b.toNat + 1 else b.toNat := by
  have hlt := target.isLt
  simp only [BitVec.lt_def]
  split
  · rw [BitVec.toNat_add]
    exact Nat.mod_eq_of_lt (by simp; omega)
  · rfl

theorem nextIdleCnt_of_fade_ne {s : State} (h : s.fade ≠ .fadingIn) (hr : ¬ idleReaches s) :
    nextIdleCnt s = if idleCounts s then s.idleCnt + 1 else s.idleCnt := by
  have hreach : reachesTrigger s = false := by simpa [← reachesTrigger_iff] using hr
  simp [nextIdleCnt, h, hreach]

/-! ## TICK inside a frame -/

theorem exec_tick_eq {s u : State} (h : tickOp s = u) : exec .tick s = .next u := h ▸ rfl

theorem tickOp_of_left {s : State} (h : s.half = false) :
    tickOp s = { s with segs := s.segs ++ [segmentOf s], half := true } :=
  if_pos h

theorem tickOp_of_right {s : State} (h : s.half = true) (hrow : s.row.toNat < s.cfg.h - 1) :
    tickOp s = { s with segs := s.segs ++ [segmentOf s], half := false, row := s.row + 1 } :=
  (if_neg (by simp [emitSegment, h])).trans (if_pos hrow)

/-- The last segment of a pass was put out and the cursor is back at row 0 (R202). -/
def passDone (s : State) : State :=
  { s with segs := s.segs ++ [segmentOf s], half := false, row := 0 }

theorem tickOp_of_passDone {s : State} (h : s.half = true) (hrow : s.cfg.h - 1 ≤ s.row.toNat) :
    tickOp s = endPass (passDone s) :=
  (if_neg (by simp [emitSegment, h])).trans (if_neg (Nat.not_lt.mpr hrow))

theorem endPass_of_lt {s : State} (h : 1 < s.holdRem.toNat) :
    endPass s = { s with holdRem := s.holdRem - 1 } :=
  if_pos (BitVec.lt_def.mpr h : (1 : Byte) < s.holdRem)

theorem endPass_of_le {s : State} (h : s.holdRem.toNat ≤ 1) :
    (s.plane = 2 → endPass s = enterPlane 1 s) ∧ (s.plane = 1 → endPass s = enterPlane 0 s) := by
  have hlast : ¬ (1 : Byte) < s.holdRem := fun hlt => absurd (BitVec.lt_def.mp hlt) (Nat.not_lt.mpr h)
  constructor <;> intro hp <;> simp only [endPass, if_neg hlast, hp]

/-- Settles O30: the emission comes first, so it reads the state before the tick. -/
theorem tickEmitsScannedSegment : Obligations.TickEmitsScannedSegment := by
  intro s pr hrow
  have hphys : physRow s = pr := by simp [physRow, List.getD_eq_getElem?_getD, hrow]
  refine ⟨tickOp s, rfl, ?_⟩
  rw [tickOp_segs, segmentOf, segAddrs, hphys, List.map_map]
  rfl

/-- Settles O31: the five arms of the cursor's advance that are no frame boundary. -/
theorem tickMovesCursorWithinFrame : Obligations.TickMovesCursorWithinFrame := by
  intro s
  refine ⟨fun hl => exec_tick_eq (tickOp_of_left hl), fun hr hrow => exec_tick_eq (tickOp_of_right hr hrow),
    fun hr hrow hh => exec_tick_eq ?_, fun hr hrow hh hp => exec_tick_eq ?_,
    fun hr hrow hh hp => exec_tick_eq ?_⟩ <;> rw [tickOp_of_passDone hr hrow]
  · exact endPass_of_lt (s := passDone s) hh
  · exact (endPass_of_le (s := passDone s) hh).1 hp
  · exact (endPass_of_le (s := passDone s) hh).2 hp

/-! ## TICK at the end of a frame -/

/-- Settles O32: the boundary's update, with the fade machine, memory and events left open. -/
theorem frameBoundaryServesRequests : Obligations.FrameBoundaryServesRequests := by
  intro s h
  refine ⟨tickOp s, rfl, ?_⟩
  rw [tickOp_boundary h]
  rfl

/-- Settles O34: the idle step begins the fade, so neither the fade step nor the action runs. -/
theorem idleTriggerBeginsFade : Obligations.IdleTriggerBeginsFade := by
  intro s h hr hen
  have hstart : fadeStarts s = true := (fadeStarts_iff s).mpr ⟨hr, hen⟩
  have hreach : s.idleCnt + 1 = s.idleTrig := BitVec.eq_of_toNat_eq ((idleCnt_succ_toNat hr.1).trans hr.2)
  have hout : s.fade ≠ .fadingOut := hr.1.2.2.2.1
  have hquiet : endActionRuns s = false := by
    rw [Bool.eq_false_iff, ne_eq, endActionRuns_iff]
    simp [hen, hout]
  obtain ⟨hfb, hev⟩ := tickOp_boundary_quiet h hquiet
  refine ⟨tickOp s, rfl, ?_, ?_, ?_, hfb, hev⟩ <;> rw [tickOp_boundary h]
  · simp [nextFade, hstart]
  · simp [nextBrCnt, hstart]
  · simpa [nextIdleCnt, nextFade, hstart, hen, (idleCounts_iff s).mpr hr.1] using hreach

/-- Settles O35: the idle step runs the action and zeroes the counter, the fade step has nothing to do. -/
theorem idleTriggerRunsActionWithoutFade : Obligations.IdleTriggerRunsActionWithoutFade := by
  intro s hm h hr hen hf
  have hstart : fadeStarts s = false := by simp [fadeStarts, hen]
  have hrun : endActionRuns s = true := (endActionRuns_iff s).mpr (.inl ⟨hr, hen⟩)
  refine ⟨tickOp s, rfl, ?_, ?_, ?_, tickOp_boundary_action hm h hrun⟩ <;> rw [tickOp_boundary h]
  · simp [nextFade, hstart, hf]
  · simp [nextBrCnt, hstart, hf]
  · simp [nextIdleCnt, hf, hen, (reachesTrigger_iff s).mpr hr]

/-- Settles O36: with no fade and no trigger only the counter may move. -/
theorem idleCounterRunsWhenAllowed : Obligations.IdleCounterRunsWhenAllowed := by
  intro s h hf hr
  have hstart : fadeStarts s = false := by
    rw [Bool.eq_false_iff, ne_eq, fadeStarts_iff]
    exact fun hs => hr hs.1
  have hquiet : endActionRuns s = false := by
    rw [Bool.eq_false_iff, ne_eq, endActionRuns_iff]
    simp [hr, hf]
  have hidle : (tickOp s).idleCnt = if idleCounts s then s.idleCnt + 1 else s.idleCnt := by
    rw [tickOp_boundary h]
    exact nextIdleCnt_of_fade_ne (by simp [hf]) hr
  obtain ⟨hfb, hev⟩ := tickOp_boundary_quiet h hquiet
  refine ⟨tickOp s, rfl, fun ha => ?_, fun ha => ?_, ?_, ?_, hfb, hev⟩
  · rw [hidle, if_pos ((idleCounts_iff s).mpr ha), idleCnt_succ_toNat ha]
  · rw [hidle, if_neg (mt (idleCounts_iff s).mp ha)]
  · rw [tickOp_boundary h]
    simp [nextFade, hstart, hf]
  · rw [tickOp_boundary h]
    simp [nextBrCnt, hstart, hf]

/-- What a boundary makes of FadingOut (R207). -/
theorem tickOp_boundary_fadingOut {s : State} (h : boundaryNext s) (hf : s.fade = .fadingOut) :
    (tickOp s).brCnt.toNat = s.brCnt.toNat - 1 ∧ (tickOp s).idleCnt = s.idleCnt
      ∧ (tickOp s).fade = if s.brCnt.toNat ≤ 1 then .fadingIn else .fadingOut := by
  have hr := not_idleReaches_of_fadingOut hf
  have hstart : fadeStarts s = false := by
    rw [Bool.eq_false_iff, ne_eq, fadeStarts_iff]
    exact fun hs => hr hs.1
  have hstand : idleCounts s = false := by simp [idleCounts, hf]
  rw [tickOp_boundary h]
  refine ⟨?_, ?_, ?_⟩ <;> dsimp only
  · simpa only [nextBrCnt, hstart, hf, Bool.false_eq_true, if_false] using
      guardedDecrement_toNat s.brCnt
  · simp [nextIdleCnt_of_fade_ne (s := s) (by simp [hf]) hr, hstand]
  · simp [nextFade, hstart, hf]

/-- Settles O37: the guarded decrement, and the action at 0. -/
theorem fadeOutCountsDownToAction : Obligations.FadeOutCountsDownToAction := by
  intro s hm h hf
  obtain ⟨hcnt, hidle, hfade⟩ := tickOp_boundary_fadingOut h hf
  refine ⟨tickOp s, rfl, hcnt, hidle, fun hhigh => ⟨?_, tickOp_boundary_quiet h ?_⟩,
    fun hlow => ⟨by rw [hfade, if_pos hlow], tickOp_boundary_action hm h ?_⟩⟩
  · rw [hfade, if_neg (by omega)]
  · rw [Bool.eq_false_iff, ne_eq, endActionRuns_iff]
    rintro (⟨hr, -⟩ | ⟨-, hlow⟩)
    · exact not_idleReaches_of_fadingOut hf hr
    · omega
  · exact (endActionRuns_iff s).mpr (.inr ⟨hf, hlow⟩)

/-- What a boundary that starts no fade makes of FadingIn (R206, R207). -/
theorem tickOp_boundary_fadingIn {s : State} (h : boundaryNext s) (hf : s.fade = .fadingIn)
    (hs : fadeStarts s = false) :
    (tickOp s).brCnt.toNat
        = (if s.brCnt.toNat < (latchedBright s).toNat then s.brCnt.toNat + 1 else s.brCnt.toNat)
      ∧ (tickOp s).fade
        = (if (latchedBright s).toNat ≤ (tickOp s).brCnt.toNat then .none else .fadingIn)
      ∧ (tickOp s).idleCnt
        = if (latchedBright s).toNat ≤ (tickOp s).brCnt.toNat then 0
          else if reachesTrigger s && !s.fadeEn then 0
          else if idleCounts s then s.idleCnt + 1 else s.idleCnt := by
  have hcnt : nextBrCnt s = if s.brCnt < latchedBright s then s.brCnt + 1 else s.brCnt := by
    simp only [nextBrCnt, hs, hf, Bool.false_eq_true, if_false]
  have hfade : nextFade s = if (latchedBright s).toNat ≤ (nextBrCnt s).toNat then .none else .fadingIn := by
    simp only [nextFade, hs, hf, Bool.false_eq_true, if_false, BitVec.le_def]
  rw [tickOp_boundary h]
  refine ⟨?_, hfade, ?_⟩ <;> dsimp only
  · rw [hcnt, guardedIncrement_toNat]
  · rw [nextIdleCnt, hfade]
    split <;> simp [hf]

/-- Settles O38: the guarded increment against the level just latched, and the idle step before it. -/
theorem fadeInCountsUpToTarget : Obligations.FadeInCountsUpToTarget := by
  intro s hm h hf hns
  have hs : fadeStarts s = false := by rwa [Bool.eq_false_iff, ne_eq, fadeStarts_iff]
  obtain ⟨hcnt, hfade, hidle⟩ := tickOp_boundary_fadingIn h hf hs
  have hen : idleReaches s → s.fadeEn = false := fun hr => by simpa [hr] using hns
  have hreach := reachesTrigger_iff s
  have hcount := idleCounts_iff s
  refine ⟨tickOp s, rfl, hcnt, fun ht => ?_, fun ht => ⟨?_, fun hr => ?_, fun hr ha => ?_, fun ha => ?_⟩,
    fun hr => tickOp_boundary_action hm h ((endActionRuns_iff s).mpr (.inl ⟨hr, hen hr⟩)),
    fun hr => tickOp_boundary_quiet h ?_⟩
  · rw [hfade, hidle, if_pos ht]
    exact ⟨rfl, if_pos ht⟩
  · rw [hfade, if_neg (by omega)]
  · rw [hidle, if_neg (by omega), hreach.mpr hr, hen hr]
    rfl
  · have hno : reachesTrigger s = false := by rwa [Bool.eq_false_iff, ne_eq, hreach]
    rw [hidle, if_neg (by omega), hno, if_neg (by simp), if_pos (hcount.mpr ha), idleCnt_succ_toNat ha]
  · have hno : idleCounts s = false := by rwa [Bool.eq_false_iff, ne_eq, hcount]
    rw [hidle, if_neg (by omega), reachesTrigger, hno]
    rfl
  · rw [Bool.eq_false_iff, ne_eq, endActionRuns_iff]
    simp [hr, hf]

/-! ## The first TICK after reset -/

theorem hb_le_wb (c : Config) : c.hb ≤ c.wb :=
  Nat.div_le_div_left (by omega) (by omega)

/-- Settles O55: the segment is read at the reset cursor, from a memory that is the reset content. -/
theorem firstTickAfterResetShowsPowerOnImage : Obligations.FirstTickAfterResetShowsPowerOnImage := by
  intro c pr hc hrow
  have hphys : physRow (State.resetOf c) = pr := by
    simp [physRow, State.resetOf, List.getD_eq_getElem?_getD, hrow]
  have hpr : pr < c.h := hc.rowRange pr (List.mem_of_getElem? hrow)
  refine ⟨tickOp (State.resetOf c), (segmentOf (State.resetOf c)).data, rfl, ?_, ?_, fun j hj => ?_⟩
  · rw [tickOp_segs, ← hphys]
    rfl
  · simp [segmentOf, segAddrs, State.resetOf, Config.hb]
  · have hbc : j < c.wb := Nat.lt_of_lt_of_le hj (hb_le_wb c)
    have haddr : addr c false 2 pr j = 2 * (c.w / 8 * c.h) + pr * (c.w / 8) + j := by
      simp [addr_eq_geometry]
    have hlt := addr_false_lt_bufLen c (p := 2) (by omega) hpr hbc
    rw [← haddr, powerOnImage_eq_memRead_resetOf hc hlt, segmentOf, segAddrs, hphys]
    simp [State.resetOf, Config.hb, hj]

end Sys2Proof.Machine
end

section
/-! PROOFS. Runs of ticks: how many ticks stand before the next frame boundary, that each one only moves the cursor, and where the cursor stands inside a frame (43_tick.md sections 3 and 5). -/

namespace Sys2Proof.Machine

open Sys2Proof

/-! ## Runs of ticks -/

theorem ticks_succ (n : Nat) (s : State) : ticks (n + 1) s = tickOp (ticks n s) := by
  induction n generalizing s with
  | zero => rfl
  | succ n ih => exact ih (tickOp s)

theorem ticks_add (m n : Nat) (s : State) : ticks (m + n) s = ticks n (ticks m s) := by
  induction n with
  | zero => rfl
  | succ n ih => rw [← Nat.add_assoc, ticks_succ, ih, ticks_succ]

theorem ticks_frames_succ (k T : Nat) (s : State) :
    ticks ((k + 1) * T) s = ticks T (ticks (k * T) s) := by
  rw [Nat.succ_mul, ticks_add]

/-- Between the two states only segments were put out and the cursor moved (R202). -/
def onlyScanned (s u : State) : Prop :=
  u = { s with
    segs := u.segs
    row := u.row
    half := u.half
    plane := u.plane
    holdRem := u.holdRem }

theorem onlyScanned.trans {s u v : State} (h : onlyScanned s u) (h' : onlyScanned u v) :
    onlyScanned s v := by
  unfold onlyScanned at *
  rw [h', h]

/-- A tick that runs no frame boundary only moves the cursor (R202). -/
theorem tickOp_onlyScanned {s : State} (hb : ¬ boundaryNext s) : onlyScanned s (tickOp s) := by
  unfold tickOp
  rcases advance_cases (emitSegment s) with
    ⟨-, h⟩ | ⟨-, -, h⟩ | ⟨-, -, -, h⟩ | ⟨-, -, -, -, h⟩ | ⟨-, -, -, -, h⟩ | ⟨h1, h2, h3, h4, -⟩
  case inr.inr.inr.inr.inr => exact absurd ⟨h1, h2, h3, h4⟩ hb
  all_goals
    rw [h]
    rfl

/-! ## The countdown to the frame boundary -/

/-- The ticks left in the pass after the next one (R202). -/
def segsLeft (s : State) : Nat := 2 * (s.cfg.h - 1 - s.row.toNat) + (!s.half).toNat

/-- The passes of the planes after the current one (R202). -/
def passesBelow (s : State) : Nat :=
  match s.plane with
  | 0 => 0
  | 1 => passes s 0
  | 2 => passes s 0 + passes s 1

/-- The passes left after the current one (R202). -/
def passesLeft (s : State) : Nat := s.holdRem.toNat - 1 + passesBelow s

/-- The ticks in front of the one that runs the frame boundary. -/
def ticksLeft (s : State) : Nat := segsLeft s + 2 * s.cfg.h * passesLeft s

theorem passes_pos (s : State) (k : Fin 3) : 1 ≤ passes s k := Nat.le_max_left _ _

theorem passes_le (s : State) (k : Fin 3) : passes s k ≤ 255 := by
  have := (holdAt s.ht k).isLt
  simp only [passes]
  omega

/-- The row index is in range, and so small that its successor does not wrap. -/
structure RowLegal (s : State) : Prop where
  row_lt : s.row.toNat < s.cfg.h
  h_le : s.cfg.h ≤ 255

theorem MachineInv.rowLegal {s : State} (h : MachineInv s) : RowLegal s :=
  ⟨h.rowInRange, h.config.hHigh⟩

/-- A run of ticks has the boundary next exactly when its countdown is over. -/
theorem boundaryNext_iff {s : State} (h : RowLegal s) : boundaryNext s ↔ ticksLeft s = 0 := by
  have hrow := h.row_lt
  have hp0 := passes_pos s 0
  have hpl : passesBelow s = 0 ↔ s.plane = 0 := by
    unfold passesBelow
    split <;> simp_all <;> omega
  have hhalf : (!s.half).toNat = 0 ↔ s.half = true := by cases s.half <;> simp
  have hmul : 2 * s.cfg.h * passesLeft s = 0 ↔ passesLeft s = 0 := by
    simp only [Nat.mul_eq_zero]
    omega
  rw [ticksLeft, Nat.add_eq_zero_iff, hmul, segsLeft, Nat.add_eq_zero_iff, hhalf, passesLeft,
    Nat.add_eq_zero_iff, hpl]
  constructor
  · rintro ⟨h1, h2, h3, h4⟩
    exact ⟨⟨by omega, h1⟩, by omega, h4⟩
  · rintro ⟨⟨h1, h2⟩, h3, h4⟩
    exact ⟨h2, by omega, by omega, h4⟩

/-- The current plane has no more passes left than it is shown for, as is so from its entry on. -/
def holdLegal (s : State) : Prop := s.holdRem.toNat ≤ passes s s.plane

/-- Inside a pass the countdown is that of its segments. -/
theorem ticksLeft_insidePass {s u : State} (hc : u.cfg = s.cfg) (hp : passesLeft u = passesLeft s)
    (hs : segsLeft u + 1 = segsLeft s) : ticksLeft u + 1 = ticksLeft s := by
  rw [ticksLeft, ticksLeft, hc, hp, ← hs]
  omega

/-- From one pass to the next the countdown goes on. -/
theorem ticksLeft_nextPass {s u : State} (hend : s.row.toNat = s.cfg.h - 1) (hh : 1 ≤ s.cfg.h)
    (hhalf : s.half = true) (hc : u.cfg = s.cfg) (hr : u.row = 0) (hl : u.half = false)
    (hp : passesLeft u + 1 = passesLeft s) : ticksLeft u + 1 = ticksLeft s := by
  have hmul : 2 * s.cfg.h * passesLeft s = 2 * s.cfg.h * passesLeft u + 2 * s.cfg.h := by
    rw [← hp, Nat.mul_succ]
  have hs : segsLeft s = 0 := by simp [segsLeft, hend, hhalf]
  have hu : segsLeft u + 1 = 2 * s.cfg.h := by
    simp [segsLeft, hc, hr, hl]
    omega
  rw [ticksLeft, ticksLeft, hc, hs, hmul]
  omega

/-- A plane just entered is shown for its passes. -/
theorem holdAt_pred_succ (s : State) (k : Fin 3) : (holdAt s.ht k).toNat - 1 + 1 = passes s k := by
  unfold passes
  omega

/-- A tick in front of the boundary moves the cursor by one in the countdown. -/
theorem tickOp_inside {s : State} (h : RowLegal s) (hb : ¬ boundaryNext s) :
    RowLegal (tickOp s) ∧ ticksLeft (tickOp s) + 1 = ticksLeft s
      ∧ (holdLegal s → holdLegal (tickOp s)) := by
  obtain ⟨hrow, hh⟩ := h
  by_cases hl : s.half = false
  · rw [tickOp_of_left hl]
    exact ⟨⟨hrow, hh⟩, ticksLeft_insidePass rfl rfl (by simp [segsLeft, hl]), id⟩
  have hr : s.half = true := by simpa using hl
  by_cases hlast : s.row.toNat < s.cfg.h - 1
  · have hnext : (s.row + 1).toNat = s.row.toNat + 1 := by
      rw [BitVec.toNat_add]
      exact Nat.mod_eq_of_lt (by simp; omega)
    rw [tickOp_of_right hr hlast]
    refine ⟨⟨hnext ▸ (by omega : s.row.toNat + 1 < s.cfg.h), hh⟩,
      ticksLeft_insidePass rfl rfl ?_, id⟩
    simp only [segsLeft, hnext, hr]
    simp
    omega
  have hend : s.row.toNat = s.cfg.h - 1 := by omega
  have hpos : 1 ≤ s.cfg.h := by omega
  rw [tickOp_of_passDone hr (by omega)]
  by_cases hhold : 1 < s.holdRem.toNat
  · have hdec : (s.holdRem - 1).toNat = s.holdRem.toNat - 1 :=
      BitVec.toNat_sub_of_le (BitVec.le_def.mpr hhold.le)
    rw [endPass_of_lt (s := passDone s) hhold]
    refine ⟨⟨hpos, hh⟩, ticksLeft_nextPass hend hpos hr rfl rfl rfl ?_,
      fun hq => Nat.le_trans (Nat.le_of_eq hdec) (Nat.le_trans (Nat.sub_le _ 1) hq)⟩
    show (s.holdRem - 1).toNat - 1 + passesBelow s + 1 = s.holdRem.toNat - 1 + passesBelow s
    omega
  have hhold : s.holdRem.toNat ≤ 1 := by omega
  have hentered : ∀ k : Fin 3, passesBelow s = passesBelow (enterPlane k s) + passes s k →
      RowLegal (enterPlane k (passDone s))
        ∧ ticksLeft (enterPlane k (passDone s)) + 1 = ticksLeft s
        ∧ (holdLegal s → holdLegal (enterPlane k (passDone s))) := fun k hk => by
    have hent := holdAt_pred_succ s k
    refine ⟨⟨hpos, hh⟩, ticksLeft_nextPass hend hpos hr rfl rfl rfl ?_,
      fun _ => Nat.le_max_right _ _⟩
    show (holdAt s.ht k).toNat - 1 + passesBelow (enterPlane k s) + 1
      = s.holdRem.toNat - 1 + passesBelow s
    omega
  match hp : s.plane with
  | 2 =>
    rw [(endPass_of_le (s := passDone s) hhold).1 hp]
    exact hentered 1 (by simp only [passesBelow, hp]; rfl)
  | 1 =>
    rw [(endPass_of_le (s := passDone s) hhold).2 hp]
    exact hentered 0 (by simp [passesBelow, hp])
  | 0 => exact absurd ⟨hr, by omega, hhold, hp⟩ hb

/-- Up to the boundary a run of ticks only moves the cursor, and counts down. -/
theorem ticks_inside {s : State} (h : RowLegal s) {n : Nat} (hn : n ≤ ticksLeft s) :
    onlyScanned s (ticks n s) ∧ RowLegal (ticks n s) ∧ ticksLeft (ticks n s) = ticksLeft s - n
      ∧ (holdLegal s → holdLegal (ticks n s)) := by
  induction n with
  | zero => exact ⟨rfl, h, rfl, id⟩
  | succ n ih =>
    obtain ⟨hs, hr, ht, hq⟩ := ih (by omega)
    have hb : ¬ boundaryNext (ticks n s) := by
      rw [boundaryNext_iff hr]
      omega
    obtain ⟨hr', ht', hq'⟩ := tickOp_inside hr hb
    rw [ticks_succ]
    exact ⟨hs.trans (tickOp_onlyScanned hb), hr', by omega, hq' ∘ hq⟩

theorem boundaryNext_ticks_iff {s : State} (h : RowLegal s) {n : Nat} (hn : n ≤ ticksLeft s) :
    boundaryNext (ticks n s) ↔ n = ticksLeft s := by
  obtain ⟨-, hr, ht, -⟩ := ticks_inside h hn
  rw [boundaryNext_iff hr, ht]
  omega

theorem segsLeft_lt {s : State} (h : RowLegal s) : segsLeft s < 2 * s.cfg.h := by
  have hrow := h.row_lt
  have := Bool.toNat_le (!s.half)
  unfold segsLeft
  omega

theorem passesLeft_le (s : State) : passesLeft s ≤ 764 := by
  have h0 := passes_le s 0
  have h1 := passes_le s 1
  have hh := s.holdRem.isLt
  have hb : passesBelow s ≤ 510 := by
    unfold passesBelow
    split <;> omega
  unfold passesLeft
  omega

/-- A frame boundary comes within the ticks of the longest frame (R210). -/
theorem ticksLeft_lt {s : State} (h : RowLegal s) : ticksLeft s < 2 * s.cfg.h * 765 := by
  have hs := segsLeft_lt h
  have hp : 2 * s.cfg.h * passesLeft s ≤ 2 * s.cfg.h * 764 :=
    Nat.mul_le_mul_left _ (passesLeft_le s)
  unfold ticksLeft
  omega

/-- Settles O41: the countdown names the tick, no tick before it runs a boundary, and the boundary serves the swap. -/
theorem swapIsServedWithinOneFrame : Obligations.SwapIsServedWithinOneFrame := by
  intro s hinv hswap
  have h := hinv.rowLegal
  have hlt := ticksLeft_lt h
  have hscan : ∀ m ≤ ticksLeft s, (ticks m s).swapPend = true ∧ (ticks m s).front = s.front :=
    fun m hm => by
      rw [(ticks_inside h hm).1]
      exact ⟨hswap, rfl⟩
  have hb := (boundaryNext_ticks_iff h le_rfl).mpr rfl
  obtain ⟨hs, hf⟩ := hscan _ le_rfl
  refine ⟨ticksLeft s + 1, by omega, hlt, ?_, ?_, hb, fun m hm => ?_, fun m hm => hscan m (by omega)⟩
  · rw [ticks_succ, tickOp_boundary hb]
  · rw [ticks_succ, tickOp_boundary hb]
    simp [hs, hf]
  · rw [boundaryNext_ticks_iff h (by omega)]
    omega

/-! ## One frame -/

theorem frameStart.rowLegal {s : State} (h : frameStart s) (hc : s.cfg.Valid) : RowLegal s := by
  obtain ⟨hrow, -⟩ := h
  exact ⟨by rw [hrow]; exact hc.hLow, hc.hHigh⟩

theorem frameStart.holdLegal {s : State} (h : frameStart s) : holdLegal s := by
  obtain ⟨-, -, hplane, hhold⟩ := h
  rw [Machine.holdLegal, hplane, hhold]
  exact Nat.le_max_right _ _

/-- The passes of one frame (R210). -/
def framePasses (s : State) : Nat := passes s 0 + passes s 1 + passes s 2

/-- From its start a frame has all its ticks but the last in front of its boundary (R210). -/
theorem ticksLeft_frameStart {s : State} (h : frameStart s) (hc : s.cfg.Valid) :
    ticksLeft s + 1 = frameTicks s := by
  obtain ⟨hrow, hhalf, hplane, hhold⟩ := h
  have hlow := hc.hLow
  have hp2 := holdAt_pred_succ s 2
  have hs : segsLeft s + 1 = 2 * s.cfg.h := by
    simp [segsLeft, hrow, hhalf]
    omega
  have hp : passesLeft s + 1 = framePasses s := by
    simp only [passesLeft, passesBelow, hplane, hhold, framePasses]
    simp only [holdAt] at hp2
    omega
  show _ = 2 * s.cfg.h * framePasses s
  rw [← hp, Nat.mul_succ, ticksLeft]
  omega

/-- The plane that pass `j` of a frame shows (R213). -/
def passPlane (s : State) (j : Nat) : Fin 3 :=
  if j < passes s 2 then 2 else if j < passes s 2 + passes s 1 then 1 else 0

/-- Where the cursor stands at a tick of the frame, the tick counted as pass and segment of the pass (R202, R213). -/
theorem cursor_in_frame {s : State} (h : frameStart s) (hc : s.cfg.Valid) {j c : Nat}
    (hj : j < framePasses s) (hseg : c < 2 * s.cfg.h) :
    2 * (ticks (2 * s.cfg.h * j + c) s).row.toNat + (ticks (2 * s.cfg.h * j + c) s).half.toNat = c
      ∧ (ticks (2 * s.cfg.h * j + c) s).plane = passPlane s j := by
  have hT := ticksLeft_frameStart h hc
  have hn : 2 * s.cfg.h * j + c ≤ ticksLeft s := by
    have : 2 * s.cfg.h * (j + 1) ≤ 2 * s.cfg.h * framePasses s := Nat.mul_le_mul_left _ hj
    rw [Nat.mul_succ] at this
    have hT' : ticksLeft s + 1 = 2 * s.cfg.h * framePasses s := hT
    omega
  obtain ⟨hs, hr, ht, hq⟩ := ticks_inside (h.rowLegal hc) hn
  replace hq := hq h.holdLegal
  generalize ticks (2 * s.cfg.h * j + c) s = u at hs hr ht hq ⊢
  have hcfg : u.cfg = s.cfg := by rw [hs]
  have hpass : ∀ k, passes u k = passes s k := fun k => by rw [hs]; rfl
  have hlt := segsLeft_lt hr
  rw [hcfg] at hlt
  have hsplit : passesLeft u * (2 * s.cfg.h) + segsLeft u
      = (framePasses s - 1 - j) * (2 * s.cfg.h) + (2 * s.cfg.h - 1 - c) := by
    obtain ⟨d, hd⟩ := Nat.exists_eq_add_of_lt hj
    have hTd : ticksLeft s + 1 = 2 * s.cfg.h * j + 2 * s.cfg.h * d + 2 * s.cfg.h := by
      rw [hT, ← Nat.mul_add, ← Nat.mul_add_one, ← hd]
      rfl
    have hu : ticksLeft u = segsLeft u + 2 * s.cfg.h * passesLeft u := by rw [ticksLeft, hcfg]
    have hdj : framePasses s - 1 - j = d := by omega
    rw [hdj, Nat.mul_comm _ (2 * s.cfg.h), Nat.mul_comm d]
    omega
  obtain ⟨hp, hg⟩ := mixed_radix hlt (by omega) hsplit
  have hrow := hr.row_lt
  rw [hcfg] at hrow
  refine ⟨?_, ?_⟩
  · rw [segsLeft, hcfg] at hg
    cases hh : u.half <;> rw [hh] at hg <;> simp at hg ⊢ <;> omega
  · have hp0 := passes_pos s 0
    have hp1 := passes_pos s 1
    simp only [holdLegal, passesLeft, passesBelow, hpass, framePasses] at hq hp hj
    unfold passPlane
    match hpl : u.plane with
    | 2 => simp only [hpl] at hq hp; rw [if_pos (by omega)]
    | 1 => simp only [hpl] at hq hp; rw [if_neg (by omega), if_pos (by omega)]
    | 0 => simp only [hpl] at hq hp; rw [if_neg (by omega), if_neg (by omega)]

/-- The last tick of a frame runs its boundary from a state that has only been scanned (R210). -/
theorem frame_boundary {s : State} (h : frameStart s) (hc : s.cfg.Valid) :
    ∃ u, ticks (frameTicks s) s = tickOp u ∧ boundaryNext u ∧ onlyScanned s u := by
  have hr := h.rowLegal hc
  refine ⟨ticks (ticksLeft s) s, ?_, (boundaryNext_ticks_iff hr le_rfl).mpr rfl,
    (ticks_inside hr le_rfl).1⟩
  rw [← ticksLeft_frameStart h hc, ticks_succ]

theorem frameStart_of_boundary {u : State} (h : boundaryNext u) :
    frameStart (tickOp u) ∧ (tickOp u).frameChg = true := by
  rw [tickOp_boundary h]
  exact ⟨⟨rfl, rfl, rfl, rfl⟩, rfl⟩

/-- Settles O39: each tick's place in the frame gives its cursor, and the countdown gives the boundary. -/
theorem frameScansPlanesByHoldCounts : Obligations.FrameScansPlanesByHoldCounts := by
  intro s hinv h
  have hc := hinv.config
  have hr := h.rowLegal hc
  have hT := ticksLeft_frameStart h hc
  have hpos : 0 < 2 * s.cfg.h := by
    have := hc.hLow
    omega
  have hframe : frameTicks s = 2 * s.cfg.h * framePasses s := rfl
  have hp : ∀ k, 1 ≤ passes s k ∧ passes s k ≤ 255 := fun k => ⟨passes_pos s k, passes_le s k⟩
  obtain ⟨u, hu, hb, -⟩ := frame_boundary h hc
  refine ⟨fun n hn => ?_, fun n hn => ?_, ?_, ?_, ?_, ?_⟩
  · have hj : n / (2 * s.cfg.h) < framePasses s := by
      rw [Nat.div_lt_iff_lt_mul hpos, Nat.mul_comm]
      exact hn
    obtain ⟨hcur, hpl⟩ := cursor_in_frame h hc hj (Nat.mod_lt n hpos)
    rw [Nat.div_add_mod] at hcur hpl
    unfold passPlane at hpl
    have hpass : ∀ q, n < 2 * s.cfg.h * q ↔ n / (2 * s.cfg.h) < q := fun q => by
      rw [Nat.div_lt_iff_lt_mul hpos, Nat.mul_comm]
    refine ⟨?_, ?_, fun h2 => ?_, fun h2 h1 => ?_, fun h0 => ?_, (ticks_inside hr (by omega)).1⟩
    · have hmod : n % (2 * s.cfg.h) % 2 = n % 2 := Nat.mod_mul_right_mod n 2 s.cfg.h
      cases hh : (ticks n s).half <;> rw [hh] at hcur <;> simp at hcur ⊢ <;> omega
    · have hdiv : n % (2 * s.cfg.h) / 2 = n / 2 % s.cfg.h := Nat.mod_mul_right_div_self n 2 s.cfg.h
      have := Bool.toNat_le (ticks n s).half
      omega
    · rw [hpl, if_pos ((hpass _).mp h2)]
    · rw [hpl, if_neg (mt (hpass _).mpr (by omega)), if_pos ((hpass _).mp h1)]
    · rw [hpl, if_neg, if_neg (mt (hpass _).mpr (by omega))]
      intro h2
      have := (hpass (passes s 2 + passes s 1)).mpr (by omega)
      omega
  · rw [boundaryNext_ticks_iff hr (by omega)]
    omega
  · rw [hu]
    exact (frameStart_of_boundary hb).1
  · rw [hu]
    exact (frameStart_of_boundary hb).2
  · have : 2 * s.cfg.h * 3 ≤ frameTicks s := Nat.mul_le_mul_left _ (by
      have := hp 0; have := hp 1; have := hp 2; omega)
    omega
  · exact Nat.mul_le_mul_left _ (by have := hp 0; have := hp 1; have := hp 2; omega)

/-! ## A fade, frame by frame -/

/-- A frame of the fade begun in `s₀` starts, the fade in phase `f` at level `b`: no brightness is pending and the idle counter is gated by its trigger. -/
structure FadeFrame (s₀ : State) (f : Fade) (b : Nat) (s : State) : Prop where
  start : frameStart s
  cfg : s.cfg = s₀.cfg
  ht : s.ht = s₀.ht
  brPend : s.brPend = false
  brCfg : s.brCfg = s₀.brCfg
  gated : s.idleTrig.toNat ≤ s.idleCnt.toNat
  fade : s.fade = f
  brCnt : s.brCnt.toNat = b

theorem FadeFrame.frameTicks {s₀ s : State} {f : Fade} {b : Nat} (h : FadeFrame s₀ f b s) :
    frameTicks s = frameTicks s₀ := by
  simp only [Machine.frameTicks, passes, h.cfg, h.ht]

/-- The frame's boundary is met in a state with the fade machine as at the frame's start. -/
theorem FadeFrame.boundary {s₀ s : State} {f : Fade} {b : Nat} (h : FadeFrame s₀ f b s)
    (hc : s₀.cfg.Valid) :
    ∃ u, ticks (Machine.frameTicks s₀) s = tickOp u ∧ boundaryNext u ∧ u.fade = f ∧ u.brCnt.toNat = b
      ∧ u.cfg = s₀.cfg ∧ u.ht = s₀.ht ∧ latchedBright u = s₀.brCfg ∧ u.idleTrig.toNat ≤ u.idleCnt.toNat := by
  obtain ⟨u, hu, hb, hs⟩ := frame_boundary h.start (h.cfg ▸ hc)
  rw [h.frameTicks] at hu
  refine ⟨u, hu, hb, ?_⟩
  rw [hs]
  exact ⟨h.fade, h.brCnt, h.cfg, h.ht, by simp [latchedBright, h.brPend, h.brCfg], h.gated⟩

theorem fadeFrame_tickOp {s₀ u : State} {f : Fade} {b : Nat} (hb : boundaryNext u)
    (hcfg : u.cfg = s₀.cfg) (hht : u.ht = s₀.ht) (hl : latchedBright u = s₀.brCfg)
    (hg : u.idleTrig.toNat ≤ u.idleCnt.toNat) (hidle : (tickOp u).idleCnt = u.idleCnt)
    (hf : (tickOp u).fade = f) (hn : (tickOp u).brCnt.toNat = b) : FadeFrame s₀ f b (tickOp u) where
  start := (frameStart_of_boundary hb).1
  cfg := (tickOp_cfg u).trans hcfg
  ht := (tickOp_ht u).trans hht
  brPend := by rw [tickOp_boundary hb]
  brCfg := by rw [tickOp_boundary hb]; exact hl
  gated := by rw [tickOp_idleTrig, hidle]; exact hg
  fade := hf
  brCnt := hn

/-- A counter at or above its trigger does not advance, so it starts no fade (R206). -/
theorem idle_gated {u : State} (hg : u.idleTrig.toNat ≤ u.idleCnt.toNat) :
    idleCounts u = false ∧ fadeStarts u = false := by
  have hcount : idleCounts u = false := by
    rw [Bool.eq_false_iff, ne_eq, idleCounts_iff]
    rintro ⟨-, -, -, -, hlt⟩
    omega
  exact ⟨hcount, by simp [fadeStarts, reachesTrigger, hcount]⟩

/-- One frame of FadingOut (R207). -/
theorem FadeFrame.out {s₀ s : State} {b : Nat} (h : FadeFrame s₀ .fadingOut b s)
    (hc : s₀.cfg.Valid) :
    FadeFrame s₀ (if b ≤ 1 then .fadingIn else .fadingOut) (b - 1)
      (ticks (Machine.frameTicks s₀) s) := by
  obtain ⟨u, hu, hb, hf, hn, hcfg, hht, hl, hg⟩ := h.boundary hc
  obtain ⟨hcnt, hidle, hfade⟩ := tickOp_boundary_fadingOut hb hf
  rw [hn] at hcnt hfade
  rw [hu]
  exact fadeFrame_tickOp hb hcfg hht hl hg hidle hfade hcnt

/-- One frame of FadingIn: one level up, and over at the target with the idle counter at 0 (R207). -/
theorem FadeFrame.in {s₀ s : State} {b : Nat} (h : FadeFrame s₀ .fadingIn b s) (hc : s₀.cfg.Valid)
    (hlt : b < s₀.brCfg.toNat) :
    (b + 1 < s₀.brCfg.toNat → FadeFrame s₀ .fadingIn (b + 1) (ticks (Machine.frameTicks s₀) s))
      ∧ (b + 1 = s₀.brCfg.toNat → (ticks (Machine.frameTicks s₀) s).fade = .none
        ∧ (ticks (Machine.frameTicks s₀) s).brCnt = s₀.brCfg
        ∧ (ticks (Machine.frameTicks s₀) s).idleCnt = 0) := by
  obtain ⟨u, hu, hb, hf, hn, hcfg, hht, hl, hg⟩ := h.boundary hc
  obtain ⟨hcount, hstart⟩ := idle_gated hg
  obtain ⟨hcnt, hfade, hidle⟩ := tickOp_boundary_fadingIn hb hf hstart
  rw [hn, hl, if_pos hlt] at hcnt
  rw [hl, hcnt] at hfade hidle
  rw [hu]
  refine ⟨fun hin => ?_, fun hat => ⟨?_, BitVec.eq_of_toNat_eq (hcnt.trans hat), ?_⟩⟩
  · rw [if_neg (by omega)] at hfade hidle
    exact fadeFrame_tickOp hb hcfg hht hl hg (by simpa [reachesTrigger, hcount] using hidle) hfade hcnt
  · rw [hfade, if_pos hat.ge]
  · rw [hidle, if_pos hat.ge]

/-- Settles O42: an induction over the frames down, and one over the frames up. -/
theorem fadeCycleTakesTwiceBrightnessFrames : Obligations.FadeCycleTakesTwiceBrightnessFrames := by
  intro s hinv hstart hf hbr hcnt hpos hg
  have hc := hinv.config
  have hdown : ∀ k < s.brCfg.toNat,
      FadeFrame s .fadingOut (s.brCfg.toNat - k) (ticks (k * frameTicks s) s) := by
    intro k hk
    induction k with
    | zero =>
      rw [Nat.zero_mul]
      exact ⟨hstart, rfl, rfl, hbr, rfl, hg, hf, congrArg BitVec.toNat hcnt⟩
    | succ k ih =>
      have hout := (ih (by omega)).out hc
      rwa [if_neg (by omega), ← ticks_frames_succ] at hout
  have hup : ∀ k < s.brCfg.toNat,
      FadeFrame s .fadingIn k (ticks ((s.brCfg.toNat + k) * frameTicks s) s) := by
    intro k hk
    induction k with
    | zero =>
      have hout := (hdown (s.brCfg.toNat - 1) (by omega)).out hc
      rwa [if_pos (by omega), ← ticks_frames_succ, Nat.sub_sub_self hpos, Nat.sub_add_cancel hpos]
        at hout
    | succ k ih =>
      have hin := ((ih (by omega)).in hc (by omega)).1 hk
      rwa [← ticks_frames_succ] at hin
  have hlast := ((hup (s.brCfg.toNat - 1) (by omega)).in hc (by omega)).2 (by omega)
  have htwice : s.brCfg.toNat + (s.brCfg.toNat - 1) + 1 = 2 * s.brCfg.toNat := by omega
  rw [← ticks_frames_succ, htwice] at hlast
  exact ⟨fun k hk => ⟨(hdown k hk).fade, (hdown k hk).brCnt⟩,
    fun k hk => ⟨(hup k hk).fade, (hup k hk).brCnt⟩, hlast⟩

end Sys2Proof.Machine
end

section
/-! PROOFS. Gray levels: how often a pixel is lit in one frame (43_tick.md R211). -/

namespace Sys2Proof.Machine

open Sys2Proof

/-! ## Counting over passes and segments -/

theorem countP_range_add (p : Nat → Bool) (m n : Nat) :
    (List.range (m + n)).countP p
      = (List.range m).countP p + (List.range n).countP (fun j => p (m + j)) := by
  rw [List.range_add, List.countP_append, List.countP_map]
  rfl

theorem countP_range_const {p : Nat → Bool} {n : Nat} {b : Bool} (h : ∀ j < n, p j = b) :
    (List.range n).countP p = if b then n else 0 := by
  cases b with
  | false =>
    rw [List.countP_eq_zero.mpr (fun j hj => by simp [h j (List.mem_range.mp hj)])]
    rfl
  | true =>
    rw [List.countP_eq_length.mpr (fun j hj => h j (List.mem_range.mp hj)), List.length_range]
    rfl

/-- One segment of every pass is asked for: the passes in which it is lit are counted. -/
theorem countP_passes {p q : Nat → Bool} {m c J : Nat} (hc : c < m)
    (h : ∀ j < J, ∀ i < m, p (m * j + i) = (i == c && q j)) :
    (List.range (m * J)).countP p = (List.range J).countP q := by
  induction J with
  | zero => rfl
  | succ J ih =>
    have hpass : (List.range m).countP (fun i => p (m * J + i)) = if q J then 1 else 0 := by
      cases hq : q J with
      | false =>
        rw [countP_range_const (b := false) fun i hi => by rw [h J (by omega) i hi, hq, Bool.and_false]]
        rfl
      | true =>
        have hone : (List.range m).count c = 1 :=
          List.count_eq_one_of_mem List.nodup_range (List.mem_range.mpr hc)
        rw [← hone, List.count]
        exact List.countP_congr fun i hi => by
          rw [h J (by omega) i (List.mem_range.mp hi), hq, Bool.and_true]
    rw [Nat.mul_succ, countP_range_add, ih fun j hj => h j (by omega), hpass, List.range_succ,
      List.countP_append, List.countP_singleton]

/-! ## The lit pixel -/

/-- A permutation of the rows scans each row at exactly one row index (00_scope.md R9). -/
theorem exists_rowIndex {c : Config} (hc : c.Valid) {y : Nat} (hy : y < c.h) :
    ∃ r < c.h, ∀ r' < c.h, c.rowOrder.getD r' (Config.freeRow r') = y ↔ r' = r := by
  have hperm : c.rowOrder.Perm (List.range c.h) :=
    (List.subperm_of_subset hc.rowDistinct fun r hr => List.mem_range.mpr (hc.rowRange r hr)).perm_of_length_le
      (by rw [List.length_range, hc.rowLength])
  obtain ⟨r, hr, hry⟩ := List.getElem_of_mem (hperm.mem_iff.mpr (List.mem_range.mpr hy))
  have hlen := hc.rowLength
  refine ⟨r, by omega, fun r' hr' => ?_⟩
  have hr2 : r' < c.rowOrder.length := by omega
  rw [List.getD_eq_getElem _ _ hr2, ← hry]
  exact hc.rowDistinct.getElem_inj_iff

/-- The byte of a half-row's segment that holds a pixel is the byte of the pixel's block. -/
theorem halfRow_column {w x : Nat} (hw : w % 16 = 0) (hx : x < w) :
    x % (w / 2) / 8 < w / 16
      ∧ (decide (w / 2 ≤ x)).toNat * (w / 16) + x % (w / 2) / 8 = x / 8 := by
  obtain ⟨q, rfl⟩ : ∃ q, w = 16 * q := ⟨w / 16, by omega⟩
  have h2 : 16 * q / 2 = 8 * q := by omega
  have h16 : 16 * q / 16 = q := by omega
  rw [h2, h16]
  by_cases hle : 8 * q ≤ x
  · have : x % (8 * q) = x - 8 * q := by
      rw [Nat.mod_eq_sub_mod hle, Nat.mod_eq_of_lt (by omega)]
    simp [hle, this]
    omega
  · rw [Nat.mod_eq_of_lt (by omega)]
    simp [hle]
    omega

theorem planesAt_byte (s : State) (buf : Bool) (bc y : Nat) {p : Nat} (hp : p < 3) :
    (planesAt s buf bc y).byte p = memRead s (addr s.cfg buf p y bc) := by
  match p, hp with
  | 0, _ => rfl
  | 1, _ => rfl
  | 2, _ => rfl

/-- A pixel is lit by a segment of its own row and side, if its bit of the scanned plane is set. -/
theorem lit_eq {s : State} {x y : Nat} (hc : s.cfg.Valid) (hx : x < s.cfg.w) :
    lit x y s = (decide (physRow s = y) && (s.half == decide (s.cfg.w / 2 ≤ x))
      && ((planesAt s s.front (x / 8) y).byte s.plane).getLsbD (x % 8)) := by
  obtain ⟨hlt, hcol⟩ := halfRow_column hc.wMod hx
  have hdata : (segmentOf s).data.getD (x % (s.cfg.w / 2) / 8) 0
      = memRead s (addr s.cfg s.front s.plane (physRow s)
          (s.half.toNat * (s.cfg.w / 16) + x % (s.cfg.w / 2) / 8)) := by
    simp [segmentOf, segAddrs, Config.hb, List.getD_eq_getElem?_getD, hlt]
  unfold lit
  rw [hdata, planesAt_byte _ _ _ _ s.plane.isLt]
  by_cases hrow : physRow s = y
  · by_cases hside : s.half = decide (s.cfg.w / 2 ≤ x)
    · rw [hrow, hside, hcol]
      simp [segmentOf, hrow, hside]
    · rw [beq_eq_false_iff_ne.mpr hside]
      simp [segmentOf, beq_eq_false_iff_ne.mpr hside]
  · simp [segmentOf, hrow]

/-- In a frame a pixel is lit by its own segment of the passes of the planes its bit is set in (R211). -/
theorem lit_in_frame {s : State} (h : frameStart s) (hc : s.cfg.Valid) {x y : Nat} (hx : x < s.cfg.w)
    (hy : y < s.cfg.h) :
    ∃ c < 2 * s.cfg.h, ∀ j < framePasses s, ∀ i < 2 * s.cfg.h,
      lit x y (ticks (2 * s.cfg.h * j + i) s)
        = (i == c && ((planesAt s s.front (x / 8) y).byte (passPlane s j)).getLsbD (x % 8)) := by
  obtain ⟨r, hr, hrow⟩ := exists_rowIndex hc hy
  have hside := Bool.toNat_le (decide (s.cfg.w / 2 ≤ x))
  refine ⟨2 * r + (decide (s.cfg.w / 2 ≤ x)).toNat, by omega, fun j hj i hi => ?_⟩
  obtain ⟨hcur, hplane⟩ := cursor_in_frame h hc hj hi
  have hn : 2 * s.cfg.h * j + i ≤ ticksLeft s := by
    have hT : ticksLeft s + 1 = 2 * s.cfg.h * framePasses s := ticksLeft_frameStart h hc
    have : 2 * s.cfg.h * (j + 1) ≤ 2 * s.cfg.h * framePasses s := Nat.mul_le_mul_left _ hj
    rw [Nat.mul_succ] at this
    omega
  obtain ⟨hs, hlegal, -, -⟩ := ticks_inside (h.rowLegal hc) hn
  generalize ticks (2 * s.cfg.h * j + i) s = u at hcur hplane hs hlegal ⊢
  have hcfg : u.cfg = s.cfg := by rw [hs]
  have hrlt := hlegal.row_lt
  rw [hcfg] at hrlt
  have hphys : physRow u = y ↔ u.row.toNat = r := by
    rw [physRow, hcfg]
    exact hrow _ hrlt
  have hplanes : planesAt u u.front (x / 8) y = planesAt s s.front (x / 8) y := by rw [hs]; rfl
  have hseg : (decide (physRow u = y) && (u.half == decide (s.cfg.w / 2 ≤ x)))
      = (i == 2 * r + (decide (s.cfg.w / 2 ≤ x)).toNat) := by
    rw [Bool.eq_iff_iff]
    simp only [Bool.and_eq_true, decide_eq_true_eq, beq_iff_eq, hphys]
    cases hh : u.half <;> cases decide (s.cfg.w / 2 ≤ x) <;> rw [hh] at hcur <;> simp at hcur ⊢ <;>
      omega
  rw [lit_eq (hcfg ▸ hc) (hcfg ▸ hx), hplanes, hcfg, hseg, hplane]

/-- The passes of a frame in which a bit is set, counted plane by plane. -/
theorem countP_framePasses (s : State) (b : Fin 3 → Bool) :
    (List.range (framePasses s)).countP (fun j => b (passPlane s j))
      = (if b 2 then passes s 2 else 0) + (if b 1 then passes s 1 else 0)
        + (if b 0 then passes s 0 else 0) := by
  have hsum : framePasses s = passes s 2 + passes s 1 + passes s 0 := by
    unfold framePasses
    omega
  rw [hsum, countP_range_add, countP_range_add,
    countP_range_const (b := b 2) fun j hj => by rw [passPlane, if_pos hj],
    countP_range_const (b := b 1) fun j hj => by
      rw [passPlane, if_neg (by omega), if_pos (by omega)],
    countP_range_const (b := b 0) fun j hj => by
      rw [passPlane, if_neg (by omega), if_neg (by omega)]]

/-- A thermometer lane of value `v` is set in the `v` planes shown longest, so its passes add up to the weight of `v` (R211). -/
theorem thermometer_weight {b0 b1 b2 : Bool} (h : Config.lanePattern b0 b1 b2 = true)
    (p0 p1 p2 : Nat) :
    (if b2 then p2 else 0) + (if b1 then p1 else 0) + (if b0 then p0 else 0)
      = match 2 * b1.toNat + ((b0 ^^ b1) || b2).toNat with
        | 0 => 0
        | 1 => p0
        | 2 => p0 + p1
        | _ => p0 + p1 + p2 :=
  match b0, b1, b2, h with
  | false, false, false, _ => rfl
  | true, false, false, _ => by simp
  | true, true, false, _ => by
    show 0 + p1 + p0 = p0 + p1
    omega
  | true, true, true, _ => by
    show p2 + p1 + p0 = p0 + p1 + p2
    omega

/-- Settles O40: the lit ticks are one in each pass whose plane has the bit, and a thermometer lane of value `v` has the bits below `v`. -/
theorem grayValueIsLitForItsWeight : Obligations.GrayValueIsLitForItsWeight := by
  intro s x y hinv h hx hy hcons
  have hc := hinv.config
  obtain ⟨c, hlt, hlit⟩ := lit_in_frame h hc hx hy
  have hframe : frameTicks s = 2 * s.cfg.h * framePasses s := rfl
  rw [← List.countP_eq_length_filter, hframe, countP_passes hlt hlit,
    countP_framePasses s fun k => ((planesAt s s.front (x / 8) y).byte k).getLsbD (x % 8)]
  have hlane := (Planes.consistent_iff _).mp hcons (x % 8) (Nat.mod_lt _ (by omega))
  rw [laneValue_toNat, decodeBlock_high, decodeBlock_low_getLsbD]
  exact thermometer_weight hlane (passes s 0) (passes s 1) (passes s 2)

end Sys2Proof.Machine
end

section
/-! PROOFS. The canonical form of memory is unique (20_memory.md R60; log 3). -/

namespace Sys2Proof.Machine

open Sys2Proof

theorem Mem.wf_tail {c : Config} {x : Host.Cell} {m : List Host.Cell} (h : Mem.wf c (x :: m)) :
    (∀ y ∈ m, x.1 < y.1) ∧ x.2 ≠ resetByte c x.1 ∧ Mem.wf c m := by
  obtain ⟨hsort, hcells⟩ := h
  rw [List.pairwise_cons] at hsort
  exact ⟨hsort.1, (hcells x (by simp)).2, hsort.2, fun y hy => hcells y (by simp [hy])⟩

/-- The lowest listed address is one the other memory lists too, since it reads as no reset content. -/
theorem Mem.head_le {c : Config} {a b : Nat} {v w : Byte} {m m' : List Host.Cell}
    (h : Mem.wf c ((a, v) :: m)) (h' : Mem.wf c ((b, w) :: m'))
    (hr : Mem.find (resetByte c) ((a, v) :: m) a = Mem.find (resetByte c) ((b, w) :: m') a) :
    b ≤ a := by
  by_contra hlt
  obtain ⟨-, hne, -⟩ := Mem.wf_tail h
  obtain ⟨hrise, -, -⟩ := Mem.wf_tail h'
  rw [Mem.find_of_lt (m := (b, w) :: m') fun y hy => ?_] at hr
  · exact hne (by simpa [Mem.find] using hr)
  · rcases List.mem_cons.1 hy with rfl | hy
    · exact Nat.lt_of_not_le hlt
    · exact lt_trans (Nat.lt_of_not_le hlt) (hrise y hy)

/-- Equal reads are equal lists: the heads agree, and above them the tails read alike. -/
theorem Mem.ext_of_find {c : Config} {m m' : List Host.Cell} (h : Mem.wf c m) (h' : Mem.wf c m')
    (hr : ∀ a, Mem.find (resetByte c) m a = Mem.find (resetByte c) m' a) : m = m' := by
  induction m generalizing m' with
  | nil =>
    cases m' with
    | nil => rfl
    | cons y m' => exact absurd (by simpa [Mem.find] using (hr y.1).symm) (Mem.wf_tail h').2.1
  | cons x m ih =>
    cases m' with
    | nil => exact absurd (by simpa [Mem.find] using hr x.1) (Mem.wf_tail h).2.1
    | cons y m' =>
      obtain ⟨a, v⟩ := x
      obtain ⟨b, w⟩ := y
      obtain rfl : a = b := Nat.le_antisymm (Mem.head_le h' h (hr b).symm) (Mem.head_le h h' (hr a))
      obtain rfl : v = w := by simpa [Mem.find] using hr a
      obtain ⟨hrise, -, ht⟩ := Mem.wf_tail h
      obtain ⟨hrise', -, ht'⟩ := Mem.wf_tail h'
      rw [ih ht ht' fun d => ?_]
      by_cases hd : d = a
      · rw [hd, Mem.find_of_lt hrise, Mem.find_of_lt hrise']
      · simpa [Mem.find, hd] using hr d

/-- Settles O17: induction on both lists of cells. -/
theorem equalReadsAreEqualMemories : Obligations.EqualReadsAreEqualMemories :=
  fun _ _ _ h h' hr => Mem.ext_of_find h h' hr

end Sys2Proof.Machine
end

section
/-! PROOFS. A frame-buffer operation as the sequence of its actions, so that a fact about events between accesses is proved once, by induction over the sequence (20_memory.md R69, R74). -/

namespace Sys2Proof.Machine

open Sys2Proof

/-- The actions of a frame-buffer operation in order: byte reads, on whose values the rest depends, byte writes, response bytes, and data pairs taken from the stream for the blocks still to come. -/
inductive Prog where
  | done
  | read (a : Nat) (next : Byte → Prog)
  | write (a : Nat) (x : Byte) (next : Prog)
  | emit (bs : List Byte) (next : Prog)
  | data (buf : Bool) (todo : List Slot) (next : Gray → Prog)

namespace Prog

/-- The actions carried out by the model's own accesses. -/
def run : Prog → State → State
  | .done, s => s
  | .read a next, s => (next (busRead a s).1).run (busRead a s).2
  | .write a x next, s => next.run (busWrite a x s)
  | .emit bs next, s => next.run (busEmit bs s)
  | .data buf todo next, s =>
    if isRunning s then
      match s.stream with
      | low :: high :: more => (next ⟨low, high⟩).run { s with stream := more }
      | [low] => { s with stream := [], port := .data buf todo (some low) }
      | [] => { s with port := .data buf todo none }
    else s

/-! ## The actions of each part of an operation -/

/-- The plane addresses of a block (41_pixel_and_rect.md R141). -/
def blockAddrs (c : Config) (buf : Bool) (pos : Pos) : List Nat :=
  [addr c buf 0 pos.2 pos.1, addr c buf 1 pos.2 pos.1, addr c buf 2 pos.2 pos.1]

/-- Three plane bytes in order. -/
def planeBytes (p : Planes) : List Byte := [p.p0, p.p1, p.p2]

/-- `ReadPlanes`, and what is done with the planes (R141). -/
def readBlock (c : Config) (buf : Bool) (pos : Pos) (next : Planes → Prog) : Prog :=
  .read (addr c buf 0 pos.2 pos.1) fun b0 => .read (addr c buf 1 pos.2 pos.1) fun b1 =>
    .read (addr c buf 2 pos.2 pos.1) fun b2 => next ⟨b0, b1, b2⟩

/-- Byte reads in order. -/
def readBytes : List Nat → (List Byte → Prog) → Prog
  | [], next => next []
  | a :: as, next => .read a fun b => readBytes as fun bs => next (b :: bs)

/-- Byte writes in order. -/
def writeBytes : List (Nat × Byte) → Prog → Prog
  | [], next => next
  | (a, x) :: l, next => .write a x (writeBytes l next)

/-- The byte writes of a block (R142). -/
def blockWrites (c : Config) (buf : Bool) (pos : Pos) (p : Planes) : List (Nat × Byte) :=
  (blockAddrs c buf pos).zip (planeBytes p)

/-- The read-modify-write of one plane byte by SETPX (R143). -/
def setLaneProg (c : Config) (buf : Bool) (pos : Pos) (m : Byte) (p : Nat) (on : Bool) (next : Prog) :
    Prog :=
  .read (addr c buf p pos.2 pos.1) fun b =>
    .write (addr c buf p pos.2 pos.1) ((b &&& ~~~m) ||| (if on then m else 0)) next

/-- The response bytes of a block (R145). -/
def blockResponse (p : Planes) : List Byte := [(decodeBlock p).low, (decodeBlock p).high]

/-- The blocks of RDRECT (R145). -/
def readSlots (c : Config) (buf : Bool) : List Slot → Prog
  | [] => .done
  | some pos :: rest => readBlock c buf pos fun p => .emit (blockResponse p) (readSlots c buf rest)
  | none :: rest => .emit [0, 0] (readSlots c buf rest)

/-- One block of WRRECT with its data pair: written, or discarded for a block outside the buffer (R146). -/
def writeSlotProg (c : Config) (buf : Bool) (slot : Slot) (g : Gray) (next : Prog) : Prog :=
  match slot with
  | some pos => writeBytes (blockWrites c buf pos (encodeBlock g)) next
  | none => next

/-- The blocks of WRRECT, each with its data pair (R146). -/
def dataSlots (c : Config) (buf : Bool) : List Slot → Prog
  | [] => .done
  | slot :: rest => .data buf (slot :: rest) fun g =>
      writeSlotProg c buf slot g (dataSlots c buf rest)

/-! ## They are what the model does -/

theorem run_readBlock {c : Config} {buf : Bool} {pos : Pos} (next : Planes → Prog) {s : State}
    (hc : s.cfg = c) :
    (readBlock c buf pos next).run s
      = (next (readPlanes buf pos s).1).run (readPlanes buf pos s).2 := by
  simp only [readBlock, run, readPlanes, hc]

theorem run_writeBlock {c : Config} {buf : Bool} {pos : Pos} {p : Planes} (next : Prog) {s : State}
    (hc : s.cfg = c) :
    (writeBytes (blockWrites c buf pos p) next).run s = next.run (writePlanes buf pos p s) := by
  simp only [blockWrites, blockAddrs, planeBytes, List.zip_cons_cons, List.zip_nil_left, writeBytes,
    run, writePlanes, hc]

theorem run_setLaneProg {c : Config} {buf : Bool} {pos : Pos} {m : Byte} {p : Nat} {on : Bool}
    (next : Prog) {s : State} (hc : s.cfg = c) :
    (setLaneProg c buf pos m p on next).run s = next.run (setLane buf pos m p on s) := by
  simp only [setLaneProg, run, setLane, hc]

theorem run_readSlots {c : Config} {buf : Bool} (slots : List Slot) {s : State} (hc : s.cfg = c) :
    (readSlots c buf slots).run s = slots.foldl (readSlot buf) s := by
  induction slots generalizing s with
  | nil => rfl
  | cons slot rest ih =>
    cases slot with
    | none => simp only [readSlots, run, List.foldl_cons, readSlot, ih (s := busEmit [0, 0] s) (by simpa using hc)]
    | some pos =>
      simp only [readSlots, run_readBlock _ hc, run, List.foldl_cons, readSlot]
      exact ih (by simpa using hc)

theorem run_writeSlotProg {c : Config} {buf : Bool} {slot : Slot} {g : Gray} (next : Prog) {s : State}
    (hc : s.cfg = c) :
    (writeSlotProg c buf slot g next).run s = next.run (writeSlot buf slot g s) := by
  cases slot with
  | none => rfl
  | some pos => exact run_writeBlock _ hc

theorem writeSlot_cfg (buf : Bool) (slot : Slot) (g : Gray) (s : State) :
    (writeSlot buf slot g s).cfg = s.cfg := by
  cases slot with
  | none => rfl
  | some pos => exact writePlanes_cfg _ _ _ _

theorem run_dataSlots {c : Config} {buf : Bool} (slots : List Slot) {s : State} (hc : s.cfg = c) :
    (dataSlots c buf slots).run s = writeSlots buf slots s := by
  induction slots generalizing s with
  | nil => rfl
  | cons slot rest ih =>
    cases hr : isRunning s with
    | false => simp only [dataSlots, run, writeSlots, hr, Bool.false_eq_true, if_false]
    | true =>
      match hs : s.stream with
      | [] => simp only [dataSlots, run, writeSlots, hr, hs, if_true]
      | [low] => simp only [dataSlots, run, writeSlots, hr, hs, if_true]
      | low :: high :: more =>
        simp only [dataSlots, run, writeSlots, hr, hs, if_true]
        rw [run_writeSlotProg _ (by exact hc)]
        exact ih ((writeSlot_cfg _ _ _ _).trans hc)

@[simp] theorem readAll_cfg (buf : Bool) (l : List Pos) (s : State) :
    (readAll buf l s).2.cfg = s.cfg := by
  induction l generalizing s with
  | nil => rfl
  | cons pos l ih => exact (ih _).trans (readPlanes_cfg buf pos s)

theorem run_readAll {c : Config} {buf : Bool} (l : List Pos) (next : List Byte → Prog) {s : State}
    (hc : s.cfg = c) :
    (readBytes (l.flatMap (blockAddrs c buf)) next).run s
      = (next ((readAll buf l s).1.flatMap planeBytes)).run (readAll buf l s).2 := by
  induction l generalizing s next with
  | nil => rfl
  | cons pos l ih =>
    have hb := run_readBlock (buf := buf) (pos := pos)
      (fun p => readBytes (l.flatMap (blockAddrs c buf)) fun bs => next (planeBytes p ++ bs)) hc
    exact hb.trans (ih _ (by simpa using hc))

theorem run_writeAll {c : Config} {buf : Bool} (l : List (Pos × Planes)) {s : State}
    (hc : s.cfg = c) :
    (writeBytes (l.flatMap fun x => blockWrites c buf x.1 x.2) .done).run s = writeAll buf l s := by
  induction l generalizing s with
  | nil => rfl
  | cons x l ih =>
    have happ : writeBytes ((x :: l).flatMap fun x => blockWrites c buf x.1 x.2) .done
        = writeBytes (blockWrites c buf x.1 x.2)
            (writeBytes (l.flatMap fun x => blockWrites c buf x.1 x.2) .done) := rfl
    rw [happ, run_writeBlock _ hc, writeAll]
    exact ih (by simpa using hc)

theorem zip_flatMap_blockAddrs (c : Config) (buf : Bool) (l : List Pos) (ps : List Planes) :
    (l.flatMap (blockAddrs c buf)).zip (ps.flatMap planeBytes)
      = (l.zip ps).flatMap fun x => blockWrites c buf x.1 x.2 := by
  induction l generalizing ps with
  | nil => rfl
  | cons pos l ih =>
    cases ps with
    | nil => simp
    | cons p ps =>
      simp only [List.flatMap_cons, List.zip_cons_cons, ← ih]
      rfl

/-! ## The operations -/

/-- SETPX in range (R143). -/
def setpx (c : Config) (buf : Bool) (v : BitVec 2) (x y : Byte) : Prog :=
  let lane := setLaneProg c buf (blockOf x, y.toNat) (laneMask (laneOf x))
  lane 0 (thermoBit v 0) (lane 1 (thermoBit v 1) (lane 2 (thermoBit v 2) .done))

/-- GETPX in range (R144). -/
def getpx (c : Config) (buf : Bool) (x y : Byte) : Prog :=
  readBlock c buf (blockOf x, y.toNat) fun p => .emit [laneValue (decodeBlock p) (laneOf x)] .done

/-- FLRECT (R148). -/
def fill (c : Config) (buf : Bool) (v : BitVec 2) (l : List Pos) : Prog :=
  writeBytes (l.flatMap fun pos => blockWrites c buf pos (encodeBlock (splat v))) .done

/-- CPRECT: every read, then every write (R147). -/
def copy (c : Config) (src dst : Bool) (from_ to_ : List Pos) : Prog :=
  readBytes (from_.flatMap (blockAddrs c src)) fun bs =>
    writeBytes ((to_.flatMap (blockAddrs c dst)).zip bs) .done

end Prog

/-- The blocks of a copy from the origin of one of its rectangles (R147). -/
def copyRect (c : Config) (sbx sy bw h dbx dy : Byte) (bx y : Nat) : List Pos :=
  (offsets (copyWidth c sbx.toNat dbx.toNat bw.toNat)
    (copyHeight c sy.toNat dy.toNat h.toNat)).map (shift bx y)

/-- The actions of an operation that accesses the frame buffer; none where it makes no access by its kind or its pixel's range. -/
def opProg (s : State) : Instr → Option Prog
  | .rdrect t bx y bw h =>
    some (.readSlots s.cfg (phys t s) (givenRect s.cfg bx.toNat y.toNat bw.toNat h.toNat))
  | .wrrect t bx y bw h =>
    some (.dataSlots s.cfg (phys t s) (givenRect s.cfg bx.toNat y.toNat bw.toNat h.toNat))
  | .cprect src dst sbx sy bw h dbx dy =>
    some (.copy s.cfg (phys src s) (phys dst s)
      (copyRect s.cfg sbx sy bw h dbx dy sbx.toNat sy.toNat)
      (copyRect s.cfg sbx sy bw h dbx dy dbx.toNat dy.toNat))
  | .flrect t v bx y bw h =>
    some (.fill s.cfg (phys t s) v (clippedRect s.cfg bx.toNat y.toNat bw.toNat h.toNat))
  | .setpx t v x y => if pixelInRange s.cfg x y then some (.setpx s.cfg (phys t s) v x y) else none
  | .getpx t x y => if pixelInRange s.cfg x y then some (.getpx s.cfg (phys t s) x y) else none
  | _ => none

/-- Such an operation begins, carries out its actions, and gives the port back. -/
theorem exec_opProg {s : State} {i : Instr} {P : Prog} (h : opProg s i = some P) :
    exec i s = .next (finishOp (P.run (beginOp s))) := by
  have hc : (beginOp s).cfg = s.cfg := rfl
  cases i with
  | rdrect t bx y bw h' =>
    obtain rfl := Option.some.inj h
    rw [Prog.run_readSlots _ hc]
    rfl
  | wrrect t bx y bw h' =>
    obtain rfl := Option.some.inj h
    rw [Prog.run_dataSlots _ hc]
    rfl
  | cprect src dst sbx sy bw h' dbx dy =>
    obtain rfl := Option.some.inj h
    rw [Prog.copy, Prog.run_readAll _ _ hc, Prog.zip_flatMap_blockAddrs,
      Prog.run_writeAll _ ((Prog.readAll_cfg _ _ _).trans hc)]
    rfl
  | flrect t v bx y bw h' =>
    obtain rfl := Option.some.inj h
    have hmap : (clippedRect s.cfg bx.toNat y.toNat bw.toNat h'.toNat).flatMap
        (fun pos => Prog.blockWrites s.cfg (phys t s) pos (encodeBlock (splat v)))
        = ((clippedRect s.cfg bx.toNat y.toNat bw.toNat h'.toNat).map
            fun pos => (pos, encodeBlock (splat v))).flatMap
            fun x => Prog.blockWrites s.cfg (phys t s) x.1 x.2 := by
      rw [List.flatMap_map]
    rw [Prog.fill, hmap, Prog.run_writeAll _ hc]
    rfl
  | setpx t v x y =>
    simp only [opProg] at h
    split at h
    · next hin =>
      obtain rfl := Option.some.inj h
      simp only [exec, execSetpx, hin, if_true, Prog.setpx]
      rw [Prog.run_setLaneProg _ hc, Prog.run_setLaneProg _ (by simp), Prog.run_setLaneProg _ (by simp)]
      rfl
    · cases h
  | getpx t x y =>
    simp only [opProg] at h
    split at h
    · next hin =>
      obtain rfl := Option.some.inj h
      simp only [exec, execGetpx, hin, if_true, Prog.getpx]
      rw [Prog.run_readBlock _ hc]
      rfl
    · cases h
  | _ => cases h

end Sys2Proof.Machine
end

section
/-! PROOFS. What every action of an operation and every event inside it keep, the operation keeps; and what the operations without an access write. -/

namespace Sys2Proof.Machine

open Sys2Proof

namespace Prog

/-! ## An abandoned operation does nothing more -/

theorem run_of_not_running (P : Prog) {s : State} (h : isRunning s = false) : P.run s = s := by
  induction P generalizing s with
  | done => rfl
  | read a next ih =>
    have hp : (busRead a s).2 = s := pause_of_not_running h
    rw [run, hp]
    exact ih _ h
  | write a x next ih =>
    have hp : busWrite a x s = s := by simp [busWrite, pause_of_not_running h, h]
    rw [run, hp]
    exact ih h
  | emit bs next ih =>
    rw [run, busEmit_of_not_running bs h]
    exact ih h
  | data buf todo next ih => simp [run, h]

/-! ## Properties kept by every action -/

/-- Every access is at an address of `A`, and where the stream may run dry the blocks still to come are as `D` says. -/
def Touches (A : Nat → Prop) (D : Bool → List Slot → Prop) : Prog → Prop
  | .done => True
  | .read a next => A a ∧ ∀ b, (next b).Touches A D
  | .write a _ next => A a ∧ next.Touches A D
  | .emit _ next => next.Touches A D
  | .data buf todo next => D buf todo ∧ ∀ g, (next g).Touches A D

/-- Every event inside an operation and every one of its actions keeps `Q`; the port's own turn counts as an event that does nothing. -/
structure Keeps (A : Nat → Prop) (D : Bool → List Slot → Prop) (Q : State → Prop) : Prop where
  event : ∀ s e, isRunning s = true → Q { s with sched := e :: s.sched } → Q (deliver e s)
  write : ∀ s a x, A a → isRunning s = true → Q s → Q (memWrite s a x)
  emit : ∀ s bs, Q s → Q (Machine.emit bs s)
  take : ∀ s l, Q s → Q { s with stream := l }
  wait : ∀ s buf todo low, D buf todo → isRunning s = true → Q s →
    Q { s with port := .data buf todo low }

variable {A : Nat → Prop} {D : Bool → List Slot → Prop} {Q : State → Prop}

theorem Keeps.pauseTurns (hK : Keeps A D Q) (l : List Turn) {s : State} (hr : isRunning s = true)
    (h : Q { s with sched := l }) : Q (Machine.pauseTurns l s) := by
  induction l generalizing s with
  | nil => exact h
  | cons e l ih =>
    have hev := hK.event { s with sched := l } e hr h
    rw [Machine.pauseTurns]
    split
    · next he => subst he; exact hev
    · dsimp only
      split
      · next hr' =>
        refine ih hr' ?_
        rw [← withSched_deliver]
        exact hev
      · exact hev

theorem Keeps.pause (hK : Keeps A D Q) {s : State} (h : Q s) : Q (Machine.pause s) := by
  unfold Machine.pause
  split
  · next hr => exact hK.pauseTurns _ hr h
  · exact h

/-- What every event and every action keeps, the operation keeps. -/
theorem Keeps.run (hK : Keeps A D Q) {P : Prog} (hP : P.Touches A D) {s : State} (h : Q s) :
    Q (P.run s) := by
  induction P generalizing s with
  | done => exact h
  | read a next ih => exact ih _ (hP.2 _) (hK.pause h)
  | write a x next ih =>
    refine ih hP.2 ?_
    unfold busWrite
    dsimp only
    split
    · next hr => exact hK.write _ a x hP.1 hr (hK.pause h)
    · exact hK.pause h
  | emit bs next ih =>
    refine ih hP ?_
    unfold busEmit
    split
    · exact hK.emit _ bs h
    · exact h
  | data buf todo next ih =>
    rw [Prog.run]
    split
    · next hr =>
      split
      · exact ih _ (hP.2 _) (hK.take _ _ h)
      · exact hK.take _ _ (hK.wait _ buf todo _ hP.1 hr h)
      · exact hK.wait _ buf todo _ hP.1 hr h
    · exact h

theorem Touches.mono {A' : Nat → Prop} {D' : Bool → List Slot → Prop} (hA : ∀ a, A a → A' a)
    (hD : ∀ buf todo, D buf todo → D' buf todo) {P : Prog} (h : P.Touches A D) :
    P.Touches A' D' := by
  induction P with
  | done => trivial
  | read a next ih => exact ⟨hA a h.1, fun b => ih b (h.2 b)⟩
  | write a x next ih => exact ⟨hA a h.1, ih h.2⟩
  | emit bs next ih => exact ih h
  | data buf todo next ih => exact ⟨hD _ _ h.1, fun g => ih g (h.2 g)⟩

/-! ## What the operations touch -/

theorem touches_readBytes {as : List Nat} {next : List Byte → Prog} (ha : ∀ a ∈ as, A a)
    (hn : ∀ bs, (next bs).Touches A D) : (readBytes as next).Touches A D := by
  induction as generalizing next with
  | nil => exact hn []
  | cons a as ih =>
    exact ⟨ha a (by simp), fun b => ih (fun x hx => ha x (by simp [hx])) fun bs => hn (b :: bs)⟩

theorem touches_writeBytes {l : List (Nat × Byte)} {next : Prog} (ha : ∀ x ∈ l, A x.1)
    (hn : next.Touches A D) : (writeBytes l next).Touches A D := by
  induction l with
  | nil => exact hn
  | cons x l ih => exact ⟨ha x (by simp), ih fun y hy => ha y (by simp [hy])⟩

/-- The address is that of a legal position in one of the buffers `B`. -/
def InBuffers (c : Config) (B : Bool → Prop) (a : Nat) : Prop :=
  ∃ buf p y bc, B buf ∧ p < 3 ∧ y < c.h ∧ bc < c.wb ∧ a = addr c buf p y bc

/-- Blocks still to come that the port may keep: some are left, in one of the buffers `B`, all in range (41_pixel_and_rect.md R146). -/
def LegalTodo (c : Config) (B : Bool → Prop) (buf : Bool) (todo : List Slot) : Prop :=
  B buf ∧ portLegal c (.data buf todo none)

variable {c : Config} {B : Bool → Prop} {buf : Bool}

theorem blockAddrs_inBuffers (hB : B buf) {pos : Pos} (hpos : pos.1 < c.wb ∧ pos.2 < c.h) :
    ∀ a ∈ blockAddrs c buf pos, InBuffers c B a := by
  simp only [blockAddrs, List.mem_cons, List.not_mem_nil, or_false]
  rintro a (rfl | rfl | rfl)
  · exact ⟨buf, 0, _, _, hB, by omega, hpos.2, hpos.1, rfl⟩
  · exact ⟨buf, 1, _, _, hB, by omega, hpos.2, hpos.1, rfl⟩
  · exact ⟨buf, 2, _, _, hB, by omega, hpos.2, hpos.1, rfl⟩

theorem blockWrites_inBuffers (hB : B buf) {pos : Pos} (hpos : pos.1 < c.wb ∧ pos.2 < c.h)
    (p : Planes) : ∀ x ∈ blockWrites c buf pos p, InBuffers c B x.1 :=
  fun _ hx => blockAddrs_inBuffers hB hpos _ (List.of_mem_zip hx).1

theorem touches_readBlock (hB : B buf) {pos : Pos} (hpos : pos.1 < c.wb ∧ pos.2 < c.h)
    {next : Planes → Prog} (hn : ∀ p, (next p).Touches (InBuffers c B) D) :
    (readBlock c buf pos next).Touches (InBuffers c B) D :=
  have h := blockAddrs_inBuffers hB hpos
  ⟨h _ (by simp [blockAddrs]), fun _ => ⟨h _ (by simp [blockAddrs]), fun _ =>
    ⟨h _ (by simp [blockAddrs]), fun _ => hn _⟩⟩⟩

theorem touches_readSlots (hB : B buf) {slots : List Slot}
    (h : ∀ pos : Pos, some pos ∈ slots → pos.1 < c.wb ∧ pos.2 < c.h) :
    (readSlots c buf slots).Touches (InBuffers c B) D := by
  induction slots with
  | nil => trivial
  | cons slot rest ih =>
    have ih := ih fun pos hp => h pos (by simp [hp])
    cases slot with
    | none => exact ih
    | some pos => exact touches_readBlock hB (h pos (by simp)) fun _ => ih

theorem touches_dataSlots (hB : B buf) {slots : List Slot}
    (h : ∀ pos : Pos, some pos ∈ slots → pos.1 < c.wb ∧ pos.2 < c.h) :
    (dataSlots c buf slots).Touches (InBuffers c B) (LegalTodo c B) := by
  induction slots with
  | nil => trivial
  | cons slot rest ih =>
    have ih := ih fun pos hp => h pos (by simp [hp])
    refine ⟨⟨hB, by simp, h⟩, fun g => ?_⟩
    cases slot with
    | none => exact ih
    | some pos => exact touches_writeBytes (blockWrites_inBuffers hB (h pos (by simp)) _) ih

theorem touches_setLaneProg (hB : B buf) {pos : Pos} (hpos : pos.1 < c.wb ∧ pos.2 < c.h) {m : Byte}
    {p : Nat} (hp : p < 3) {on : Bool} {next : Prog} (hn : next.Touches (InBuffers c B) D) :
    (setLaneProg c buf pos m p on next).Touches (InBuffers c B) D :=
  have ha : InBuffers c B (addr c buf p pos.2 pos.1) := ⟨buf, p, _, _, hB, hp, hpos.2, hpos.1, rfl⟩
  ⟨ha, fun _ => ⟨ha, hn⟩⟩

end Prog

/-- The targets an operation names (30_encoding.md R91). -/
def targetsOf : Instr → List Target
  | .rdrect t _ _ _ _ => [t]
  | .wrrect t _ _ _ _ => [t]
  | .cprect src dst _ _ _ _ _ _ => [src, dst]
  | .flrect t _ _ _ _ _ => [t]
  | .setpx t _ _ _ => [t]
  | .getpx t _ _ => [t]
  | _ => []

/-! ## The positions of the operations -/

theorem givenRect_legal {c : Config} {bx y bw h : Nat} (pos : Pos)
    (hm : some pos ∈ givenRect c bx y bw h) : pos.1 < c.wb ∧ pos.2 < c.h := by
  simp only [givenRect, List.mem_map] at hm
  obtain ⟨o, -, ho⟩ := hm
  split at ho
  · next hin =>
    obtain rfl := Option.some.inj ho
    exact ⟨(lt_clipWidth_iff.mp hin.2).2, (lt_clipHeight_iff.mp hin.1).2⟩
  · cases ho

theorem pixel_legal {c : Config} (hc : c.Valid) {x y : Byte} (hx : x.toNat < c.w) (hy : y.toNat < c.h) :
    blockOf x < c.wb ∧ y.toNat < c.h := by
  have hw := hc.wMod
  refine ⟨?_, hy⟩
  unfold blockOf Config.wb
  omega

theorem copyRect_legal {c : Config} {sbx sy bw h dbx dy : Byte} {pos : Pos} :
    (pos ∈ copyRect c sbx sy bw h dbx dy sbx.toNat sy.toNat → pos.1 < c.wb ∧ pos.2 < c.h)
      ∧ (pos ∈ copyRect c sbx sy bw h dbx dy dbx.toNat dy.toNat → pos.1 < c.wb ∧ pos.2 < c.h) := by
  simp only [copyRect, copyWidth, copyHeight, List.mem_map]
  constructor <;>
  · rintro ⟨o, ho, rfl⟩
    obtain ⟨hq, hr⟩ := mem_offsets.1 ho
    rw [Nat.lt_min, lt_clipWidth_iff, lt_clipWidth_iff] at hq
    rw [Nat.lt_min, lt_clipHeight_iff, lt_clipHeight_iff] at hr
    dsimp only [shift]
    omega

open Prog in
/-- An operation stays at legal positions of the buffers of its targets (20_memory.md R60, 41_pixel_and_rect.md R140). -/
theorem opProg_touches {s : State} {i : Instr} {P : Prog} {B : Bool → Prop} (h : opProg s i = some P)
    (hc : s.cfg.Valid) (hB : ∀ t ∈ targetsOf i, B (phys t s)) :
    P.Touches (InBuffers s.cfg B) (LegalTodo s.cfg B) := by
  cases i with
  | rdrect t bx y bw h' =>
    obtain rfl := Option.some.inj h
    exact touches_readSlots (hB t (by simp [targetsOf])) fun pos => givenRect_legal pos
  | wrrect t bx y bw h' =>
    obtain rfl := Option.some.inj h
    exact touches_dataSlots (hB t (by simp [targetsOf])) fun pos => givenRect_legal pos
  | cprect src dst sbx sy bw h' dbx dy =>
    obtain rfl := Option.some.inj h
    refine touches_readBytes (fun a ha => ?_) fun bs => touches_writeBytes (fun x hx => ?_) trivial
    · obtain ⟨pos, hpos, ha⟩ := List.mem_flatMap.1 ha
      exact blockAddrs_inBuffers (hB src (by simp [targetsOf])) (copyRect_legal.1 hpos) a ha
    · obtain ⟨pos, hpos, ha⟩ := List.mem_flatMap.1 (List.of_mem_zip hx).1
      exact blockAddrs_inBuffers (hB dst (by simp [targetsOf])) (copyRect_legal.2 hpos) _ ha
  | flrect t v bx y bw h' =>
    obtain rfl := Option.some.inj h
    refine touches_writeBytes (fun x hx => ?_) trivial
    obtain ⟨pos, hpos, hx⟩ := List.mem_flatMap.1 hx
    exact blockWrites_inBuffers (hB t (by simp [targetsOf])) (clippedRect_inRange _ _ _ _ _ pos hpos)
      _ x hx
  | setpx t v x y =>
    simp only [opProg] at h
    split at h
    · next hin =>
      obtain rfl := Option.some.inj h
      obtain ⟨hx, hy⟩ := pixelInRange_iff.mp hin
      have ht := hB t (by simp [targetsOf])
      have hpos := pixel_legal hc hx hy
      exact touches_setLaneProg ht hpos (by omega) (touches_setLaneProg ht hpos (by omega)
        (touches_setLaneProg ht hpos (by omega) trivial))
    · cases h
  | getpx t x y =>
    simp only [opProg] at h
    split at h
    · next hin =>
      obtain rfl := Option.some.inj h
      obtain ⟨hx, hy⟩ := pixelInRange_iff.mp hin
      exact touches_readBlock (hB t (by simp [targetsOf])) (pixel_legal hc hx hy) fun _ => trivial
    · cases h
  | _ => cases h

/-! ## The operations without an access -/

/-- What an operation of the port without an access may write: request flags only up, the mark only down, the idle counter only to 0, the port only to idle (10_state.md R42). -/
structure RegisterWrite (s u : State) : Prop where
  frame : u = { s with
    ht := u.ht
    brReq := u.brReq
    idleTrig := u.idleTrig
    idleCnt := u.idleCnt
    swapPend := u.swapPend
    brPend := u.brPend
    frameChg := u.frameChg
    outEn := u.outEn
    fadeEn := u.fadeEn
    endAct := u.endAct
    port := u.port
    resp := u.resp
    errs := u.errs }
  swapPend : s.swapPend = true → u.swapPend = true
  brPend : s.brPend = true → u.brPend = true
  frameChg : u.frameChg = true → s.frameChg = true
  idleCnt : u.idleCnt = s.idleCnt ∨ u.idleCnt = 0
  port : u.port = s.port ∨ u.port = .idle

theorem exec_registerWrite {s u : State} {i : Instr} (h : opProg s i = none) (hi : i ≠ .tick)
    (hu : exec i s = .next u) : RegisterWrite s u := by
  have hnext : ∀ {v : State}, exec i s = .next v → u = v := fun hv => by
    rw [hv] at hu
    exact (Host.Outcome.next.inj hu).symm
  cases i with
  | query r =>
    cases hr : queryResponse r s with
    | none =>
      rw [hnext (exec_query_of_none hr)]
      exact ⟨rfl, id, id, id, .inl rfl, .inr rfl⟩
    | some bs =>
      rw [hnext (v := emit bs s) (by simp only [exec, execQuery, hr])]
      exact ⟨rfl, id, id, id, .inl rfl, .inl rfl⟩
  | bright lvl => rw [hnext rfl]; exact ⟨rfl, id, fun _ => rfl, id, .inl rfl, .inl rfl⟩
  | swap => rw [hnext rfl]; exact ⟨rfl, fun _ => rfl, id, id, .inl rfl, .inl rfl⟩
  | clrfc => rw [hnext rfl]; exact ⟨rfl, id, id, fun hf => absurd hf (by simp), .inl rfl, .inl rfl⟩
  | idlerst => rw [hnext rfl]; exact ⟨rfl, id, id, id, .inr rfl, .inl rfl⟩
  | setpx t v x y =>
    have hin : ¬ pixelInRange s.cfg x y = true := fun hin => by simp [opProg, hin] at h
    rw [hnext (v := s) (by simp only [exec, execSetpx, if_neg hin])]
    exact ⟨rfl, id, id, id, .inl rfl, .inl rfl⟩
  | getpx t x y =>
    have hin : ¬ pixelInRange s.cfg x y = true := fun hin => by simp [opProg, hin] at h
    rw [hnext (v := emit [0] s) (by simp only [exec, execGetpx, if_neg hin])]
    exact ⟨rfl, id, id, id, .inl rfl, .inl rfl⟩
  | rdrect t bx y bw h' => cases h
  | wrrect t bx y bw h' => cases h
  | cprect src dst sbx sy bw h' dbx dy => cases h
  | flrect t v bx y bw h' => cases h
  | tick => exact absurd rfl hi
  | _ => rw [hnext rfl]; exact ⟨rfl, id, id, id, .inl rfl, .inl rfl⟩

/-- Every operation is a TICK, a sequence of actions between its begin and its end, or a register write. -/
theorem exec_cases {s u : State} {i : Instr} (hu : exec i s = .next u) :
    (i = .tick ∧ u = tickOp s)
      ∨ (∃ P, opProg s i = some P ∧ u = finishOp (P.run (beginOp s)))
      ∨ (i ≠ .tick ∧ RegisterWrite s u) := by
  by_cases hi : i = .tick
  · subst hi
    exact .inl ⟨rfl, (Host.Outcome.next.inj hu).symm⟩
  · cases hP : opProg s i with
    | none => exact .inr (.inr ⟨hi, exec_registerWrite hP hi hu⟩)
    | some P => exact .inr (.inl ⟨P, rfl, Host.Outcome.next.inj (hu.symm.trans (exec_opProg hP))⟩)

end Sys2Proof.Machine
end

section
/-! PROOFS. What every step keeps: the invariant, the front buffer outside a served swap, and each context's own registers (10_state.md sections 1 to 6, 43_tick.md section 5). -/

namespace Sys2Proof.Machine

open Sys2Proof

/-! ## What a step can do -/

/-- The port goes on with WRRECT's data as with the actions of the blocks still to come (41_pixel_and_rect.md R146). -/
theorem resumeData_eq (buf : Bool) (todo : List Slot) (low : Option Byte) (s : State) :
    resumeData buf todo low s
      = finishOp ((Prog.dataSlots s.cfg buf todo).run
          (beginOp { s with stream := low.toList ++ s.stream })) :=
  congrArg finishOp (Prog.run_dataSlots todo (by rfl)).symm

/-- What the port's turn can be: waiting, a whole command, a rejected header, kept bytes, or WRRECT's data going on (30_encoding.md R90). -/
theorem portTurn_cases {s u : State} (h : portTurn s = .next u) :
    u = s
      ∨ (s.swapPend = false ∧ ((∃ i rest, exec i { s with port := .idle, stream := rest } = .next u)
        ∨ (∃ hdr l, u = raiseBadCommand hdr { s with stream := l })
        ∨ (∃ bs n, bs ≠ [] ∧ decode bs = .error (.truncated n)
          ∧ u = { s with port := .taking bs, stream := [] })
        ∨ ∃ buf todo low, s.port = .data buf todo low ∧ u = resumeData buf todo low s)) := by
  have hdone : ∀ {t : State}, fetch s = .done t → u = t := fun ht => by
    rw [portTurn_of_done ht] at h
    exact (Host.Outcome.next.inj h).symm
  by_cases hswap : s.swapPend = true
  · exact .inl (hdone (fetch_of_swapPend hswap))
  · have hs : s.swapPend = false := by simpa using hswap
    refine or_iff_not_imp_left.mpr fun hne => ⟨hs, ?_⟩
    have htake : ∀ bs, (s.port = .idle ∧ bs = [] ∨ s.port = .taking bs) →
        (∃ i rest, exec i { s with port := .idle, stream := rest } = .next u)
          ∨ (∃ hdr l, u = raiseBadCommand hdr { s with stream := l })
          ∨ ∃ bs n, bs ≠ [] ∧ decode bs = .error (.truncated n)
            ∧ u = { s with port := .taking bs, stream := [] } := fun bs hp => by
      have hf := fetch_of_taking hs hp
      cases hdec : decode (bs ++ s.stream) with
      | ok x =>
        rw [portTurn_of_run (hf.trans (takeCommand_of_ok hdec))] at h
        exact .inl ⟨_, _, h⟩
      | error err =>
        cases err with
        | badCommand hdr =>
          exact .inr (.inl ⟨hdr, _, hdone (hf.trans (takeCommand_of_badCommand hdec))⟩)
        | truncated n =>
          rw [takeCommand_of_truncated hdec] at hf
          split at hf
          · exact absurd (hdone hf) hne
          · next hstream =>
            refine .inr (.inr ⟨bs ++ s.stream, n, fun he => hstream ?_, hdec, hdone hf⟩)
            simp [(List.append_eq_nil_iff.mp he).2]
    obtain ⟨p, hp⟩ : ∃ p, s.port = p := ⟨_, rfl⟩
    cases p with
    | idle => exact (htake [] (.inl ⟨hp, rfl⟩)).imp_right (Or.imp_right .inl)
    | taking bs => exact (htake bs (.inr hp)).imp_right (Or.imp_right .inl)
    | running => exact absurd (hdone (by simp [fetch, hs, hp])) hne
    | data buf todo low =>
      exact .inr (.inr (.inr ⟨buf, todo, low, hp, hdone (by simp [fetch, hs, hp])⟩))

/-- A step delivers the event at the head of the order, or it is the port's turn. -/
theorem step_cases {s u : State} (h : step s = .next u) :
    (∃ e tl, s.sched = e :: tl ∧ e ≠ .port ∧ u = deliver e { s with sched := tl })
      ∨ ∃ l, (∀ e ∈ l, e ∈ s.sched) ∧ portTurn { s with sched := l } = .next u := by
  match hs : s.sched with
  | [] =>
    have he : { s with sched := [] } = s := by rw [← hs]
    exact .inr ⟨[], by simp, by rw [he, ← step_of_nil hs, h]⟩
  | e :: tl =>
    by_cases he : e = .port
    · subst he
      exact .inr ⟨tl, fun _ => List.mem_cons_of_mem _, by rw [← step_of_port hs, h]⟩
    · exact .inl ⟨e, tl, rfl, he, Host.Outcome.next.inj (h.symm.trans (step_of_event hs he))⟩

/-! ## The registers and memory are legal -/

/-- The part of the invariant that does not look at the port. -/
structure RegisterInv (s : State) : Prop where
  config : s.cfg.Valid
  rowInRange : s.row.toNat < s.cfg.h
  idleBelow : s.idleCnt.toNat ≤ 254
  memory : Mem.wf s.cfg s.fb

theorem MachineInv.registers {s : State} (h : MachineInv s) : RegisterInv s :=
  ⟨h.config, h.rowInRange, h.idleBelow, h.memory⟩

theorem RegisterInv.rowLegal {s : State} (h : RegisterInv s) : RowLegal s :=
  ⟨h.rowInRange, h.config.hHigh⟩

/-- The counter stays at or below a trigger that is not 255 (10_state.md R26). -/
theorem nextIdleCnt_le {s : State} (h : s.idleCnt.toNat ≤ 254) : (nextIdleCnt s).toNat ≤ 254 := by
  unfold nextIdleCnt
  split
  · simp
  · split
    · simp
    · split
      · next hc =>
        have ha := (idleCounts_iff s).mp hc
        have hne : s.idleTrig.toNat ≠ 255 := fun he => ha.1 (BitVec.eq_of_toNat_eq he)
        have hlt : s.idleCnt.toNat < s.idleTrig.toNat := ha.2.2.2.2
        have := s.idleTrig.isLt
        rw [idleCnt_succ_toNat ha]
        omega
      · exact h

theorem RegisterInv.tickOp {s : State} (h : RegisterInv s) : RegisterInv (tickOp s) := by
  have hm : Mem.wf (Machine.tickOp s).cfg (Machine.tickOp s).fb := by
    rw [tickOp_cfg]
    exact tickOp_wf h.memory
  by_cases hb : boundaryNext s
  · have hrow : (Machine.tickOp s).row.toNat < s.cfg.h := by
      rw [tickOp_boundary hb]
      exact h.config.hLow
    have hidle : (Machine.tickOp s).idleCnt.toNat ≤ 254 := by
      rw [tickOp_boundary hb]
      exact nextIdleCnt_le h.idleBelow
    exact ⟨by rw [tickOp_cfg]; exact h.config, by rw [tickOp_cfg]; exact hrow, hidle, hm⟩
  · obtain ⟨hr, -, -⟩ := tickOp_inside h.rowLegal hb
    have hidle : (Machine.tickOp s).idleCnt.toNat ≤ 254 := by
      rw [tickOp_onlyScanned hb]
      exact h.idleBelow
    exact ⟨by rw [tickOp_cfg]; exact h.config, hr.row_lt, hidle, hm⟩

theorem RegisterInv.deliver {s : State} (h : RegisterInv s) (e : Turn) : RegisterInv (deliver e s) := by
  cases e with
  | tick => exact h.tickOp
  | reset => exact ⟨h.config, h.config.hLow, Nat.zero_le _, Mem.wf_nil s.cfg⟩
  | _ => exact ⟨h.config, h.rowInRange, h.idleBelow, h.memory⟩

theorem inBuffers_lt_fbLen {c : Config} {B : Bool → Prop} {a : Nat} (h : Prog.InBuffers c B a) :
    a < c.fbLen := by
  obtain ⟨buf, p, y, bc, -, hp, hy, hb, rfl⟩ := h
  exact addr_lt_fbLen c buf hp hy hb

/-! ## Inside an operation -/

/-- A tick without a request leaves the flag down, and so does every other event. -/
theorem deliver_swapPend {s : State} (h : s.swapPend = false) (e : Turn) :
    (deliver e s).swapPend = false := by
  cases e with
  | tick => exact (tickOp_front s h).2
  | reset => rfl
  | _ => exact h

/-- What holds between two accesses of an operation, under configuration `c`: the registers and memory are legal, no swap is pending, and the port is at work or has stopped legally. -/
structure RunInv (c : Config) (s : State) : Prop where
  registers : RegisterInv s
  cfg : s.cfg = c
  swapPend : s.swapPend = false
  port : s.port = .running ∨ portLegal c s.port

theorem runInv_keeps (c : Config) :
    Prog.Keeps (Prog.InBuffers c fun _ => True) (Prog.LegalTodo c fun _ => True) (RunInv c) where
  event s e _ h := by
    have hr : RegisterInv s :=
      ⟨h.registers.config, h.registers.rowInRange, h.registers.idleBelow, h.registers.memory⟩
    refine ⟨hr.deliver e, (deliver_cfg e s).trans h.cfg, deliver_swapPend (s := s) h.swapPend e, ?_⟩
    rw [deliver_port]
    split
    · exact .inr trivial
    · exact h.port
  write s a x ha _ h :=
    ⟨⟨h.registers.config, h.registers.rowInRange, h.registers.idleBelow,
      memWrite_wf h.registers.memory (h.cfg ▸ inBuffers_lt_fbLen ha) x⟩, h.cfg, h.swapPend, h.port⟩
  emit s bs h := ⟨⟨h.registers.config, h.registers.rowInRange, h.registers.idleBelow,
    h.registers.memory⟩, h.cfg, h.swapPend, h.port⟩
  take s l h := ⟨⟨h.registers.config, h.registers.rowInRange, h.registers.idleBelow,
    h.registers.memory⟩, h.cfg, h.swapPend, h.port⟩
  wait s buf todo low hD _ h := ⟨⟨h.registers.config, h.registers.rowInRange, h.registers.idleBelow,
    h.registers.memory⟩, h.cfg, h.swapPend, .inr hD.2⟩

/-- After an operation the port is idle or has stopped legally, so the invariant holds again. -/
theorem RunInv.finishOp {c : Config} {s : State} (h : RunInv c s) : MachineInv (finishOp s) := by
  have hr := h.registers
  refine ⟨?_, ?_, ?_, ?_, ?_, ?_⟩
  · rw [finishOp_cfg]; exact hr.config
  · rw [finishOp_row, finishOp_cfg]; exact hr.rowInRange
  · rw [finishOp_idleCnt]; exact hr.idleBelow
  · rw [finishOp_cfg, finishOp_fb]; exact hr.memory
  · rw [finishOp_swapPend, h.swapPend]; exact fun hf => absurd hf (by simp)
  · cases hrun : isRunning s with
    | true => rw [finishOp_of_running hrun]; trivial
    | false =>
      rw [finishOp_of_not_running hrun, h.cfg]
      rcases h.port with hp | hp
      · rw [(isRunning_iff s).mpr hp] at hrun; cases hrun
      · exact hp

theorem machineInv_run {s : State} (h : RegisterInv s) (hs : s.swapPend = false) {P : Prog}
    (hP : P.Touches (Prog.InBuffers s.cfg fun _ => True) (Prog.LegalTodo s.cfg fun _ => True)) :
    MachineInv (finishOp (P.run (beginOp s))) ∧ (finishOp (P.run (beginOp s))).cfg = s.cfg := by
  have hrun : RunInv s.cfg (P.run (beginOp s)) := (runInv_keeps s.cfg).run hP
    ⟨⟨h.config, h.rowInRange, h.idleBelow, h.memory⟩, rfl, hs, .inl rfl⟩
  exact ⟨hrun.finishOp, (finishOp_cfg _).trans hrun.cfg⟩

/-! ## Every step keeps the invariant -/

theorem machineInv_registerWrite {s u : State} (h : MachineInv s) (hs : s.port = .idle)
    (hw : RegisterWrite s u) : MachineInv u ∧ u.cfg = s.cfg := by
  have hp : u.port = .idle := hw.port.elim (fun e => e.trans hs) id
  have hidle : u.idleCnt.toNat ≤ 254 := by
    rcases hw.idleCnt with e | e <;> rw [e]
    · exact h.idleBelow
    · simp
  rw [hw.frame]
  exact ⟨⟨h.config, h.rowInRange, hidle, h.memory, fun _ => hp, by rw [hp]; trivial⟩, rfl⟩

/-- A tick clears the flag or leaves it. -/
theorem tickOp_swapPend {s : State} (h : (tickOp s).swapPend = true) : s.swapPend = true := by
  by_contra hs
  rw [(tickOp_front s (by simpa using hs)).2] at h
  cases h

theorem MachineInv.deliver {s : State} (h : MachineInv s) (e : Turn) : MachineInv (deliver e s) := by
  have hr := h.registers.deliver e
  have hport : (Machine.deliver e s).port = .idle ∨ (Machine.deliver e s).port = s.port := by
    rw [deliver_port]
    split <;> simp
  refine ⟨hr.config, hr.rowInRange, hr.idleBelow, hr.memory, fun hs => ?_, ?_⟩
  · rcases hport with e | hp
    · exact e
    · rw [hp]
      refine h.heldIdle ?_
      cases e with
      | tick => exact tickOp_swapPend hs
      | reset => cases hs
      | _ => exact hs
  · rcases hport with hp | hp
    · rw [hp]; trivial
    · rw [hp, deliver_cfg]; exact h.port

theorem machineInv_exec {s u : State} {i : Instr} (h : MachineInv s) (hp : s.port = .idle)
    (hs : s.swapPend = false) (hu : exec i s = .next u) : MachineInv u ∧ u.cfg = s.cfg := by
  rcases exec_cases hu with ⟨-, rfl⟩ | ⟨P, hP, rfl⟩ | ⟨-, hw⟩
  · exact ⟨h.deliver .tick, tickOp_cfg s⟩
  · exact machineInv_run h.registers hs (opProg_touches hP h.config fun _ _ => trivial)
  · exact machineInv_registerWrite h hp hw

theorem machineInv_portTurn {s u : State} (h : MachineInv s) (hu : portTurn s = .next u) :
    MachineInv u ∧ u.cfg = s.cfg := by
  rcases portTurn_cases hu with rfl | ⟨hs, ⟨i, rest, hi⟩ | ⟨hdr, l, rfl⟩ | ⟨bs, n, hne, hdec, rfl⟩
    | ⟨buf, todo, low, hp, rfl⟩⟩
  · exact ⟨h, rfl⟩
  · exact machineInv_exec (s := { s with port := .idle, stream := rest })
      ⟨h.config, h.rowInRange, h.idleBelow, h.memory, fun _ => rfl, trivial⟩ rfl hs hi
  · exact ⟨⟨h.config, h.rowInRange, h.idleBelow, h.memory, fun _ => rfl, trivial⟩, rfl⟩
  · refine ⟨⟨h.config, h.rowInRange, h.idleBelow, h.memory, fun hf => ?_, hne, n, hdec⟩, rfl⟩
    rw [hs] at hf
    cases hf
  · have hport := h.port
    rw [hp] at hport
    rw [resumeData_eq]
    exact machineInv_run (s := { s with stream := low.toList ++ s.stream })
      ⟨h.config, h.rowInRange, h.idleBelow, h.memory⟩ hs (Prog.touches_dataSlots trivial hport.2)

/-- Settles O46: an event, or the port's turn, each of which keeps the invariant; inside an operation a weaker one holds between any two accesses. -/
theorem stepsKeepTheInvariant : Obligations.StepsKeepTheInvariant := by
  intro s u h hu
  have hsched : ∀ l, MachineInv { s with sched := l } := fun l =>
    ⟨h.config, h.rowInRange, h.idleBelow, h.memory, h.heldIdle, h.port⟩
  rcases step_cases hu with ⟨e, tl, -, -, rfl⟩ | ⟨l, -, hl⟩
  · exact ⟨(hsched tl).deliver e, deliver_cfg _ _⟩
  · exact machineInv_portTurn (s := { s with sched := l }) (hsched l) hl

/-! ## FRONT -/

/-- A tick exchanges the buffers only where it serves a swap at a frame boundary (43_tick.md R204). -/
theorem tickOp_front_ne {s : State} (h : (tickOp s).front ≠ s.front) :
    s.swapPend = true ∧ boundaryNext s := by
  constructor
  · by_contra hs
    exact h (tickOp_front s (by simpa using hs)).1
  · by_contra hb
    exact h (by rw [tickOp_onlyScanned hb])

/-- FRONT is `f`, no swap is pending, and no reset is to come. -/
structure FrontStands (f : Bool) (s : State) : Prop where
  front : s.front = f
  swapPend : s.swapPend = false
  noReset : Turn.reset ∉ s.sched

theorem frontStands_keeps (f : Bool) :
    Prog.Keeps (fun _ => True) (fun _ _ => True) (FrontStands f) where
  event s e _ h := by
    obtain ⟨hf, hp, hn⟩ := h
    refine ⟨?_, deliver_swapPend (s := s) hp e,
      by rw [deliver_sched]; exact fun hm => hn (List.mem_cons_of_mem _ hm)⟩
    cases e with
    | tick => exact (tickOp_front s hp).1.trans hf
    | reset => exact absurd (by simp) hn
    | _ => exact hf
  write s a x _ _ h := ⟨h.front, h.swapPend, h.noReset⟩
  emit s bs h := ⟨h.front, h.swapPend, h.noReset⟩
  take s l h := ⟨h.front, h.swapPend, h.noReset⟩
  wait s buf todo low _ _ h := ⟨h.front, h.swapPend, h.noReset⟩

theorem Prog.touches_true (P : Prog) : P.Touches (fun _ => True) (fun _ _ => True) := by
  induction P with
  | done => trivial
  | read a next ih => exact ⟨trivial, ih⟩
  | write a x next ih => exact ⟨trivial, ih⟩
  | emit bs next ih => exact ih
  | data buf todo next ih => exact ⟨trivial, ih⟩

theorem front_run (P : Prog) {s : State} (hs : s.swapPend = false) (hn : Turn.reset ∉ s.sched) :
    (finishOp (P.run (beginOp s))).front = s.front := by
  rw [finishOp_front]
  exact ((frontStands_keeps s.front).run P.touches_true (s := beginOp s) ⟨rfl, hs, hn⟩).front

theorem front_portTurn {s u : State} (hn : Turn.reset ∉ s.sched) (hu : portTurn s = .next u) :
    u.front = s.front := by
  rcases portTurn_cases hu with rfl | ⟨hs, ⟨i, rest, hi⟩ | ⟨hdr, l, rfl⟩ | ⟨bs, n, -, -, rfl⟩
    | ⟨buf, todo, low, -, rfl⟩⟩
  · rfl
  · rcases exec_cases hi with ⟨-, rfl⟩ | ⟨P, -, rfl⟩ | ⟨-, hw⟩
    · exact (tickOp_front { s with port := .idle, stream := rest } hs).1
    · exact front_run P hs hn
    · rw [hw.frame]
  · rfl
  · rfl
  · rw [resumeData_eq]
    exact front_run _ hs hn

/-- Settles O44: the port's turn never has a swap pending inside it, so only a TICK at a boundary is left. -/
theorem frontChangesOnlyAtServedSwap : Obligations.FrontChangesOnlyAtServedSwap := by
  intro s u _ hn hu hne
  rcases step_cases hu with ⟨e, tl, hs, he, rfl⟩ | ⟨l, hl, hport⟩
  · cases e with
    | tick =>
      obtain ⟨hswap, hb⟩ := tickOp_front_ne hne
      exact ⟨hswap, hb, tl, hs⟩
    | reset => exact absurd (by simp [hs]) hn
    | _ => exact absurd rfl hne
  · exact absurd (front_portTurn (fun hm => hn (hl _ hm)) hport) hne

/-! ## Each context's own registers -/

/-- The order holds port turns alone, and only memory, the port and its streams differ from `s`. -/
structure OnlyMemory (s u : State) : Prop where
  ports : ∀ e ∈ u.sched, e = Turn.port
  frame : u = { s with
    fb := u.fb
    port := u.port
    stream := u.stream
    resp := u.resp
    sched := u.sched }

theorem onlyMemory_keeps (s : State) :
    Prog.Keeps (fun _ => True) (fun _ _ => True) (OnlyMemory s) where
  event u e _ h := by
    obtain ⟨hp, hf⟩ := h
    obtain rfl : e = Turn.port := hp e (List.mem_cons_self ..)
    exact ⟨fun e he => hp e (List.mem_cons_of_mem _ he),
      congrArg (fun w : State => { w with sched := u.sched }) hf⟩
  write u a x _ _ h := ⟨h.ports, by rw [h.frame]; rfl⟩
  emit u bs h := ⟨h.ports, by rw [h.frame]; rfl⟩
  take u l h := ⟨h.ports, by rw [h.frame]⟩
  wait u buf todo low _ _ h := ⟨h.ports, by rw [h.frame]⟩

theorem onlyMemory_finishOp {s u : State} (h : OnlyMemory s u) : OnlyMemory s (finishOp u) := by
  unfold finishOp
  split
  · exact ⟨h.ports, by rw [h.frame]⟩
  · exact h

/-- Settles O43: operations with accesses write memory alone, the others are register writes, and a TICK writes memory only by its end action. -/
theorem contextsWriteTheirOwnRegisters : Obligations.ContextsWriteTheirOwnRegisters := by
  refine ⟨fun i s u hi hsched hu => ?_, fun s u hu => ?_⟩
  · rcases exec_cases hu with ⟨ht, -⟩ | ⟨P, -, rfl⟩ | ⟨-, hw⟩
    · exact absurd ht hi
    · have hrun := onlyMemory_finishOp ((onlyMemory_keeps s).run P.touches_true
        (s := beginOp s) ⟨hsched, rfl⟩)
      rw [hrun.frame]
      exact ⟨rfl, rfl, rfl, rfl, rfl, rfl, rfl, rfl, id, id, id, .inl rfl⟩
    · have hf := hw.frame
      refine ⟨?_, ?_, ?_, ?_, ?_, ?_, ?_, ?_, hw.swapPend, hw.brPend, hw.frameChg, hw.idleCnt⟩ <;>
        rw [hf]
  · obtain rfl : tickOp s = u := Host.Outcome.next.inj hu
    refine ⟨tickOp_ht s, tickOp_brReq s, tickOp_idleTrig s, tickOp_fadeEn s, tickOp_endAct s,
      tickOp_outEn s, tickOp_swapPend, ?_⟩
    by_cases hb : boundaryNext s
    · rw [tickOp_boundary hb]
      refine ⟨fun h => absurd h (by simp), fun _ => rfl, fun hne => ?_⟩
      have hmem : actionMem s.endAct s.cfg (s.front ^^ s.swapPend) s.fb = s.fb :=
        if_neg fun hc => hne ⟨hc, hb⟩
      dsimp only
      rw [hmem]
      exact ite_self _
    · rw [tickOp_onlyScanned hb]
      exact ⟨id, id, fun _ => rfl⟩

end Sys2Proof.Machine
end

section
/-! PROOFS. An operation up to one of its accesses: the first accesses as plain reads and writes, what is left of the operation, and the events or the reset that stand in front of the next access (20_memory.md R74, 70_reset_and_hazards.md R270). -/

namespace Sys2Proof.Machine

open Sys2Proof

namespace Prog

/-- The first `k` accesses and everything in front of the next one, without regard to the order of events: what is left of the operation, and the state. It stops where the stream runs dry. -/
def upTo : Prog → Nat → State → Prog × State
  | .done, _, s => (.done, s)
  | .read a next, 0, s => (.read a next, s)
  | .read a next, k + 1, s => (next (memRead s a)).upTo k s
  | .write a x next, 0, s => (.write a x next, s)
  | .write a x next, k + 1, s => next.upTo k (memWrite s a x)
  | .emit bs next, k, s => next.upTo k (Machine.emit bs s)
  | .data buf todo next, k, s =>
    match s.stream with
    | low :: high :: more => (next ⟨low, high⟩).upTo k { s with stream := more }
    | _ => (.data buf todo next, s)

theorem upTo_data_cons {buf : Bool} {todo : List Slot} {next : Gray → Prog} {k : Nat} {s : State}
    {low high : Byte} {more : List Byte} (h : s.stream = low :: high :: more) :
    (Prog.data buf todo next).upTo k s = (next ⟨low, high⟩).upTo k { s with stream := more } := by
  simp only [upTo, h]

/-- The operation makes `n` accesses and takes `d` data pairs, whatever it reads and takes. -/
inductive Makes : Prog → Nat → Nat → Prop
  | done : Makes .done 0 0
  | read {a : Nat} {next : Byte → Prog} {n d : Nat} (h : ∀ b, Makes (next b) n d) :
      Makes (.read a next) (n + 1) d
  | write {a : Nat} {x : Byte} {next : Prog} {n d : Nat} (h : Makes next n d) :
      Makes (.write a x next) (n + 1) d
  | emit {bs : List Byte} {next : Prog} {n d : Nat} (h : Makes next n d) : Makes (.emit bs next) n d
  | data {buf : Bool} {todo : List Slot} {next : Gray → Prog} {n d : Nat} (h : ∀ g, Makes (next g) n d) :
      Makes (.data buf todo next) n (d + 1)

/-- The next action is an access. -/
def atAccess : Prog → Prop
  | .read _ _ => True
  | .write _ _ _ => True
  | _ => False

theorem exists_pair {l : List Byte} {d : Nat} (h : 2 * (d + 1) ≤ l.length) :
    ∃ low high more, l = low :: high :: more ∧ 2 * d ≤ more.length := by
  match l, h with
  | low :: high :: more, h => exact ⟨low, high, more, rfl, by simp at h; omega⟩

/-- Up to an access only memory, the stream and the responses change. -/
theorem upTo_frame (P : Prog) (k : Nat) (s : State) :
    (P.upTo k s).2 = { s with
      fb := (P.upTo k s).2.fb
      stream := (P.upTo k s).2.stream
      resp := (P.upTo k s).2.resp } := by
  induction P generalizing k s with
  | done => rfl
  | read a next ih =>
    cases k with
    | zero => rfl
    | succ k => exact ih _ k s
  | write a x next ih =>
    cases k with
    | zero => rfl
    | succ k => exact ih k (memWrite s a x)
  | emit bs next ih => exact ih k (Machine.emit bs s)
  | data buf todo next ih =>
    simp only [upTo]
    split
    · exact ih _ k _
    · rfl

theorem isRunning_upTo (P : Prog) (k : Nat) (s : State) :
    isRunning (P.upTo k s).2 = isRunning s := by rw [upTo_frame]; rfl

theorem upTo_sched (P : Prog) (k : Nat) (s : State) : (P.upTo k s).2.sched = s.sched := by
  rw [upTo_frame]

/-- The order of events is not looked at. -/
theorem upTo_withSched (P : Prog) (k : Nat) (s : State) (l : List Turn) :
    P.upTo k { s with sched := l } = ((P.upTo k s).1, { (P.upTo k s).2 with sched := l }) := by
  induction P generalizing k s with
  | done => rfl
  | read a next ih =>
    cases k with
    | zero => rfl
    | succ k => exact ih _ k s
  | write a x next ih =>
    cases k with
    | zero => rfl
    | succ k => exact ih k (memWrite s a x)
  | emit bs next ih => exact ih k (Machine.emit bs s)
  | data buf todo next ih =>
    obtain ⟨q, hq⟩ : ∃ q, s.stream = q := ⟨_, rfl⟩
    match q with
    | low :: high :: more =>
      rw [upTo_data_cons hq, upTo_data_cons (by exact hq)]
      exact ih _ k { s with stream := more }
    | [low] => simp only [upTo, hq]
    | [] => simp only [upTo, hq]

theorem upTo_takeTurns (P : Prog) (k m : Nat) (s : State) :
    P.upTo k (takeTurns m s) = ((P.upTo k s).1, takeTurns m (P.upTo k s).2) := by
  rw [takeTurns, upTo_withSched, takeTurns, upTo_sched]

/-- What is left has the other accesses and the other data pairs to go; where an access is left it is next, and where none is nothing is left. -/
theorem upTo_makes {P : Prog} {n d k : Nat} (h : P.Makes n d) (hk : k ≤ n) {s : State}
    (hd : 2 * d ≤ s.stream.length) :
    ∃ e ≤ d, (P.upTo k s).1.Makes (n - k) e ∧ (P.upTo k s).2.stream = s.stream.drop (2 * (d - e))
      ∧ (k < n → (P.upTo k s).1.atAccess) ∧ (k = n → (P.upTo k s).1 = .done) := by
  induction h generalizing k s with
  | done =>
    obtain rfl : k = 0 := by omega
    exact ⟨0, le_rfl, .done, rfl, fun h => by omega, fun _ => rfl⟩
  | @read a next n d h ih =>
    cases k with
    | zero => exact ⟨d, le_rfl, .read h, by simp [upTo], fun _ => trivial, fun h => by omega⟩
    | succ k => simpa [upTo] using ih (memRead s a) (k := k) (by omega) hd
  | @write a x next n d h ih =>
    cases k with
    | zero => exact ⟨d, le_rfl, .write h, by simp [upTo], fun _ => trivial, fun h => by omega⟩
    | succ k => simpa [upTo] using ih (k := k) (by omega) (s := memWrite s a x) hd
  | @emit bs next n d h ih => exact ih hk (s := Machine.emit bs s) hd
  | @data buf todo next n d h ih =>
    obtain ⟨low, high, more, hs, hmore⟩ := exists_pair hd
    rw [upTo_data_cons hs]
    obtain ⟨e, he, hm, hstream, hacc⟩ := ih ⟨low, high⟩ hk (s := { s with stream := more }) hmore
    refine ⟨e, by omega, hm, ?_, hacc⟩
    have hdrop : 2 * (d + 1 - e) = 2 * (d - e) + 1 + 1 := by omega
    rw [hstream, hs, hdrop]
    rfl

/-- Where no event falls among the first `k` accesses, the operation runs up to the next one. -/
theorem run_upTo {P : Prog} {n d k : Nat} (h : P.Makes n d) (hk : k ≤ n) {s : State}
    (hd : 2 * d ≤ s.stream.length) (hr : isRunning s = true) (hu : Undisturbed k s) :
    P.run s = (P.upTo k s).1.run (takeTurns k (P.upTo k s).2) := by
  induction h generalizing k s with
  | done =>
    obtain rfl : k = 0 := by omega
    rfl
  | @read a next n d h ih =>
    cases k with
    | zero => rfl
    | succ k =>
      rw [Nat.add_comm] at hu
      rw [run, busRead_undisturbed hr (hu.mono (by omega))]
      have := ih (memRead s a) (k := k) (by omega) (s := takeTurns 1 s) hd hr hu.takeTurns
      rwa [upTo_takeTurns, takeTurns_takeTurns, Nat.add_comm 1 k] at this
  | @write a x next n d h ih =>
    cases k with
    | zero => rfl
    | succ k =>
      rw [Nat.add_comm] at hu
      rw [run, busWrite_undisturbed hr (hu.mono (by omega))]
      have := ih (k := k) (by omega) (s := takeTurns 1 (memWrite s a x)) hd hr
        (hu.memWrite a x).takeTurns
      rwa [upTo_takeTurns, takeTurns_takeTurns, Nat.add_comm 1 k] at this
  | @emit bs next n d h ih =>
    rw [run, busEmit_of_running bs hr]
    exact ih hk (s := Machine.emit bs s) hd hr hu
  | @data buf todo next n d h ih =>
    obtain ⟨low, high, more, hs, hmore⟩ := exists_pair hd
    rw [upTo_data_cons hs, run, if_pos hr, hs]
    exact ih ⟨low, high⟩ hk (s := { s with stream := more }) hmore hr hu

/-- Where no event falls among its accesses, an operation is its plain reads and writes. -/
theorem run_undisturbed {P : Prog} {n d : Nat} (h : P.Makes n d) {s : State}
    (hd : 2 * d ≤ s.stream.length) (hr : isRunning s = true) (hu : Undisturbed n s) :
    P.run s = takeTurns n (P.upTo n s).2 := by
  obtain ⟨-, -, -, -, -, hdone⟩ := upTo_makes h le_rfl hd
  rw [run_upTo h le_rfl hd hr hu, hdone rfl]
  rfl

theorem withSched_deliverAll (evs : List Turn) (s : State) (l : List Turn) :
    deliverAll evs { s with sched := l } = { deliverAll evs s with sched := l } := by
  induction evs generalizing s with
  | nil => rfl
  | cons e evs ih =>
    simp only [deliverAll, List.foldl_cons] at ih ⊢
    rw [withSched_deliver, ih]

/-- The access next in line sees every event in front of it. -/
theorem run_of_events {P : Prog} (hP : P.atAccess) {evs tl : List Turn} {m : State}
    (hr : isRunning m = true) (he : ∀ e ∈ evs, e ≠ .port ∧ e ≠ .reset)
    (ht : ∀ e ∈ tl.take 1, e = .port) :
    P.run { m with sched := evs ++ tl } = P.run (deliverAll evs { m with sched := tl }) := by
  have hturn : deliverAll evs { m with sched := tl.drop 1 }
      = takeTurns 1 (deliverAll evs { m with sched := tl }) := by
    rw [takeTurns, deliverAll_sched, withSched_deliverAll, withSched_deliverAll evs m tl]
  have hpause : pause { m with sched := evs ++ tl } = pause (deliverAll evs { m with sched := tl }) := by
    have hrun : isRunning (deliverAll evs { m with sched := tl }) = true := by
      rw [deliverAll_running fun e h => (he e h).2]
      exact hr
    rw [pause_of_events (s := { m with sched := evs ++ tl }) hr he ht rfl,
      pause_undisturbed hrun (by rw [Undisturbed, deliverAll_sched]; exact ht), ← hturn]
  match P with
  | .read a next => simp only [run, busRead, hpause]
  | .write a x next => simp only [run, busWrite, hpause]

/-- A reset in front of the next access drops what is left of the operation (70_reset_and_hazards.md R270). -/
theorem run_of_reset {P : Prog} (hP : P.atAccess) {tl : List Turn} {m : State}
    (hr : isRunning m = true) :
    P.run { m with sched := .reset :: tl } = resetEvent { m with sched := tl } := by
  have hpause : pause { m with sched := .reset :: tl } = resetEvent { m with sched := tl } := by
    rw [pause, if_pos (by exact hr)]
    rfl
  have hstop : isRunning (resetEvent { m with sched := tl }) = false := rfl
  match P with
  | .read a next =>
    rw [run]
    simp only [busRead, hpause]
    exact run_of_not_running _ hstop
  | .write a x next =>
    rw [run]
    simp only [busWrite, hpause, hstop, Bool.false_eq_true, if_false]
    exact run_of_not_running _ hstop

/-- Where events stand in front of access `k`: the first accesses, the events, the other accesses (20_memory.md R74). -/
theorem run_eventsAt {P : Prog} {n d k : Nat} (h : P.Makes n d) {evs tl : List Turn} {s : State}
    (hd : 2 * d ≤ s.stream.length) (hr : isRunning s = true) (hev : eventsAt n k evs tl s) :
    P.run s = (P.upTo k { s with sched := tl }).1.run
      (deliverAll evs (P.upTo k { s with sched := tl }).2) := by
  obtain ⟨hk, hs, he, ht⟩ := hev
  have hu : Undisturbed k s := fun e hm => by
    rw [hs, List.take_left' (by simp)] at hm
    exact List.eq_of_mem_replicate hm
  have hsched : s.sched.drop k = evs ++ tl := by rw [hs, List.drop_left' (by simp)]
  obtain ⟨-, -, -, -, hacc, -⟩ := upTo_makes h hk.le hd
  rw [run_upTo h hk.le hd hr hu, upTo_withSched P k s tl, takeTurns, upTo_sched P k s, hsched]
  exact run_of_events (hacc hk) ((isRunning_upTo P k s).trans hr) he
    fun e hm => ht e ((List.take_prefix_take_left (by omega)).subset hm)

end Prog

end Sys2Proof.Machine
end

section
/-! PROOFS. How many accesses and data pairs the operations have, and where a block stands among those of a rectangle as given (41_pixel_and_rect.md R145 to R149). -/

namespace Sys2Proof.Machine

open Sys2Proof

/-! ## The walk over a rectangle as given -/

/-- The blocks of the list that lie in the buffer. -/
def countSome (slots : List Slot) : Nat := slots.countP Option.isSome

@[simp] theorem countSome_nil : countSome [] = 0 := rfl
@[simp] theorem countSome_none (l : List Slot) : countSome (none :: l) = countSome l := by
  simp [countSome]
@[simp] theorem countSome_some (pos : Pos) (l : List Slot) :
    countSome (some pos :: l) = countSome l + 1 := by simp [countSome]
theorem countSome_append (l l' : List Slot) : countSome (l ++ l') = countSome l + countSome l' :=
  List.countP_append

/-- The block of a rectangle as given at an offset (R145, R146). -/
def slotAt (c : Config) (bx y bw h : Nat) (o : Nat × Nat) : Slot :=
  if o.2 < clipHeight c y h ∧ o.1 < clipWidth c bx bw then some (shift bx y o) else none

theorem givenRect_eq (c : Config) (bx y bw h : Nat) :
    givenRect c bx y bw h = (offsets bw h).map (slotAt c bx y bw h) := rfl

/-- One row of offsets. -/
def offsetRow (w r : Nat) : List (Nat × Nat) := (List.range w).map fun q => (q, r)

theorem offsets_add (w m n : Nat) :
    offsets w (m + n) = offsets w m ++ (List.range n).flatMap fun r => offsetRow w (m + r) := by
  simp only [offsets, List.range_add, List.flatMap_append, List.flatMap_map, offsetRow]

theorem offsets_succ (w h : Nat) : offsets w (h + 1) = offsets w h ++ offsetRow w h := by
  rw [offsets_add]
  simp

theorem offsetRow_add (m n r : Nat) :
    offsetRow (m + n) r = offsetRow m r ++ (List.range n).map fun q => (m + q, r) := by
  simp only [offsetRow, List.range_add, List.map_append, List.map_map, Function.comp_def]

/-- Row by row, an offset comes after the rows above it and the offsets left of it (R149). -/
theorem offsets_split {w h q r : Nat} (hq : q < w) (hr : r < h) :
    ∃ post, offsets w h = (offsets w r ++ offsetRow q r) ++ (q, r) :: post := by
  obtain ⟨a, rfl⟩ := Nat.exists_eq_add_of_lt hr
  obtain ⟨b, rfl⟩ := Nat.exists_eq_add_of_lt hq
  have hrow : offsetRow (q + (b + 1)) r
      = offsetRow q r ++ (q, r) :: (List.range b).map fun i => (q + (i + 1), r) := by
    rw [offsetRow_add, List.range_succ_eq_map]
    simp
  have hrows : offsets (q + (b + 1)) (r + (a + 1)) = offsets (q + (b + 1)) r
      ++ (offsetRow (q + (b + 1)) r
        ++ (List.range a).flatMap fun i => offsetRow (q + (b + 1)) (r + (i + 1))) := by
    rw [offsets_add, List.range_succ_eq_map]
    simp [List.flatMap_map]
  refine ⟨((List.range b).map fun i => (q + (i + 1), r))
    ++ (List.range a).flatMap fun i => offsetRow (q + (b + 1)) (r + (i + 1)), ?_⟩
  rw [Nat.add_assoc q, Nat.add_assoc r, hrows, hrow]
  simp only [List.append_assoc, List.cons_append]

variable {c : Config} {bx y bw h : Nat}

theorem countSome_row (q r : Nat) :
    countSome ((offsetRow q r).map (slotAt c bx y bw h))
      = if r < clipHeight c y h then min q (clipWidth c bx bw) else 0 := by
  induction q with
  | zero => simp [offsetRow]
  | succ q ih =>
    have hrow : offsetRow (q + 1) r = offsetRow q r ++ [(q, r)] := offsetRow_add q 1 r
    rw [hrow, List.map_append, countSome_append, ih]
    by_cases hr : r < clipHeight c y h
    · by_cases hq : q < clipWidth c bx bw
      · simp [slotAt, hr, hq]
        omega
      · simp [slotAt, hr, hq]
        omega
    · simp [slotAt, hr]

theorem clipWidth_le : clipWidth c bx bw ≤ bw := by
  unfold clipWidth
  split <;> omega

theorem clipHeight_le : clipHeight c y h ≤ h := by
  unfold clipHeight
  split <;> omega

theorem countSome_rows (r : Nat) :
    countSome ((offsets bw r).map (slotAt c bx y bw h))
      = min r (clipHeight c y h) * clipWidth c bx bw := by
  have hw : min bw (clipWidth c bx bw) = clipWidth c bx bw := Nat.min_eq_right clipWidth_le
  induction r with
  | zero => simp [offsets]
  | succ r ih =>
    rw [offsets_succ, List.map_append, countSome_append, ih, countSome_row, hw]
    by_cases hr : r < clipHeight c y h
    · rw [if_pos hr, Nat.min_eq_left hr.le, Nat.min_eq_left hr, Nat.succ_mul]
    · rw [if_neg hr, Nat.min_eq_right (by omega), Nat.min_eq_right (by omega), Nat.add_zero]

/-- The blocks in the buffer are those of the clipped rectangle (R140). -/
theorem countSome_givenRect :
    countSome (givenRect c bx y bw h) = clipWidth c bx bw * clipHeight c y h := by
  rw [givenRect_eq, countSome_rows, Nat.min_eq_right clipHeight_le, Nat.mul_comm]

theorem length_givenRect : (givenRect c bx y bw h).length = bw * h := by
  rw [givenRect_eq, List.length_map, length_offsets]

/-- A block of the clipped rectangle among the blocks as given: how many come before it, and how many of them in the buffer (R149). -/
theorem givenRect_split {q r : Nat} (hq : q < clipWidth c bx bw) (hr : r < clipHeight c y h) :
    ∃ pre post, givenRect c bx y bw h = pre ++ some (bx + q, y + r) :: post
      ∧ pre.length = r * bw + q ∧ countSome pre = r * clipWidth c bx bw + q := by
  obtain ⟨post, hp⟩ := offsets_split (Nat.lt_of_lt_of_le hq clipWidth_le)
    (Nat.lt_of_lt_of_le hr clipHeight_le)
  refine ⟨(offsets bw r ++ offsetRow q r).map (slotAt c bx y bw h), post.map (slotAt c bx y bw h),
    ?_, ?_, ?_⟩
  · rw [givenRect_eq, hp, List.map_append, List.map_cons]
    simp only [slotAt, hq, hr, and_self, if_true, shift]
  · simp [offsetRow, Nat.mul_comm]
  · rw [List.map_append, countSome_append, countSome_rows, countSome_row, if_pos hr,
      Nat.min_eq_left hr.le, Nat.min_eq_left hq.le]

/-- The block that access `k` belongs to (R149). -/
theorem givenRect_split_access {k : Nat} (hk : k < 3 * (clipWidth c bx bw * clipHeight c y h)) :
    ∃ pre post pos, givenRect c bx y bw h = pre ++ some pos :: post
      ∧ pre.length = blocksBefore (clipWidth c bx bw) bw k ∧ countSome pre = k / 3 := by
  have hk3 : k / 3 < clipWidth c bx bw * clipHeight c y h := by omega
  have hw : 0 < clipWidth c bx bw := Nat.pos_of_ne_zero fun h0 => by simp [h0] at hk3
  obtain ⟨pre, post, hs, hl, hc⟩ := givenRect_split (c := c) (bx := bx) (y := y) (bw := bw) (h := h)
    (Nat.mod_lt (k / 3) hw) (Nat.div_lt_of_lt_mul hk3)
  exact ⟨pre, post, _, hs, hl, hc.trans (Nat.div_add_mod' _ _)⟩

/-! ## Accesses and data pairs -/

namespace Prog

theorem makes_readBytes {as : List Nat} {next : List Byte → Prog} {n d : Nat}
    (h : ∀ bs, bs.length = as.length → (next bs).Makes n d) :
    (readBytes as next).Makes (as.length + n) d := by
  induction as generalizing next with
  | nil => simpa [readBytes] using h [] rfl
  | cons a as ih =>
    rw [List.length_cons, Nat.add_right_comm]
    exact .read fun b => ih fun bs hb => h (b :: bs) (by simp [hb])

theorem makes_writeBytes {l : List (Nat × Byte)} {next : Prog} {n d : Nat} (h : next.Makes n d) :
    (writeBytes l next).Makes (l.length + n) d := by
  induction l with
  | nil => simpa [writeBytes] using h
  | cons x l ih =>
    rw [List.length_cons, Nat.add_right_comm]
    exact .write ih

theorem makes_readSlots (buf : Bool) (slots : List Slot) :
    (readSlots c buf slots).Makes (3 * countSome slots) 0 := by
  induction slots with
  | nil => exact .done
  | cons slot rest ih =>
    cases slot with
    | none => rw [countSome_none]; exact .emit ih
    | some pos =>
      rw [countSome_some]
      exact .read fun _ => .read fun _ => .read fun _ => .emit ih

theorem makes_dataSlots (buf : Bool) (slots : List Slot) :
    (dataSlots c buf slots).Makes (3 * countSome slots) slots.length := by
  induction slots with
  | nil => exact .done
  | cons slot rest ih =>
    refine .data fun g => ?_
    cases slot with
    | none => rw [countSome_none]; exact ih
    | some pos => rw [countSome_some]; exact .write (.write (.write ih))

theorem length_flatMap_blockAddrs (buf : Bool) (l : List Pos) :
    (l.flatMap (blockAddrs c buf)).length = 3 * l.length := by
  simp [List.length_flatMap, blockAddrs, Nat.mul_comm]

theorem length_flatMap_blockWrites (buf : Bool) (p : Planes) (l : List Pos) :
    (l.flatMap fun pos => blockWrites c buf pos p).length = 3 * l.length := by
  simp [List.length_flatMap, blockWrites, blockAddrs, planeBytes, Nat.mul_comm]

end Prog

/-- The data pairs an operation takes (R146). -/
def pairCount : Instr → Nat
  | .wrrect _ _ _ bw h => bw.toNat * h.toNat
  | _ => 0

open Prog in
/-- An operation makes the accesses R143 to R148 list. -/
theorem opProg_makes {s : State} {i : Instr} {P : Prog} (h : opProg s i = some P) :
    P.Makes (accessCount s.cfg i) (pairCount i) := by
  cases i with
  | rdrect t bx y bw h' =>
    obtain rfl := Option.some.inj h
    simp only [accessCount, ← countSome_givenRect]
    exact makes_readSlots _ _
  | wrrect t bx y bw h' =>
    obtain rfl := Option.some.inj h
    have hm := makes_dataSlots (c := s.cfg) (phys t s)
      (givenRect s.cfg bx.toNat y.toNat bw.toNat h'.toNat)
    rwa [countSome_givenRect, length_givenRect] at hm
  | cprect src dst sbx sy bw h' dbx dy =>
    obtain rfl := Option.some.inj h
    have hlen : ∀ bx y, (copyRect s.cfg sbx sy bw h' dbx dy bx y).length
        = copyWidth s.cfg sbx.toNat dbx.toNat bw.toNat * copyHeight s.cfg sy.toNat dy.toNat h'.toNat :=
      fun bx y => by rw [copyRect, List.length_map, length_offsets]
    have hacc : accessCount s.cfg (.cprect src dst sbx sy bw h' dbx dy)
        = 3 * (copyWidth s.cfg sbx.toNat dbx.toNat bw.toNat
            * copyHeight s.cfg sy.toNat dy.toNat h'.toNat)
          + 3 * (copyWidth s.cfg sbx.toNat dbx.toNat bw.toNat
            * copyHeight s.cfg sy.toNat dy.toNat h'.toNat) := by
      simp only [accessCount]
      omega
    rw [hacc, ← hlen sbx.toNat sy.toNat, ← length_flatMap_blockAddrs (c := s.cfg) (phys src s)]
    refine makes_readBytes fun bs hbs => ?_
    have hz := makes_writeBytes (l := ((copyRect s.cfg sbx sy bw h' dbx dy dbx.toNat dy.toNat).flatMap
      (blockAddrs s.cfg (phys dst s))).zip bs) .done
    rw [List.length_zip, hbs, length_flatMap_blockAddrs, length_flatMap_blockAddrs, hlen, hlen,
      Nat.min_self] at hz
    rw [length_flatMap_blockAddrs, hlen]
    exact hz
  | flrect t v bx y bw h' =>
    obtain rfl := Option.some.inj h
    have hm := makes_writeBytes (l := (clippedRect s.cfg bx.toNat y.toNat bw.toNat h'.toNat).flatMap
      fun pos => blockWrites s.cfg (phys t s) pos (encodeBlock (splat v))) .done
    rwa [length_flatMap_blockWrites, length_clippedRect] at hm
  | setpx t v x y =>
    simp only [opProg] at h
    split at h
    · next hin =>
      obtain rfl := Option.some.inj h
      rw [accessCount, if_pos hin]
      exact .read fun _ => .write (.read fun _ => .write (.read fun _ => .write .done))
    · cases h
  | getpx t x y =>
    simp only [opProg] at h
    split at h
    · next hin =>
      obtain rfl := Option.some.inj h
      rw [accessCount, if_pos hin]
      exact .read fun _ => .read fun _ => .read fun _ => .emit .done
    · cases h
  | _ => cases h

end Sys2Proof.Machine
end

section
/-! PROOFS. A reset between two accesses (70_reset_and_hazards.md R270). -/

namespace Sys2Proof.Machine

open Sys2Proof

namespace Prog

/-- In front of an access of a block, WRRECT has taken the pairs of the blocks up to and with it (41_pixel_and_rect.md R146). -/
theorem upTo_dataSlots_stream {c : Config} (buf : Bool) {pre post : List Slot} {pos : Pos} {p : Nat}
    (hp : p < 3) {s : State} (hd : 2 * (pre.length + 1) ≤ s.stream.length) :
    ((dataSlots c buf (pre ++ some pos :: post)).upTo (3 * countSome pre + p) s).2.stream
      = s.stream.drop (2 * (pre.length + 1)) := by
  induction pre generalizing s with
  | nil =>
    obtain ⟨low, high, more, hs, -⟩ := exists_pair (d := 0) hd
    rw [List.nil_append, dataSlots, upTo_data_cons hs, hs]
    match p, hp with
    | 0, _ => rfl
    | 1, _ => rfl
    | 2, _ => rfl
  | cons slot pre ih =>
    obtain ⟨low, high, more, hs, hmore⟩ := exists_pair (d := pre.length + 1) hd
    rw [List.cons_append, dataSlots, upTo_data_cons hs, hs, List.length_cons,
      Nat.mul_add 2 (pre.length + 1), List.drop_succ_cons, List.drop_succ_cons]
    cases slot with
    | none =>
      rw [countSome_none]
      exact ih (s := { s with stream := more }) hmore
    | some pos' =>
      rw [countSome_some, show 3 * (countSome pre + 1) + p = 3 * countSome pre + p + 1 + 1 + 1 by omega]
      exact ih (s := memWrite (memWrite (memWrite { s with stream := more } _ _) _ _) _ _) hmore

end Prog

/-- An operation that makes accesses is a sequence of actions. -/
theorem exists_opProg {s : State} {i : Instr} (h : accessCount s.cfg i ≠ 0) :
    ∃ P, opProg s i = some P := by
  cases i with
  | setpx t v x y => exact ⟨_, if_pos (by_contra fun hin => h (if_neg hin))⟩
  | getpx t x y => exact ⟨_, if_pos (by_contra fun hin => h (if_neg hin))⟩
  | rdrect t bx y bw h' => exact ⟨_, rfl⟩
  | wrrect t bx y bw h' => exact ⟨_, rfl⟩
  | cprect src dst sbx sy bw h' dbx dy => exact ⟨_, rfl⟩
  | flrect t v bx y bw h' => exact ⟨_, rfl⟩
  | _ => exact absurd rfl h

theorem pairCount_le_of_dataReady {s : State} {i : Instr} (h : dataReady s i) :
    2 * pairCount i ≤ s.stream.length := by
  cases i with
  | wrrect t bx y bw h' => exact h
  | _ => exact Nat.zero_le _

/-- The data taken in front of an access is no more than all of it. -/
theorem dataTaken_le {c : Config} {i : Instr} {k : Nat} (hk : k < accessCount c i) :
    dataTaken c k i ≤ 2 * pairCount i := by
  cases i with
  | wrrect t bx y bw h =>
    obtain ⟨pre, post, pos, hsplit, hlen, -⟩ := givenRect_split_access hk
    have hle : pre.length + 1 ≤ bw.toNat * h.toNat := by
      rw [← length_givenRect (c := c) (bx := bx.toNat) (y := y.toNat), hsplit]
      simp
    rw [hlen] at hle
    exact Nat.mul_le_mul_left 2 hle
  | _ => exact Nat.zero_le _

/-- What of the stream is left in front of access `k` (R146). -/
theorem opProg_stream {s : State} {i : Instr} {P : Prog} (h : opProg s i = some P) (hd : dataReady s i)
    {k : Nat} (hk : k < accessCount s.cfg i) :
    (P.upTo k (beginOp s)).2.stream = s.stream.drop (dataTaken s.cfg k i) := by
  have hnone : pairCount i = 0 → (P.upTo k (beginOp s)).2.stream = s.stream := fun h0 => by
    obtain ⟨e, -, -, hs, -⟩ := Prog.upTo_makes (opProg_makes h) hk.le (s := beginOp s)
      (pairCount_le_of_dataReady hd)
    rw [hs, h0, Nat.zero_sub]
    rfl
  cases i with
  | wrrect t bx y bw h' =>
    obtain rfl := Option.some.inj h
    obtain ⟨pre, post, pos, hsplit, hlen, hcount⟩ := givenRect_split_access hk
    have hstream : 2 * (pre.length + 1) ≤ s.stream.length := by
      rw [hlen]
      exact (dataTaken_le hk).trans hd
    rw [hsplit, ← Nat.div_add_mod k 3, ← hcount,
      Prog.upTo_dataSlots_stream _ (Nat.mod_lt _ (by omega)) (s := beginOp s) hstream, hcount,
      Nat.div_add_mod, hlen]
    rfl
  | _ => exact hnone rfl

/-- Settles O28: the accesses before the reset change memory, streams and the order alone, and the reset loads memory and empties the responses. -/
theorem resetAbandonsOperationInProgress : Obligations.ResetAbandonsOperationInProgress := by
  intro i s k rest hk hd hs
  obtain ⟨P, hP⟩ := exists_opProg (Nat.ne_zero_of_lt hk)
  obtain ⟨-, -, -, -, hacc, -⟩ := Prog.upTo_makes (opProg_makes hP) hk.le (s := beginOp s)
    (pairCount_le_of_dataReady hd)
  have hu : Undisturbed k (beginOp s) := fun e hm => by
    rw [show (beginOp s).sched = _ from hs, List.take_left' (by simp)] at hm
    exact List.eq_of_mem_replicate hm
  have hsched : (beginOp s).sched.drop k = .reset :: rest := by
    rw [show (beginOp s).sched = _ from hs, List.drop_left' (by simp)]
  have hstop : isRunning (resetEvent { (P.upTo k (beginOp s)).2 with sched := rest }) = false := rfl
  rw [exec_opProg hP, Prog.run_upTo (opProg_makes hP) hk.le (s := beginOp s)
    (pairCount_le_of_dataReady hd) rfl hu, takeTurns, Prog.upTo_sched, hsched,
    Prog.run_of_reset (hacc hk) ((Prog.isRunning_upTo _ _ _).trans rfl),
    finishOp_of_not_running hstop, ← opProg_stream hP hd hk, Prog.upTo_frame]
  rfl

end Sys2Proof.Machine
end

section
/-! PROOFS. An operation as its plain reads and writes with the events in front of one access, or with none (20_memory.md R74). -/

namespace Sys2Proof.Machine

open Sys2Proof

theorem deliver_stream_prefix (e : Turn) (s : State) : s.stream <+: (deliver e s).stream := by
  cases e with
  | tick => rw [deliver, tickOp_stream]
  | offer b => exact List.prefix_append _ _
  | _ => exact List.prefix_rfl

/-- The events take no byte from the stream (10_state.md R48). -/
theorem deliverAll_stream_prefix (evs : List Turn) (s : State) :
    s.stream <+: (deliverAll evs s).stream := by
  induction evs generalizing s with
  | nil => exact List.prefix_rfl
  | cons e evs ih => exact (deliver_stream_prefix e s).trans (ih (deliver e s))

/-- Of an operation's `n` accesses, `k` are done when `evs` come and no other event falls among them; or no event falls among them at all. -/
def Meets (n k : Nat) (evs tl : List Turn) (s : State) : Prop :=
  eventsAt n k evs tl s ∨ (k = n ∧ evs = [] ∧ Undisturbed n s ∧ tl = s.sched.drop n)

theorem Meets.le {n k : Nat} {evs tl : List Turn} {s : State} (h : Meets n k evs tl s) : k ≤ n := by
  rcases h with h | h
  · exact h.1.le
  · exact h.1.le

theorem Meets.of_undisturbed {n : Nat} {s : State} (h : Undisturbed n s) :
    Meets n n [] (s.sched.drop n) s := .inr ⟨rfl, rfl, h, rfl⟩

/-- The operation has begun, and these turns are to come. -/
def begun (s : State) (tl : List Turn) : State := { s with port := .running, sched := tl }

/-- The operation is over, and these turns are to come. -/
def ended (tl : List Turn) (s : State) : State := { s with port := .idle, sched := tl }

theorem memRead_begun (s : State) (tl : List Turn) (a : Nat) : memRead (begun s tl) a = memRead s a := rfl

namespace Prog

/-- The state the events find. -/
def before (P : Prog) (k : Nat) (tl : List Turn) (s : State) : State := (P.upTo k (begun s tl)).2

/-- What is left of the operation then. -/
def residue (P : Prog) (k : Nat) (tl : List Turn) (s : State) : Prog := (P.upTo k (begun s tl)).1

/-- The state the events leave. -/
def later (P : Prog) (k : Nat) (evs tl : List Turn) (s : State) : State :=
  deliverAll evs (P.before k tl s)

/-- The state at the end of the accesses. -/
def final (P : Prog) (n k : Nat) (evs tl : List Turn) (s : State) : State :=
  ((P.residue k tl s).upTo (n - k) (P.later k evs tl s)).2

theorem run_of_meets {P : Prog} {n d k : Nat} (h : P.Makes n d) {evs tl : List Turn} {s : State}
    (hd : 2 * d ≤ s.stream.length) (hm : Meets n k evs tl s) :
    P.run (beginOp s) = takeTurns (n - k) (P.final n k evs tl s)
      ∧ isRunning (P.final n k evs tl s) = true ∧ (P.final n k evs tl s).sched = tl := by
  have hk := hm.le
  obtain ⟨e, hed, hres, hstream, -, hdone⟩ := upTo_makes h hk (s := begun s tl) hd
  have hrun : isRunning (P.later k evs tl s) = true := by
    rcases hm with hev | ⟨-, rfl, -, -⟩
    · rw [later, deliverAll_running fun e he => (hev.2.2.1 e he).2, before, isRunning_upTo]
      rfl
    · exact (isRunning_upTo _ _ _).trans rfl
  have hsched : (P.later k evs tl s).sched = tl := by
    rw [later, deliverAll_sched, before, upTo_sched]
    rfl
  refine ⟨?_, (isRunning_upTo _ _ _).trans hrun, (upTo_sched _ _ _).trans hsched⟩
  rcases hm with hev | ⟨rfl, rfl, hu, rfl⟩
  · rw [run_eventsAt h (s := beginOp s) hd rfl hev]
    have hpre := (deliverAll_stream_prefix evs (P.before k tl s)).length_le
    rw [before, hstream, List.length_drop] at hpre
    have hlen : (begun s tl).stream.length = s.stream.length := rfl
    exact run_undisturbed hres (s := P.later k evs tl s) (by rw [later, before]; omega) hrun
      fun t ht => hev.2.2.2 t (by rwa [← hsched])
  · rw [run_undisturbed h (s := beginOp s) hd rfl hu, final, residue, later, before, hdone rfl,
      Nat.sub_self]
    have hw := upTo_withSched P k (beginOp s) (s.sched.drop k)
    rw [takeTurns, upTo_sched]
    exact (congrArg Prod.snd hw).symm

/-- After the operation the port is idle, and the turns of the accesses are gone. -/
theorem exec_of_meets {i : Instr} {s : State} {P : Prog} (hP : opProg s i = some P)
    (hd : dataReady s i) {k : Nat} {evs tl : List Turn}
    (hm : Meets (accessCount s.cfg i) k evs tl s) :
    exec i s = .next (ended (tl.drop (accessCount s.cfg i - k))
      (P.final (accessCount s.cfg i) k evs tl s)) := by
  obtain ⟨hr, hrun, hsched⟩ := run_of_meets (opProg_makes hP) (pairCount_le_of_dataReady hd) hm
  rw [exec_opProg hP, hr, finishOp_of_running (by exact hrun), takeTurns, hsched, ended]

end Prog

end Sys2Proof.Machine
end

section
/-! PROOFS. GETPX and RDRECT, undisturbed and with events between two accesses (41_pixel_and_rect.md R144, R145). -/

namespace Sys2Proof.Machine

open Sys2Proof

theorem emit_nil (s : State) : emit [] s = s := by rw [emit, List.append_nil]

theorem emit_emit (bs bs' : List Byte) (s : State) : emit bs' (emit bs s) = emit (bs ++ bs') s := by
  rw [emit, emit, emit, List.append_assoc]

namespace Prog

/-- It reads and answers, and neither writes nor takes data. -/
def ReadOnly : Prog → Prop
  | .done => True
  | .read _ next => ∀ b, (next b).ReadOnly
  | .write _ _ _ => False
  | .emit _ next => next.ReadOnly
  | .data _ _ _ => False

/-- The bytes the operation answers from its access `t` on, where access `j` reads `ρ j a` at address `a`. -/
def reply (ρ : Nat → Nat → Byte) : Prog → Nat → List Byte
  | .done, _ => []
  | .read a next, t => (next (ρ t a)).reply ρ (t + 1)
  | .write _ _ next, t => next.reply ρ (t + 1)
  | .emit bs next, t => bs ++ next.reply ρ t
  | .data _ _ _, _ => []

/-- Up to an access a reading operation has answered a first part of its reply and changed nothing else. -/
theorem upTo_readOnly {P : Prog} (hP : P.ReadOnly) {ρ : Nat → Nat → Byte} {k t : Nat} {s : State}
    (hρ : ∀ j < t + k, t ≤ j → ρ j = memRead s) :
    ∃ bs, (P.upTo k s).2 = Machine.emit bs s ∧ (P.upTo k s).1.ReadOnly
      ∧ P.reply ρ t = bs ++ (P.upTo k s).1.reply ρ (t + k) := by
  induction P generalizing k t s with
  | done => exact ⟨[], (emit_nil s).symm, trivial, rfl⟩
  | read a next ih =>
    cases k with
    | zero => exact ⟨[], (emit_nil s).symm, hP, rfl⟩
    | succ k =>
      obtain ⟨bs, hs, hro, hrep⟩ := ih (memRead s a) (hP _) (k := k) (t := t + 1) (s := s)
        fun j hj hj' => hρ j (by omega) (by omega)
      refine ⟨bs, hs, hro, ?_⟩
      rw [reply, hρ t (by omega) le_rfl, hrep, Nat.add_right_comm]
      rfl
  | write a x next ih => exact hP.elim
  | emit bs next ih =>
    obtain ⟨bs', hs, hro, hrep⟩ := ih hP (k := k) (t := t) (s := Machine.emit bs s) hρ
    refine ⟨bs ++ bs', hs.trans (emit_emit bs bs' s), hro, ?_⟩
    rw [reply, hrep, List.append_assoc]
    rfl
  | data buf todo next ih => exact hP.elim

/-- What access `j` reads: from the state before the events below `k`, from the state after them from `k` on. -/
def readAround (k : Nat) (s w : State) (j a : Nat) : Byte := memRead (if j < k then s else w) a

/-- A reading operation with events in front of an access: the first part of its reply stands in front of the events, the rest behind them. -/
theorem final_of_readOnly {P : Prog} (hP : P.ReadOnly) {n k : Nat} (hn : P.Makes n 0) (hk : k ≤ n)
    (evs tl : List Turn) (s : State) :
    ∃ bs bs', P.before k tl s = Machine.emit bs (begun s tl)
      ∧ P.reply (readAround k s (P.later k evs tl s)) 0 = bs ++ bs'
      ∧ P.final n k evs tl s = Machine.emit bs' (P.later k evs tl s) := by
  obtain ⟨bs, hb, hro, hrep⟩ := upTo_readOnly hP (ρ := readAround k s (P.later k evs tl s)) (k := k)
    (t := 0) (s := begun s tl) fun j hj _ => funext fun a => by
      rw [readAround, if_pos (by omega), memRead_begun]
  obtain ⟨bs', hb', -, hrep'⟩ := upTo_readOnly hro (ρ := readAround k s (P.later k evs tl s))
    (k := n - k) (t := 0 + k) (s := P.later k evs tl s) fun j _ hj => funext fun a => by
      rw [readAround, if_neg (by omega)]
  obtain ⟨e, he, hres, -⟩ := upTo_makes hn hk (s := begun s tl) (Nat.zero_le _)
  obtain ⟨-, -, -, -, -, hdone⟩ := upTo_makes hres le_rfl (s := P.later k evs tl s) (by omega)
  rw [hdone rfl, reply, List.append_nil] at hrep'
  exact ⟨bs, bs', hb, by rw [hrep, hrep'], hb'⟩

theorem readOnly_readBlock {c : Config} {buf : Bool} {pos : Pos} {next : Planes → Prog}
    (h : ∀ p, (next p).ReadOnly) : (readBlock c buf pos next).ReadOnly := fun _ _ _ => h _

theorem readOnly_readSlots (c : Config) (buf : Bool) (slots : List Slot) :
    (readSlots c buf slots).ReadOnly := by
  induction slots with
  | nil => trivial
  | cons slot rest ih =>
    cases slot with
    | none => exact ih
    | some pos => exact readOnly_readBlock fun _ => ih

/-! ## The replies -/

/-- The plane bytes of a block read by the accesses from `t` on. -/
def planesRead (ρ : Nat → Nat → Byte) (c : Config) (buf : Bool) (t bc y : Nat) : Planes :=
  ⟨ρ t (addr c buf 0 y bc), ρ (t + 1) (addr c buf 1 y bc), ρ (t + 2) (addr c buf 2 y bc)⟩

theorem reply_readSlots_append (ρ : Nat → Nat → Byte) (c : Config) (buf : Bool) (l l' : List Slot)
    (t : Nat) :
    (readSlots c buf (l ++ l')).reply ρ t
      = (readSlots c buf l).reply ρ t ++ (readSlots c buf l').reply ρ (t + 3 * countSome l) := by
  induction l generalizing t with
  | nil => rfl
  | cons slot l ih =>
    cases slot with
    | none =>
      rw [countSome_none]
      exact congrArg ([0, 0] ++ ·) (ih t)
    | some pos =>
      rw [countSome_some, show t + 3 * (countSome l + 1) = t + 3 + 3 * countSome l by omega]
      exact congrArg (blockResponse (planesRead ρ c buf t pos.1 pos.2) ++ ·) (ih (t + 3))

/-- What one block of a rectangle as given answers (R145). -/
def slotResponse (c : Config) (bx y : Nat) (f : Nat → Nat → Planes) (q r : Nat) : List Byte :=
  if bx + q < c.wb ∧ y + r < c.h then [(decodeBlock (f q r)).low, (decodeBlock (f q r)).high]
  else [0, 0]

theorem responseBytes_eq (c : Config) (bx y bw h : Nat) (f : Nat → Nat → Planes) :
    responseBytes c bx y bw h f
      = (List.range h).flatMap fun r => (List.range bw).flatMap fun q => slotResponse c bx y f q r :=
  rfl

theorem length_responseBytes (c : Config) (bx y bw h : Nat) (f : Nat → Nat → Planes) :
    (responseBytes c bx y bw h f).length = 2 * bw * h := by
  have hslot : ∀ q r, (slotResponse c bx y f q r).length = 2 := fun q r => by
    unfold slotResponse
    split <;> rfl
  simp [responseBytes_eq, List.length_flatMap, hslot]
  ring

section
variable {ρ : Nat → Nat → Byte} {c : Config} {buf : Bool} {bx y bw h : Nat}

/-- The block reads of RDRECT, by column and row (R145, R149). -/
def planesOf (ρ : Nat → Nat → Byte) (c : Config) (buf : Bool) (bx y bw q r : Nat) : Planes :=
  planesRead ρ c buf (3 * (r * clipWidth c bx bw + q)) (bx + q) (y + r)

theorem reply_slot {q r t : Nat} (hq : q < bw) (hr : r < h)
    (ht : q < clipWidth c bx bw → r < clipHeight c y h → t = 3 * (r * clipWidth c bx bw + q)) :
    (readSlots c buf [slotAt c bx y bw h (q, r)]).reply ρ t
      = slotResponse c bx y (planesOf ρ c buf bx y bw) q r := by
  by_cases hin : r < clipHeight c y h ∧ q < clipWidth c bx bw
  · have hin' : bx + q < c.wb ∧ y + r < c.h :=
      ⟨(lt_clipWidth_iff.mp hin.2).2, (lt_clipHeight_iff.mp hin.1).2⟩
    rw [slotAt, if_pos hin, slotResponse, if_pos hin', ht hin.2 hin.1]
    rfl
  · have hin' : ¬ (bx + q < c.wb ∧ y + r < c.h) := fun hc =>
      hin ⟨lt_clipHeight_iff.mpr ⟨hr, hc.2⟩, lt_clipWidth_iff.mpr ⟨hq, hc.1⟩⟩
    rw [slotAt, if_neg hin, slotResponse, if_neg hin']
    rfl

theorem reply_row {r t : Nat} (q : Nat) (hq : q ≤ bw) (hr : r < h)
    (ht : r < clipHeight c y h → t = 3 * (r * clipWidth c bx bw)) :
    (readSlots c buf ((offsetRow q r).map (slotAt c bx y bw h))).reply ρ t
      = (List.range q).flatMap fun q => slotResponse c bx y (planesOf ρ c buf bx y bw) q r := by
  induction q with
  | zero => rfl
  | succ q ih =>
    have hrow : offsetRow (q + 1) r = offsetRow q r ++ [(q, r)] := offsetRow_add q 1 r
    rw [hrow, List.map_append, reply_readSlots_append, ih (by omega), List.range_succ,
      List.flatMap_append, countSome_row, List.map_singleton, reply_slot (by omega) hr]
    · simp
    · intro hq' hr'
      rw [if_pos hr', ht hr', Nat.min_eq_left hq'.le]
      omega

/-- The reply of RDRECT, row by row (R145, R149). -/
theorem reply_givenRect :
    (readSlots c buf (givenRect c bx y bw h)).reply ρ 0
      = responseBytes c bx y bw h (planesOf ρ c buf bx y bw) := by
  have hrows : ∀ r ≤ h, (readSlots c buf ((offsets bw r).map (slotAt c bx y bw h))).reply ρ 0
      = (List.range r).flatMap fun r => (List.range bw).flatMap fun q =>
          slotResponse c bx y (planesOf ρ c buf bx y bw) q r := fun r hr => by
    induction r with
    | zero => rfl
    | succ r ih =>
      rw [offsets_succ, List.map_append, reply_readSlots_append, ih (by omega), List.range_succ,
        List.flatMap_append, countSome_rows, reply_row bw le_rfl (by omega)]
      · simp
      · intro hr'
        rw [Nat.min_eq_left hr'.le, Nat.zero_add]
  rw [givenRect_eq, responseBytes_eq]
  exact hrows h le_rfl

end

/-- In front of an access of a block, RDRECT has answered the blocks before it (R145, R149). -/
theorem upTo_readSlots_resp {c : Config} (buf : Bool) {pre post : List Slot} {pos : Pos} {p : Nat}
    (hp : p < 3) (s : State) :
    ((readSlots c buf (pre ++ some pos :: post)).upTo (3 * countSome pre + p) s).2.resp.length
      = s.resp.length + 2 * pre.length := by
  induction pre generalizing s with
  | nil =>
    match p, hp with
    | 0, _ => rfl
    | 1, _ => rfl
    | 2, _ => rfl
  | cons slot pre ih =>
    rw [List.length_cons, show s.resp.length + 2 * (pre.length + 1) = s.resp.length + 2 + 2 * pre.length
      by omega]
    cases slot with
    | none =>
      rw [countSome_none]
      exact (ih (Machine.emit [0, 0] s)).trans (by simp [Machine.emit])
    | some pos' =>
      rw [countSome_some, show 3 * (countSome pre + 1) + p = 3 * countSome pre + p + 1 + 1 + 1 by omega]
      exact (ih (Machine.emit (blockResponse ⟨memRead s _, memRead s _, memRead s _⟩) s)).trans
        (by simp [Machine.emit, blockResponse])

theorem readOnly_getpx (c : Config) (buf : Bool) (x y : Byte) : (getpx c buf x y).ReadOnly :=
  readOnly_readBlock fun _ => trivial

end Prog

/-- Where the events left memory as it was, the planes are read as they are. -/
theorem planesAround_same {s w : State} (h : ∀ a, memRead w a = memRead s a) (k j : Nat) (buf : Bool)
    (bc y : Nat) : planesAround k j s w buf bc y = planesAt s buf bc y := by
  have hread : ∀ (b : Prop) [Decidable b] (a : Nat), memRead (if b then s else w) a = memRead s a :=
    fun b _ a => by split <;> simp [h]
  simp only [planesAround, planesAt, hread]

/-- GETPX in range, undisturbed or with events in front of an access (R144). -/
theorem exec_getpx_of_meets {t : Target} {x y : Byte} {s : State} {k : Nat} {evs tl : List Turn}
    (hx : x.toNat < s.cfg.w) (hy : y.toNat < s.cfg.h) (hm : Meets 3 k evs tl s) :
    ∃ bs bs', bs ++ bs' = [laneValue (decodeBlock
          (planesAround k 0 s (deliverAll evs (emit bs (begun s tl))) (phys t s) (x.toNat / 8) y.toNat))
          (x.toNat % 8)]
      ∧ (k < 3 → bs = [])
      ∧ exec (.getpx t x y) s = .next (ended (tl.drop (3 - k))
          (emit bs' (deliverAll evs (emit bs (begun s tl))))) := by
  have hin : pixelInRange s.cfg x y = true := pixelInRange_iff.mpr ⟨hx, hy⟩
  have hP : opProg s (.getpx t x y) = some (.getpx s.cfg (phys t s) x y) := if_pos hin
  have hn : accessCount s.cfg (.getpx t x y) = 3 := if_pos hin
  have hmakes := opProg_makes hP
  have he := Prog.exec_of_meets (evs := evs) (tl := tl) (k := k) hP trivial (by rwa [hn])
  rw [hn] at hmakes he
  obtain ⟨bs, bs', hb, hrep, hf⟩ := Prog.final_of_readOnly
    (P := .getpx s.cfg (phys t s) x y) (Prog.readOnly_getpx _ _ _ _) hmakes hm.le evs tl s
  rw [Prog.later, hb] at hrep hf
  rw [hf] at he
  refine ⟨bs, bs', hrep.symm, fun hk => ?_, he⟩
  have hlen := congrArg (fun u : State => u.resp.length) hb
  have hnone : (Prog.before (.getpx s.cfg (phys t s) x y) k tl s).resp = s.resp := by
    match k, hk with
    | 0, _ => rfl
    | 1, _ => rfl
    | 2, _ => rfl
  rw [hnone] at hlen
  simpa [emit, begun] using hlen

/-- RDRECT, undisturbed or with events in front of an access (R145). -/
theorem exec_rdrect_of_meets {t : Target} {bx y bw h : Byte} {s : State} {k : Nat} {evs tl : List Turn}
    (hm : Meets (accessCount s.cfg (.rdrect t bx y bw h)) k evs tl s) :
    ∃ bs bs', bs ++ bs' = responseBytes s.cfg bx.toNat y.toNat bw.toNat h.toNat (fun q r =>
          planesAround k (3 * (r * clipWidth s.cfg bx.toNat bw.toNat + q)) s
            (deliverAll evs (emit bs (begun s tl))) (phys t s) (bx.toNat + q) (y.toNat + r))
      ∧ (k < accessCount s.cfg (.rdrect t bx y bw h) →
          bs.length = 2 * blocksBefore (clipWidth s.cfg bx.toNat bw.toNat) bw.toNat k)
      ∧ exec (.rdrect t bx y bw h) s = .next
          (ended (tl.drop (accessCount s.cfg (.rdrect t bx y bw h) - k))
            (emit bs' (deliverAll evs (emit bs (begun s tl))))) := by
  have hP : opProg s (.rdrect t bx y bw h) = some (.readSlots s.cfg (phys t s)
    (givenRect s.cfg bx.toNat y.toNat bw.toNat h.toNat)) := rfl
  have he := Prog.exec_of_meets hP trivial hm
  obtain ⟨bs, bs', hb, hrep, hf⟩ := Prog.final_of_readOnly (Prog.readOnly_readSlots ..)
    (opProg_makes hP) hm.le evs tl s
  rw [Prog.later, hb] at hrep hf
  rw [hf] at he
  refine ⟨bs, bs', hrep.symm.trans Prog.reply_givenRect, fun hk => ?_, he⟩
  obtain ⟨pre, post, pos, hsplit, hlen, hcount⟩ := givenRect_split_access hk
  have hresp := Prog.upTo_readSlots_resp (c := s.cfg) (phys t s) (pre := pre) (post := post) (pos := pos)
    (Nat.mod_lt k (by omega)) (begun s tl)
  rw [hcount, Nat.div_add_mod, ← hsplit] at hresp
  have hl : (Prog.before (.readSlots s.cfg (phys t s)
      (givenRect s.cfg bx.toNat y.toNat bw.toNat h.toNat)) k tl s).resp.length
        = s.resp.length + bs.length := by
    rw [hb]
    exact List.length_append
  rw [Prog.before, hresp, hlen] at hl
  exact (Nat.add_left_cancel hl).symm

/-- Settles O57: the reads below `k` see the state before the events, the others the state after them. -/
theorem readsMeetEventsBetweenAccesses : Obligations.ReadsMeetEventsBetweenAccesses := by
  refine ⟨fun t x y s k evs tl hx hy hev => ?_, fun t bx y bw h s k evs tl hev => ?_⟩
  · obtain ⟨bs, bs', hb, hnil, he⟩ := exec_getpx_of_meets (t := t) hx hy (.inl hev)
    obtain rfl := hnil hev.1
    rw [emit_nil] at hb he
    rw [List.nil_append] at hb
    subst hb
    exact ⟨_, rfl, he⟩
  · obtain ⟨bs, bs', hb, hlen, he⟩ := exec_rdrect_of_meets (.inl hev)
    have htake := List.take_left' (l₂ := bs') (hlen hev.1)
    have hdrop := List.drop_left' (l₂ := bs') (hlen hev.1)
    rw [hb] at htake hdrop
    refine ⟨deliverAll evs (emit bs (begun s tl)), _, _, _, rfl, rfl, rfl, ?_, ?_⟩
    · rw [htake]
      rfl
    · rw [hdrop]
      exact he

theorem laneByte (b1 b : Bool) :
    2 * flagByte b1 + flagByte b = BitVec.ofNat 8 (2 * b1.toNat + b.toNat) := by
  cases b1 <;> cases b <;> rfl

/-- Settles O20: the three reads and the answer. -/
theorem getpxAnswersPixelValue : Obligations.GetpxAnswersPixelValue := by
  intro t x y s hx hy hu
  obtain ⟨bs, bs', hb, -, he⟩ := exec_getpx_of_meets (t := t) hx hy (.of_undisturbed hu)
  refine ⟨_, _, _, rfl, rfl, rfl, he.trans (congrArg Host.Outcome.next ?_)⟩
  rw [planesAround_same (by intro a; rfl), laneValue_decodeBlock, laneByte] at hb
  rw [deliverAll, List.foldl_nil, emit_emit, hb]
  rfl

/-- Settles O22: block by block, row by row. -/
theorem rdrectAnswersEveryBlock : Obligations.RdrectAnswersEveryBlock := by
  intro t bx y bw h s hu
  obtain ⟨bs, bs', hb, -, he⟩ := exec_rdrect_of_meets (.of_undisturbed hu)
  refine ⟨_, rfl, ?_, he.trans (congrArg Host.Outcome.next ?_)⟩
  · exact Prog.length_responseBytes s.cfg bx.toNat y.toNat bw.toNat h.toNat fun q r =>
      planesAt s (phys t s) (bx.toNat + q) (y.toNat + r)
  · simp only [planesAround_same (show ∀ a, memRead (deliverAll [] (emit bs (begun s _))) a = memRead s a
      from fun _ => rfl)] at hb
    rw [deliverAll, List.foldl_nil, emit_emit, hb, Nat.sub_self]
    rfl

end Sys2Proof.Machine
end

section
/-! PROOFS. What a writing operation leaves in memory, as a log of its writes: which access wrote which byte where, undisturbed and with events in front of an access (20_memory.md R69, R74). -/

namespace Sys2Proof.Machine

open Sys2Proof

namespace Prog

/-- One write of an operation: the number of its access, its address and its byte. -/
structure Entry where
  access : Nat
  addr : Nat
  value : Byte

/-- The writes of an operation from its access `t` on, where access `j` reads `ρ j a` at address `a` and the stream is `l`. -/
def log (ρ : Nat → Nat → Byte) : Prog → Nat → List Byte → List Entry
  | .done, _, _ => []
  | .read a next, t, l => (next (ρ t a)).log ρ (t + 1) l
  | .write a x next, t, l => ⟨t, a, x⟩ :: next.log ρ (t + 1) l
  | .emit _ next, t, l => next.log ρ t l
  | .data _ _ next, t, l =>
    match l with
    | low :: high :: more => (next ⟨low, high⟩).log ρ t more
    | _ => []

theorem log_data_cons {ρ : Nat → Nat → Byte} {buf : Bool} {todo : List Slot} {next : Gray → Prog} {t : Nat}
    (low high : Byte) (more : List Byte) :
    (Prog.data buf todo next).log ρ t (low :: high :: more) = (next ⟨low, high⟩).log ρ t more := rfl

/-- It answers nothing, and accesses no address of `W` and none it has written before; what it writes lies in memory. -/
def Writes (c : Config) : Prog → List Nat → Prop
  | .done, _ => True
  | .read a next, W => a ∉ W ∧ ∀ b, (next b).Writes c W
  | .write a _ next, W => a ∉ W ∧ a < c.fbLen ∧ next.Writes c (a :: W)
  | .emit _ _, _ => False
  | .data _ _ next, W => ∀ g, (next g).Writes c W

theorem Writes.anti {c : Config} {P : Prog} {W W' : List Nat} (h : P.Writes c W)
    (hW : ∀ a ∈ W', a ∈ W) : P.Writes c W' := by
  induction P generalizing W W' with
  | done => trivial
  | read a next ih => exact ⟨fun ha => h.1 (hW a ha), fun b => ih b (h.2 b) hW⟩
  | write a x next ih =>
    exact ⟨fun ha => h.1 (hW a ha), h.2.1, ih h.2.2 (List.cons_subset_cons a hW)⟩
  | emit bs next ih => exact h.elim
  | data buf todo next ih => exact fun g => ih g (h g) hW

variable {c : Config} {ρ : Nat → Nat → Byte}

/-- No write goes to an address of `W`, and none comes before access `t`. -/
theorem log_mem {P : Prog} {W : List Nat} (h : P.Writes c W) {t : Nat} {l : List Byte} :
    ∀ e ∈ P.log ρ t l, t ≤ e.access ∧ e.addr ∉ W := by
  induction P generalizing W t l with
  | done => exact fun e he => absurd he List.not_mem_nil
  | read a next ih =>
    exact fun e he => ⟨(Nat.le_succ t).trans (ih _ (h.2 _) e he).1, (ih _ (h.2 _) e he).2⟩
  | write a x next ih =>
    intro e he
    rcases List.mem_cons.1 he with rfl | he
    · exact ⟨le_rfl, h.1⟩
    · obtain ⟨ht, hW⟩ := ih h.2.2 e he
      exact ⟨(Nat.le_succ t).trans ht, fun hm => hW (List.mem_cons_of_mem a hm)⟩
  | emit bs next ih => exact h.elim
  | data buf todo next ih =>
    match l with
    | low :: high :: more => exact ih _ (h _)
    | [low] => exact fun e he => absurd he List.not_mem_nil
    | [] => exact fun e he => absurd he List.not_mem_nil

/-- Data the operation does not take makes no difference. -/
theorem log_prefix {P : Prog} {n d : Nat} (h : P.Makes n d) {t : Nat} {l l' : List Byte}
    (hd : 2 * d ≤ l.length) (hl : l <+: l') : P.log ρ t l = P.log ρ t l' := by
  induction h generalizing t l l' with
  | done => rfl
  | @read a next n d h ih => exact ih _ hd hl
  | @write a x next n d h ih => exact congrArg (⟨t, a, x⟩ :: ·) (ih hd hl)
  | @emit bs next n d h ih => exact ih hd hl
  | @data buf todo next n d h ih =>
    obtain ⟨low, high, more, rfl, hmore⟩ := exists_pair hd
    obtain ⟨rest, rfl⟩ := hl
    exact ih ⟨low, high⟩ hmore (List.prefix_append more rest)

/-- The first `k` accesses made the writes `l`: they stand in memory, the other addresses are as before, and the rest of the log and of the operation is to come. -/
structure Wrote (c : Config) (ρ : Nat → Nat → Byte) (P : Prog) (W : List Nat) (t k : Nat) (s : State)
    (l : List Entry) : Prop where
  log : P.log ρ t s.stream = l ++ (P.upTo k s).1.log ρ (t + k) (P.upTo k s).2.stream
  done : ∀ e ∈ l, e.access < t + k ∧ memRead (P.upTo k s).2 e.addr = e.value
  others : ∀ a ∉ l.map Entry.addr, memRead (P.upTo k s).2 a = memRead s a
  rest : (P.upTo k s).1.Writes c (l.map Entry.addr ++ W)
  wf : Mem.wf c (P.upTo k s).2.fb
  resp : (P.upTo k s).2.resp = s.resp

theorem upTo_wrote {P : Prog} {n d : Nat} (hn : P.Makes n d) {W : List Nat} (hP : P.Writes c W) {k t : Nat}
    (hk : k ≤ n) {s : State} (hd : 2 * d ≤ s.stream.length) (hc : s.cfg = c) (hm : Mem.wf c s.fb)
    (hρ : ∀ j < t + k, t ≤ j → ∀ a ∉ W, ρ j a = memRead s a) : ∃ l, Wrote c ρ P W t k s l := by
  induction hn generalizing W k t s with
  | done => exact ⟨[], rfl, by simp, fun _ _ => rfl, trivial, hm, rfl⟩
  | @read a next n d h ih =>
    cases k with
    | zero => exact ⟨[], rfl, by simp, fun _ _ => rfl, hP, hm, rfl⟩
    | succ k =>
      obtain ⟨l, h⟩ := ih (memRead s a) (hP.2 _) (k := k) (t := t + 1) (by omega) hd hc hm
        fun j hj hj' => hρ j (by omega) (by omega)
      have ht : t + 1 + k = t + (k + 1) := by omega
      refine ⟨l, ?_, ht ▸ h.done, h.others, h.rest, h.wf, h.resp⟩
      rw [Prog.log, hρ t (by omega) le_rfl a hP.1, h.log, ht]
      rfl
  | @write a x next n d h ih =>
    cases k with
    | zero => exact ⟨[], rfl, by simp, fun _ _ => rfl, hP, hm, rfl⟩
    | succ k =>
      obtain ⟨haW, ha, hnext⟩ := hP
      have hread : ∀ b, memRead (memWrite s a x) b = if b = a then x else memRead s b :=
        fun b => memRead_memWrite (hc ▸ hm) a b x
      have hwf : Mem.wf c (memWrite s a x).fb := by
        subst hc
        exact memWrite_wf hm ha x
      obtain ⟨l, h⟩ := ih hnext (k := k) (t := t + 1) (by omega) (s := memWrite s a x) hd hc hwf
        fun j hj hj' b hb => by
          obtain ⟨hne, hbW⟩ := List.ne_and_not_mem_of_not_mem_cons hb
          rw [hread, if_neg hne]
          exact hρ j (by omega) (by omega) b hbW
      have hnot : a ∉ l.map Entry.addr := fun hmem => by
        obtain ⟨e, he, rfl⟩ := List.mem_map.1 hmem
        have hlog : e ∈ next.log ρ (t + 1) s.stream := h.log ▸ List.mem_append_left _ he
        exact (log_mem hnext e hlog).2 List.mem_cons_self
      have ht : t + 1 + k = t + (k + 1) := by omega
      refine ⟨⟨t, a, x⟩ :: l, ?_, ?_, ?_, ?_, h.wf, h.resp⟩
      · have hlog := h.log
        rw [ht] at hlog
        exact congrArg (⟨t, a, x⟩ :: ·) hlog
      · intro e he
        rcases List.mem_cons.1 he with rfl | he
        · exact ⟨by dsimp only; omega, (h.others a hnot).trans (by rw [hread, if_pos rfl])⟩
        · exact ht ▸ h.done e he
      · intro b hb
        obtain ⟨hne, hbl⟩ := List.ne_and_not_mem_of_not_mem_cons hb
        exact (h.others b hbl).trans (by rw [hread, if_neg hne])
      · refine h.rest.anti fun b hb => ?_
        simp only [List.map_cons, List.cons_append, List.mem_cons, List.mem_append] at hb ⊢
        tauto
  | @emit bs next n d h ih => exact hP.elim
  | @data buf todo next n d h ih =>
    obtain ⟨low, high, more, hs, hmore⟩ := exists_pair hd
    obtain ⟨l, h⟩ := ih ⟨low, high⟩ (hP _) hk (s := { s with stream := more }) hmore hc hm hρ
    have hup := upTo_data_cons (buf := buf) (todo := todo) (next := next) (k := k) hs
    refine ⟨l, ?_, ?_, ?_, ?_, ?_, ?_⟩ <;> rw [hup]
    · rw [hs, log_data_cons]
      exact h.log
    · exact h.done
    · exact h.others
    · exact h.rest
    · exact h.wf
    · exact h.resp

theorem upTo_frame_of_resp {P : Prog} {k : Nat} {s : State} (h : (P.upTo k s).2.resp = s.resp) :
    (P.upTo k s).2 = { s with fb := (P.upTo k s).2.fb, stream := (P.upTo k s).2.stream } :=
  (upTo_frame P k s).trans (by rw [h])

/-- A writing operation with events in front of access `k`: a write below `k` stands when they come and they may write over it; a write from `k` on writes over what they leave. -/
structure WroteAround (P : Prog) (n k : Nat) (evs tl : List Turn) (s : State) : Prop where
  before : P.before k tl s = { begun s tl with
    fb := (P.before k tl s).fb, stream := (P.before k tl s).stream }
  final : P.final n k evs tl s = { P.later k evs tl s with
    fb := (P.final n k evs tl s).fb, stream := (P.final n k evs tl s).stream }
  written : ∀ e ∈ P.log (readAround k s (P.later k evs tl s)) 0 s.stream,
    memRead (P.before k tl s) e.addr = (if e.access < k then e.value else memRead s e.addr)
      ∧ memRead (P.final n k evs tl s) e.addr
        = if e.access < k then memRead (P.later k evs tl s) e.addr else e.value
  others : ∀ a, (∀ e ∈ P.log (readAround k s (P.later k evs tl s)) 0 s.stream, e.addr ≠ a) →
    memRead (P.before k tl s) a = memRead s a
      ∧ memRead (P.final n k evs tl s) a = memRead (P.later k evs tl s) a

/-- The writes before the events, `l`, and those after them, `l'`, which go to other addresses. -/
structure WroteTwice (ρ : Nat → Nat → Byte) (P : Prog) (n k : Nat) (evs tl : List Turn) (s : State)
    (l l' : List Entry) : Prop where
  first : Wrote s.cfg ρ P [] 0 k (begun s tl) l
  second : Wrote s.cfg ρ (P.residue k tl s) (l.map Entry.addr ++ []) (0 + k) (n - k) (P.later k evs tl s) l'
  log : P.log ρ 0 s.stream = l ++ l'
  new : ∀ e ∈ l', k ≤ e.access ∧ e.addr ∉ l.map Entry.addr

theorem exists_wroteTwice {P : Prog} {n d k : Nat} {s : State} (hn : P.Makes n d)
    (hP : P.Writes s.cfg []) (hk : k ≤ n) (hd : 2 * d ≤ s.stream.length) (hm : Mem.wf s.cfg s.fb)
    (evs tl : List Turn) (hρ : ρ = readAround k s (P.later k evs tl s)) :
    ∃ l l', WroteTwice ρ P n k evs tl s l l' := by
  have hframe := upTo_frame P k (begun s tl)
  obtain ⟨l, h⟩ := upTo_wrote (ρ := ρ) hn hP (t := 0) hk (s := begun s tl) hd rfl hm fun j hj _ a _ => by
    rw [hρ, readAround, if_pos (by omega), memRead_begun]
  obtain ⟨e, hed, hres, hstream, -⟩ := upTo_makes hn hk (s := begun s tl) hd
  have hmle : 2 * e ≤ (P.before k tl s).stream.length := by
    have hlen : (begun s tl).stream.length = s.stream.length := rfl
    rw [before, hstream, List.length_drop]
    omega
  have hpre : (P.before k tl s).stream <+: (P.later k evs tl s).stream := deliverAll_stream_prefix evs _
  have hcfg : (P.before k tl s).cfg = s.cfg := by rw [before, hframe]; rfl
  have hwle := hmle.trans hpre.length_le
  obtain ⟨l', h'⟩ := upTo_wrote (ρ := ρ) hres h.rest (t := 0 + k) le_rfl (s := P.later k evs tl s) hwle
    ((deliverAll_cfg evs _).trans hcfg) (by
      have hw := deliverAll_wf (s := P.before k tl s) (by rw [hcfg]; exact h.wf) evs
      rwa [hcfg] at hw) fun j _ hj a _ => by rw [hρ, readAround, if_neg (by omega)]
  obtain ⟨-, -, -, -, -, hdone⟩ := upTo_makes hres le_rfl hwle
  have hrest : (P.residue k tl s).log ρ (0 + k) (P.before k tl s).stream = l' := by
    rw [log_prefix (P := P.residue k tl s) hres hmle hpre]
    refine h'.log.trans ?_
    rw [hdone rfl]
    exact List.append_nil l'
  have hlog : P.log ρ 0 s.stream = l ++ l' := h.log.trans (congrArg (l ++ ·) hrest)
  have hnew : ∀ e ∈ l', k ≤ e.access ∧ e.addr ∉ l.map Entry.addr := fun e he => by
    have hmem := log_mem (ρ := ρ) h.rest (t := 0 + k) (l := (P.before k tl s).stream) e (by
      exact hrest ▸ he)
    exact ⟨by omega, fun hl => hmem.2 (List.mem_append_left _ hl)⟩
  exact ⟨l, l', h, h', hlog, hnew⟩

theorem wroteAround {P : Prog} {n d k : Nat} {s : State} (hn : P.Makes n d) (hP : P.Writes s.cfg [])
    (hk : k ≤ n) (hd : 2 * d ≤ s.stream.length) (hm : Mem.wf s.cfg s.fb) (evs tl : List Turn) :
    P.WroteAround n k evs tl s := by
  obtain ⟨ρ, hρ⟩ : ∃ ρ, ρ = readAround k s (P.later k evs tl s) := ⟨_, rfl⟩
  obtain ⟨l, l', h, h', hlog, hnew⟩ := exists_wroteTwice hn hP hk hd hm evs tl hρ
  refine ⟨?_, ?_, ?_, ?_⟩
  · exact upTo_frame_of_resp (h.resp)
  · exact upTo_frame_of_resp (h'.resp)
  · rw [← hρ, hlog]
    intro e he
    rcases List.mem_append.1 he with he | he
    · obtain ⟨hlt, hread⟩ := h.done e he
      rw [if_pos (by omega), if_pos (by omega)]
      refine ⟨hread, h'.others _ fun hl' => ?_⟩
      obtain ⟨e', he', hee⟩ := List.mem_map.1 hl'
      exact (hnew e' he').2 (hee ▸ List.mem_map_of_mem he)
    · obtain ⟨hge, hnot⟩ := hnew e he
      rw [if_neg (by omega), if_neg (by omega)]
      exact ⟨h.others _ hnot, (h'.done e he).2⟩
  · rw [← hρ, hlog]
    intro a ha
    refine ⟨h.others a fun hm => ?_, h'.others a fun hm => ?_⟩ <;>
      obtain ⟨e, he, hea⟩ := List.mem_map.1 hm
    · exact ha e (List.mem_append_left _ he) hea
    · exact ha e (List.mem_append_right _ he) hea

end Prog

end Sys2Proof.Machine
end

section
/-! PROOFS. The writes of the rectangle operations: to which address, by which access, with which byte (41_pixel_and_rect.md R142, R146 to R149). -/

namespace Sys2Proof.Machine

open Sys2Proof

/-! ## Where a block stands in the walk -/

theorem offsets_getElem? {w h q r : Nat} (hq : q < w) (hr : r < h) :
    (offsets w h)[r * w + q]? = some (q, r) := by
  obtain ⟨post, hs⟩ := offsets_split hq hr
  have hlen : (offsets w r ++ offsetRow q r).length = r * w + q := by
    simp [offsetRow, Nat.mul_comm]
  rw [hs, List.getElem?_append_right hlen.le, hlen, Nat.sub_self]
  rfl

/-- Of a list written out in triples, element `3*i + p` is element `p` of the `i`-th triple. -/
theorem getElem?_flatMap_triple {α β : Type} {f : α → List β} (hf : ∀ x, (f x).length = 3) {l : List α}
    {i p : Nat} {x : α} (hx : l[i]? = some x) (hp : p < 3) : (l.flatMap f)[3 * i + p]? = (f x)[p]? := by
  induction l generalizing i with
  | nil => simp at hx
  | cons y l ih =>
    rw [List.flatMap_cons]
    cases i with
    | zero =>
      obtain rfl : y = x := by simpa using hx
      exact (congrArg _ (by omega)).trans (List.getElem?_append_left (by rw [hf]; exact hp))
    | succ i =>
      rw [List.getElem?_append_right (by rw [hf]; omega), hf,
        show 3 * (i + 1) + p - 3 = 3 * i + p by omega]
      exact ih (by simpa using hx)

namespace Prog

variable {c : Config} {buf : Bool}

theorem length_blockAddrs (pos : Pos) : (blockAddrs c buf pos).length = 3 := rfl

theorem length_blockWrites (pos : Pos) (pl : Planes) : (blockWrites c buf pos pl).length = 3 := rfl

theorem blockAddrs_getElem? {pos : Pos} {p : Nat} (hp : p < 3) :
    (blockAddrs c buf pos)[p]? = some (addr c buf p pos.2 pos.1) := by
  match p, hp with
  | 0, _ => rfl
  | 1, _ => rfl
  | 2, _ => rfl

theorem blockWrites_getElem? {pos : Pos} {pl : Planes} {p : Nat} (hp : p < 3) :
    (blockWrites c buf pos pl)[p]? = some (addr c buf p pos.2 pos.1, pl.byte p) := by
  match p, hp with
  | 0, _ => rfl
  | 1, _ => rfl
  | 2, _ => rfl

theorem mem_blockAddrs {pos : Pos} {a : Nat} :
    a ∈ blockAddrs c buf pos ↔ ∃ p < 3, a = addr c buf p pos.2 pos.1 := by
  constructor
  · intro h
    obtain ⟨p, hp, ha⟩ := List.mem_iff_getElem.1 h
    have hp3 : p < 3 := hp
    refine ⟨p, hp3, ?_⟩
    have hs := blockAddrs_getElem? (c := c) (buf := buf) (pos := pos) hp3
    rw [List.getElem?_eq_getElem hp, ha] at hs
    exact Option.some.inj hs
  · rintro ⟨p, hp, rfl⟩
    exact List.mem_of_getElem? (blockAddrs_getElem? hp)

/-- The position lies in a buffer. -/
def InRange (c : Config) (pos : Pos) : Prop := pos.1 < c.wb ∧ pos.2 < c.h

theorem nodup_blockAddrs {pos : Pos} (h : InRange c pos) : (blockAddrs c buf pos).Nodup := by
  have hne : ∀ p p', p < 3 → p' < 3 → p ≠ p' → addr c buf p pos.2 pos.1 ≠ addr c buf p' pos.2 pos.1 :=
    fun p p' hp hp' hne he => hne (addr_inj c hp hp' h.2 h.2 h.1 h.1 he).2.1
  simp [blockAddrs, hne]

/-- Blocks at different positions share no address. -/
theorem eq_of_mem_blockAddrs {pos pos' : Pos} (h : InRange c pos) (h' : InRange c pos') {a : Nat}
    (ha : a ∈ blockAddrs c buf pos) (ha' : a ∈ blockAddrs c buf pos') : pos = pos' := by
  obtain ⟨p, hp, rfl⟩ := mem_blockAddrs.1 ha
  obtain ⟨p', hp', he⟩ := mem_blockAddrs.1 ha'
  obtain ⟨-, -, hy, hb⟩ := addr_inj c hp hp' h.2 h'.2 h.1 h'.1 he
  exact Prod.ext hb hy

theorem blockAddrs_lt {pos : Pos} (h : InRange c pos) : ∀ a ∈ blockAddrs c buf pos, a < c.fbLen :=
  fun a ha => by
    obtain ⟨p, hp, rfl⟩ := mem_blockAddrs.1 ha
    exact addr_lt_fbLen c buf hp h.2 h.1

/-- Distinct positions have distinct addresses (20_memory.md R63). -/
theorem nodup_flatMap_blockAddrs {l : List Pos} (hl : ∀ pos ∈ l, InRange c pos) (hn : l.Nodup) :
    (l.flatMap (blockAddrs c buf)).Nodup := by
  rw [List.nodup_flatMap]
  refine ⟨fun pos hp => nodup_blockAddrs (hl pos hp), hn.imp_of_mem fun h h' hne => ?_⟩
  exact fun a ha ha' => hne (eq_of_mem_blockAddrs (hl _ h) (hl _ h') ha ha')

theorem map_fst_blockWrites (pos : Pos) (pl : Planes) :
    (blockWrites c buf pos pl).map Prod.fst = blockAddrs c buf pos := rfl

/-! ## Byte writes in order -/

variable {ρ : Nat → Nat → Byte}

theorem writes_writeBytes {l : List (Nat × Byte)} {next : Prog} {W : List Nat}
    (hn : (l.map Prod.fst).Nodup) (ha : ∀ a ∈ l.map Prod.fst, a < c.fbLen ∧ a ∉ W)
    (h : next.Writes c (l.map Prod.fst ++ W)) : (writeBytes l next).Writes c W := by
  induction l generalizing W with
  | nil => exact h
  | cons x l ih =>
    rw [List.map_cons, List.nodup_cons] at hn
    refine ⟨(ha x.1 (by simp)).2, (ha x.1 (by simp)).1, ih hn.2 (fun a hm => ⟨(ha a (by simp [hm])).1,
      ?_⟩) (h.anti fun a hm => ?_)⟩
    · rw [List.mem_cons, not_or]
      exact ⟨fun he => hn.1 (he ▸ hm), (ha a (by simp [hm])).2⟩
    · simp only [List.map_cons, List.cons_append, List.mem_cons, List.mem_append] at hm ⊢
      tauto

theorem mem_log_writeBytes {l : List (Nat × Byte)} {next : Prog} {i t a : Nat} {x : Byte} {σ : List Byte}
    (h : l[i]? = some (a, x)) : ⟨t + i, a, x⟩ ∈ (writeBytes l next).log ρ t σ := by
  induction l generalizing i t with
  | nil => simp at h
  | cons y l ih =>
    cases i with
    | zero =>
      obtain rfl : y = (a, x) := by simpa using h
      exact List.mem_cons_self
    | succ i =>
      rw [show t + (i + 1) = t + 1 + i by omega]
      exact List.mem_cons_of_mem _ (ih (by simpa using h))

theorem log_writeBytes (l : List (Nat × Byte)) (next : Prog) (t : Nat) (σ : List Byte) :
    (writeBytes l next).log ρ t σ
      = (writeBytes l .done).log ρ t σ ++ next.log ρ (t + l.length) σ := by
  induction l generalizing t with
  | nil => rfl
  | cons x l ih =>
    rw [List.length_cons, Nat.add_comm l.length, ← Nat.add_assoc]
    exact congrArg (⟨t, x.1, x.2⟩ :: ·) (ih (t + 1))

theorem addr_of_mem_log_writeBytes {l : List (Nat × Byte)} {t : Nat} {σ : List Byte} {e : Entry}
    (h : e ∈ (writeBytes l .done).log ρ t σ) : e.addr ∈ l.map Prod.fst := by
  induction l generalizing t with
  | nil => exact absurd h List.not_mem_nil
  | cons x l ih =>
    rcases List.mem_cons.1 h with rfl | h
    · exact List.mem_cons_self
    · exact List.mem_cons_of_mem _ (ih h)

/-! ## FLRECT -/

theorem map_fst_fill (l : List Pos) (pl : Planes) :
    (l.flatMap fun pos => blockWrites c buf pos pl).map Prod.fst = l.flatMap (blockAddrs c buf) := by
  simp only [List.map_flatMap, map_fst_blockWrites]

theorem writes_fill {l : List Pos} (hl : ∀ pos ∈ l, InRange c pos) (hn : l.Nodup) (v : BitVec 2) :
    (fill c buf v l).Writes c [] := by
  refine writes_writeBytes ?_ (fun a ha => ⟨?_, List.not_mem_nil⟩) trivial
  · rw [map_fst_fill]
    exact nodup_flatMap_blockAddrs hl hn
  · rw [map_fst_fill] at ha
    obtain ⟨pos, hp, ha⟩ := List.mem_flatMap.1 ha
    exact blockAddrs_lt (hl pos hp) a ha

theorem mem_log_fill {l : List Pos} {i p : Nat} {pos : Pos} (h : l[i]? = some pos) (hp : p < 3)
    (v : BitVec 2) (σ : List Byte) :
    ⟨3 * i + p, addr c buf p pos.2 pos.1, (encodeBlock (splat v)).byte p⟩
      ∈ (fill c buf v l).log ρ 0 σ := by
  rw [show 3 * i + p = 0 + (3 * i + p) by omega]
  refine mem_log_writeBytes ?_
  rw [getElem?_flatMap_triple (fun pos => length_blockWrites pos _) h hp, blockWrites_getElem? hp]

theorem addr_of_mem_log_fill {l : List Pos} {v : BitVec 2} {σ : List Byte} {e : Entry}
    (h : e ∈ (fill c buf v l).log ρ 0 σ) : ∃ pos ∈ l, e.addr ∈ blockAddrs c buf pos := by
  have ha := addr_of_mem_log_writeBytes h
  rw [map_fst_fill] at ha
  exact List.mem_flatMap.1 ha

/-! ## WRRECT -/

theorem writes_dataSlots {slots : List Slot} {W : List Nat}
    (hl : ∀ pos ∈ slots.filterMap id, InRange c pos ∧ ∀ a ∈ blockAddrs c buf pos, a ∉ W)
    (hn : (slots.filterMap id).Nodup) : (dataSlots c buf slots).Writes c W := by
  induction slots generalizing W with
  | nil => trivial
  | cons slot rest ih =>
    intro g
    cases slot with
    | none => exact ih hl hn
    | some pos =>
      simp only [List.filterMap_cons_some (id_eq _), List.nodup_cons, List.forall_mem_cons] at hl hn
      obtain ⟨⟨hpos, hW⟩, hrest⟩ := hl
      refine writes_writeBytes (nodup_blockAddrs hpos)
        (fun a ha => ⟨blockAddrs_lt hpos a ha, hW a ha⟩)
        (ih (fun pos' hp' => ⟨(hrest pos' hp').1, fun a ha => ?_⟩) hn.2)
      rw [List.mem_append, not_or]
      refine ⟨fun ha' => hn.1 ?_, (hrest pos' hp').2 a ha⟩
      rwa [eq_of_mem_blockAddrs hpos (hrest pos' hp').1 ha' ha]

theorem addr_of_mem_log_dataSlots {slots : List Slot} {t : Nat} {σ : List Byte} {e : Entry}
    (h : e ∈ (dataSlots c buf slots).log ρ t σ) :
    ∃ pos, some pos ∈ slots ∧ e.addr ∈ blockAddrs c buf pos := by
  induction slots generalizing t σ with
  | nil => exact absurd h List.not_mem_nil
  | cons slot rest ih =>
    have hrest : ∀ {t σ}, e ∈ (dataSlots c buf rest).log ρ t σ →
        ∃ pos, some pos ∈ slot :: rest ∧ e.addr ∈ blockAddrs c buf pos := fun h => by
      obtain ⟨pos, hp, ha⟩ := ih h
      exact ⟨pos, List.mem_cons_of_mem _ hp, ha⟩
    match σ with
    | [] => exact absurd h List.not_mem_nil
    | [low] => exact absurd h List.not_mem_nil
    | low :: high :: more =>
      rw [dataSlots, log_data_cons] at h
      cases slot with
      | none => exact hrest h
      | some pos =>
        rw [writeSlotProg, log_writeBytes] at h
        rcases List.mem_append.1 h with h | h
        · exact ⟨pos, List.mem_cons_self, addr_of_mem_log_writeBytes h⟩
        · exact hrest h

theorem mem_log_dataSlots {pre post : List Slot} {pos : Pos} {p t : Nat} {σ : List Byte} {low high : Byte}
    (hp : p < 3) (hlow : σ[2 * pre.length]? = some low) (hhigh : σ[2 * pre.length + 1]? = some high) :
    ⟨t + 3 * countSome pre + p, addr c buf p pos.2 pos.1, (encodeBlock ⟨low, high⟩).byte p⟩
      ∈ (dataSlots c buf (pre ++ some pos :: post)).log ρ t σ := by
  induction pre generalizing t σ with
  | nil =>
    match σ with
    | [] => simp at hlow
    | [b] => simp at hhigh
    | b :: b' :: more =>
      obtain rfl : b = low := by simpa using hlow
      obtain rfl : b' = high := by simpa using hhigh
      exact mem_log_writeBytes (blockWrites_getElem? hp)
  | cons slot pre ih =>
    match σ with
    | [] => simp at hlow
    | [b] => simp [Nat.mul_add] at hlow
    | b :: b' :: more =>
      rw [List.length_cons, Nat.mul_add] at hlow hhigh
      rw [List.cons_append, dataSlots, log_data_cons]
      have hlow' : more[2 * pre.length]? = some low := hlow
      have hhigh' : more[2 * pre.length + 1]? = some high := hhigh
      cases slot with
      | none =>
        rw [countSome_none]
        exact ih hlow' hhigh'
      | some pos' =>
        rw [writeSlotProg, log_writeBytes, countSome_some, length_blockWrites,
          show t + 3 * (countSome pre + 1) + p = t + 3 + 3 * countSome pre + p by omega]
        exact List.mem_append_right _ (ih hlow' hhigh')

/-! ## CPRECT -/

/-- The bytes the reads at the addresses answer, from access `t` on. -/
def bytesRead (ρ : Nat → Nat → Byte) : List Nat → Nat → List Byte
  | [], _ => []
  | a :: as, t => ρ t a :: bytesRead ρ as (t + 1)

theorem bytesRead_getElem? {as : List Nat} {i a t : Nat} (h : as[i]? = some a) :
    (bytesRead ρ as t)[i]? = some (ρ (t + i) a) := by
  induction as generalizing i t with
  | nil => simp at h
  | cons b as ih =>
    cases i with
    | zero =>
      obtain rfl : b = a := by simpa using h
      rfl
    | succ i =>
      rw [show t + (i + 1) = t + 1 + i by omega]
      exact ih (by simpa using h)

theorem log_readBytes (as : List Nat) (next : List Byte → Prog) (t : Nat) (σ : List Byte) :
    (readBytes as next).log ρ t σ = (next (bytesRead ρ as t)).log ρ (t + as.length) σ := by
  induction as generalizing next t with
  | nil => rfl
  | cons a as ih =>
    rw [List.length_cons, Nat.add_comm as.length, ← Nat.add_assoc]
    exact ih (fun bs => next (ρ t a :: bs)) (t + 1)

theorem writes_readBytes {as : List Nat} {next : List Byte → Prog}
    (h : ∀ bs, bs.length = as.length → (next bs).Writes c []) : (readBytes as next).Writes c [] := by
  induction as generalizing next with
  | nil => exact h [] rfl
  | cons a as ih =>
    exact ⟨List.not_mem_nil, fun b => ih fun bs hb => h (b :: bs) (by simp [hb])⟩

theorem writes_copy {src dst : Bool} {from_ to_ : List Pos} (hl : ∀ pos ∈ to_, InRange c pos)
    (hn : to_.Nodup) (hlen : from_.length = to_.length) : (copy c src dst from_ to_).Writes c [] := by
  refine writes_readBytes fun bs hbs => ?_
  have hfst : ((to_.flatMap (blockAddrs c dst)).zip bs).map Prod.fst = to_.flatMap (blockAddrs c dst) := by
    rw [List.map_fst_zip]
    rw [hbs, length_flatMap_blockAddrs, length_flatMap_blockAddrs, hlen]
  refine writes_writeBytes ?_ (fun a ha => ⟨?_, List.not_mem_nil⟩) trivial
  · rw [hfst]
    exact nodup_flatMap_blockAddrs hl hn
  · rw [hfst] at ha
    obtain ⟨pos, hp, ha⟩ := List.mem_flatMap.1 ha
    exact blockAddrs_lt (hl pos hp) a ha

theorem mem_log_copy {src dst : Bool} {from_ to_ : List Pos} {i p : Nat} {pos pos' : Pos}
    (h : from_[i]? = some pos) (h' : to_[i]? = some pos') (hp : p < 3) (σ : List Byte) :
    ⟨3 * from_.length + (3 * i + p), addr c dst p pos'.2 pos'.1, ρ (3 * i + p) (addr c src p pos.2 pos.1)⟩
      ∈ (copy c src dst from_ to_).log ρ 0 σ := by
  rw [copy, log_readBytes, length_flatMap_blockAddrs, Nat.zero_add]
  refine mem_log_writeBytes (List.getElem?_zip_eq_some.2 ⟨?_, ?_⟩)
  · rw [getElem?_flatMap_triple length_blockAddrs h' hp, blockAddrs_getElem? hp]
  · rw [bytesRead_getElem? (a := addr c src p pos.2 pos.1), Nat.zero_add]
    rw [getElem?_flatMap_triple length_blockAddrs h hp, blockAddrs_getElem? hp]

theorem addr_of_mem_log_copy {src dst : Bool} {from_ to_ : List Pos} {σ : List Byte} {e : Entry}
    (h : e ∈ (copy c src dst from_ to_).log ρ 0 σ) : ∃ pos ∈ to_, e.addr ∈ blockAddrs c dst pos := by
  rw [copy, log_readBytes] at h
  obtain ⟨x, hx, hxe⟩ := List.mem_map.1 (addr_of_mem_log_writeBytes h)
  rw [← hxe]
  exact List.mem_flatMap.1 (List.of_mem_zip hx).1

end Prog

end Sys2Proof.Machine
end

section
/-! PROOFS. SETPX, FLRECT, WRRECT and CPRECT, undisturbed and with events in front of an access (41_pixel_and_rect.md R143, R146 to R148). -/

namespace Sys2Proof.Machine

open Sys2Proof

namespace Prog

theorem Makes.eq_zero_of_done {d : Nat} (h : Prog.done.Makes 0 d) : d = 0 := by cases h; rfl

/-- The data pairs are taken in front of the events and behind them, all in all. -/
theorem final_stream {P : Prog} {n d k : Nat} (h : P.Makes n d) (hk : k ≤ n) {s : State}
    (hd : 2 * d ≤ s.stream.length) (evs tl : List Turn) :
    ∃ e ≤ d, (P.before k tl s).stream = s.stream.drop (2 * (d - e))
      ∧ (P.final n k evs tl s).stream = (P.later k evs tl s).stream.drop (2 * e) := by
  obtain ⟨e, he, hres, hstream, -⟩ := upTo_makes h hk (s := begun s tl) hd
  have hlen : 2 * e ≤ (P.later k evs tl s).stream.length := by
    refine Nat.le_trans ?_ (deliverAll_stream_prefix evs (P.before k tl s)).length_le
    rw [before, hstream, List.length_drop]
    have hbegun : (begun s tl).stream.length = s.stream.length := rfl
    omega
  obtain ⟨e', -, hmakes, hfinal, -, hdone⟩ := upTo_makes hres le_rfl hlen
  rw [hdone rfl, Nat.sub_self] at hmakes
  rw [hmakes.eq_zero_of_done, Nat.sub_zero] at hfinal
  exact ⟨e, he, hstream, hfinal⟩

end Prog

/-- A writing operation with events in front of access `k`: `m` is the state they find, `taken` the data taken by then. -/
structure StoreAround (i : Instr) (P : Prog) (s : State) (k : Nat) (evs tl : List Turn) (taken : Nat)
    (m u : State) : Prop where
  exec : exec i s = .next u
  before : m = { s with
    fb := m.fb, port := .running, stream := s.stream.drop taken, sched := tl }
  final : u = { deliverAll evs m with
    fb := u.fb, port := .idle, stream := (deliverAll evs m).stream.drop (2 * pairCount i - taken),
    sched := tl.drop (accessCount s.cfg i - k) }
  taken_le : taken ≤ 2 * pairCount i
  taken_eq : k < accessCount s.cfg i → taken = dataTaken s.cfg k i
  written : ∀ e ∈ P.log (Prog.readAround k s (deliverAll evs m)) 0 s.stream,
    memRead m e.addr = (if e.access < k then e.value else memRead s e.addr)
      ∧ memRead u e.addr = if e.access < k then memRead (deliverAll evs m) e.addr else e.value
  others : ∀ a, (∀ e ∈ P.log (Prog.readAround k s (deliverAll evs m)) 0 s.stream, e.addr ≠ a) →
    memRead m a = memRead s a ∧ memRead u a = memRead (deliverAll evs m) a

theorem storeAround {i : Instr} {s : State} {P : Prog} (hP : opProg s i = some P)
    (hw : P.Writes s.cfg []) (hd : dataReady s i) (hwf : Mem.wf s.cfg s.fb) {k : Nat} {evs tl : List Turn}
    (h : Meets (accessCount s.cfg i) k evs tl s) :
    ∃ taken m u, StoreAround i P s k evs tl taken m u := by
  have hdl := pairCount_le_of_dataReady hd
  have hmakes := opProg_makes hP
  obtain ⟨e, he, hbefore, hfinal⟩ := Prog.final_stream hmakes h.le hdl evs tl
  have hW := Prog.wroteAround hmakes hw h.le hdl hwf evs tl
  refine ⟨2 * (pairCount i - e), P.before k tl s, _, Prog.exec_of_meets hP hd h, ?_, ?_, by omega,
    fun hk => ?_, hW.written, hW.others⟩
  · rw [← hbefore]
    exact hW.before
  · rw [show 2 * pairCount i - 2 * (pairCount i - e) = 2 * e by omega]
    refine (congrArg (ended _) hW.final).trans ?_
    rw [hfinal]
    rfl
  · have hstream := opProg_stream hP hd hk
    have hsched : (P.before k tl s).stream = (P.upTo k (beginOp s)).2.stream := by
      have hup := Prog.upTo_withSched P k (beginOp s) tl
      exact (congrArg (fun x => x.2.stream) hup).trans rfl
    rw [← hsched, hbefore] at hstream
    have hlen := congrArg List.length hstream
    have hle := dataTaken_le hk
    rw [List.length_drop, List.length_drop] at hlen
    omega

/-- A writing operation no event falls into; its access `j` reads `ρ j`. -/
structure Stored (i : Instr) (P : Prog) (s : State) (ρ : Nat → Nat → Byte) (u : State) : Prop where
  exec : exec i s = .next u
  final : u = { s with
    fb := u.fb, port := .idle, stream := s.stream.drop (2 * pairCount i),
    sched := s.sched.drop (accessCount s.cfg i) }
  reads : ∀ j < accessCount s.cfg i, ρ j = memRead s
  written : ∀ e ∈ P.log ρ 0 s.stream, e.access < accessCount s.cfg i → memRead u e.addr = e.value
  others : ∀ a, (∀ e ∈ P.log ρ 0 s.stream, e.addr ≠ a) → memRead u a = memRead s a

theorem stored {i : Instr} {s : State} {P : Prog} (hP : opProg s i = some P)
    (hw : P.Writes s.cfg []) (hd : dataReady s i) (hwf : Mem.wf s.cfg s.fb)
    (hu : Undisturbed (accessCount s.cfg i) s) : ∃ ρ u, Stored i P s ρ u := by
  obtain ⟨taken, m, u, h⟩ := storeAround hP hw hd hwf (.of_undisturbed hu)
  refine ⟨Prog.readAround (accessCount s.cfg i) s (deliverAll [] m), u, h.exec, ?_, fun j hj => funext fun a => ?_, fun e he hk => ?_, fun a ha => ?_⟩
  · have hf := h.final
    have htaken := h.taken_le
    rw [deliverAll, List.foldl_nil, h.before, Nat.sub_self] at hf
    refine hf.trans ?_
    rw [List.drop_drop, show taken + (2 * pairCount i - taken) = 2 * pairCount i by omega]
    rfl
  · rw [Prog.readAround, if_pos hj]
  · obtain ⟨hm, hu⟩ := h.written e he
    rw [if_pos hk] at hm hu
    exact hu.trans hm
  · obtain ⟨hm, hu⟩ := h.others a ha
    exact hu.trans hm

end Sys2Proof.Machine
end

section
/-! PROOFS. The obligations on SETPX, FLRECT, WRRECT and CPRECT (41_pixel_and_rect.md R143, R146 to R148). -/

namespace Sys2Proof.Machine

open Sys2Proof

/-- Block `(q, r)` of a rectangle of width `w` and height `h` is among the first `w * h`. -/
theorem walk_lt {w h q r : Nat} (hq : q < w) (hr : r < h) : r * w + q < w * h := by
  calc r * w + q < r * w + w := by omega
    _ = w * (r + 1) := by ring
    _ ≤ w * h := Nat.mul_le_mul_left w hr

theorem mem_blockAddrs_inRect {c : Config} {buf : Bool} {bx y w h : Nat} {pos : Pos} {a : Nat}
    (hp : ∃ o ∈ offsets w h, shift bx y o = pos) (ha : a ∈ Prog.blockAddrs c buf pos) :
    inRect c buf bx y w h a := by
  obtain ⟨o, ho, rfl⟩ := hp
  obtain ⟨hq, hr⟩ := mem_offsets.1 ho
  obtain ⟨p, hp, rfl⟩ := Prog.mem_blockAddrs.1 ha
  exact ⟨p, o.1, o.2, hp, hq, hr, rfl⟩

/-! ## FLRECT -/

theorem byte_splat (v : BitVec 2) {p : Nat} (hp : p < 3) :
    (encodeBlock (splat v)).byte p = if p < v.toNat then 0xFF else 0x00 := by
  have h : ∀ v : BitVec 2, ∀ p < 3,
      (encodeBlock (splat v)).byte p = if p < v.toNat then 0xFF else 0x00 := by decide
  exact h v p hp

section
variable {t : Target} {v : BitVec 2} {bx y bw h : Byte} {s : State}

theorem opProg_flrect : opProg s (.flrect t v bx y bw h)
    = some (.fill s.cfg (phys t s) v (clippedRect s.cfg bx.toNat y.toNat bw.toNat h.toNat)) := rfl

theorem writes_flrect : (Prog.fill s.cfg (phys t s) v
    (clippedRect s.cfg bx.toNat y.toNat bw.toNat h.toNat)).Writes s.cfg [] :=
  Prog.writes_fill (clippedRect_inRange _ _ _ _ _) ((nodup_offsets _ _).map (shift_injective _ _)) v

theorem mem_log_flrect {ρ : Nat → Nat → Byte} {p q r : Nat} (hp : p < 3)
    (hq : q < clipWidth s.cfg bx.toNat bw.toNat) (hr : r < clipHeight s.cfg y.toNat h.toNat) :
    ⟨3 * (r * clipWidth s.cfg bx.toNat bw.toNat + q) + p,
        addr s.cfg (phys t s) p (y.toNat + r) (bx.toNat + q), if p < v.toNat then 0xFF else 0x00⟩
      ∈ (Prog.fill s.cfg (phys t s) v
          (clippedRect s.cfg bx.toNat y.toNat bw.toNat h.toNat)).log ρ 0 s.stream := by
  rw [← byte_splat v hp]
  refine Prog.mem_log_fill (pos := (bx.toNat + q, y.toNat + r)) ?_ hp v _
  rw [clippedRect, List.getElem?_map, offsets_getElem? hq hr]
  rfl

theorem others_flrect {ρ : Nat → Nat → Byte} {a : Nat}
    (ha : ¬ inRect s.cfg (phys t s) bx.toNat y.toNat (clipWidth s.cfg bx.toNat bw.toNat)
      (clipHeight s.cfg y.toNat h.toNat) a) :
    ∀ e ∈ (Prog.fill s.cfg (phys t s) v
      (clippedRect s.cfg bx.toNat y.toNat bw.toNat h.toNat)).log ρ 0 s.stream, e.addr ≠ a := by
  rintro e he rfl
  obtain ⟨pos, hp, hm⟩ := Prog.addr_of_mem_log_fill he
  exact ha (mem_blockAddrs_inRect (List.mem_map.1 hp) hm)

end

/-- Settles O23: the writes of FLRECT, none of which an event comes before or after. -/
theorem flrectFillsClippedRectangle : Obligations.FlrectFillsClippedRectangle := by
  intro t v bx y bw h s hwf hu
  obtain ⟨ρ, u, hS⟩ := stored opProg_flrect writes_flrect trivial hwf hu
  refine ⟨u, hS.exec, hS.final, fun p q r hp hq hr => ?_, fun a ha => hS.others a (others_flrect ha)⟩
  have hlt := walk_lt hq hr
  exact hS.written _ (mem_log_flrect hp hq hr) (by simp only [accessCount]; omega)

/-- Settles O58: the writes below `k` come before the events, the others after them. -/
theorem flrectMeetsEventsBetweenAccesses : Obligations.FlrectMeetsEventsBetweenAccesses := by
  rintro t v bx y bw h s k n evs tl hwf rfl hev
  obtain ⟨taken, m, u, hS⟩ := storeAround opProg_flrect writes_flrect trivial hwf (.inl hev)
  obtain rfl : taken = 0 := hS.taken_eq hev.1
  refine ⟨m, _, u, _, _, hS.exec, rfl, rfl, hS.before, rfl, hS.final, ?_,
    fun a ha => hS.others a (others_flrect ha)⟩
  rintro p q r a hp hq hr rfl
  exact hS.written _ (mem_log_flrect hp hq hr)

/-! ## WRRECT -/

section
variable {t : Target} {bx y bw h : Byte} {s : State}

theorem opProg_wrrect : opProg s (.wrrect t bx y bw h)
    = some (.dataSlots s.cfg (phys t s) (givenRect s.cfg bx.toNat y.toNat bw.toNat h.toNat)) := rfl

theorem some_mem_givenRect {c : Config} {bx y bw h : Nat} {pos : Pos}
    (hp : some pos ∈ givenRect c bx y bw h) :
    ∃ o ∈ offsets (clipWidth c bx bw) (clipHeight c y h), shift bx y o = pos := by
  obtain ⟨o, -, ho⟩ := List.mem_map.1 hp
  split at ho
  · next hin => exact ⟨o, mem_offsets.2 ⟨hin.2, hin.1⟩, Option.some.inj ho⟩
  · cases ho

theorem nodup_givenRect (c : Config) (bx y bw h : Nat) :
    ((givenRect c bx y bw h).filterMap id).Nodup := by
  rw [givenRect_eq, List.filterMap_map]
  refine (nodup_offsets bw h).filterMap fun o o' pos ho ho' => ?_
  simp only [Function.comp_apply, id_eq, slotAt, Option.mem_def] at ho ho'
  split at ho <;> split at ho'
  · exact shift_injective bx y (Option.some.inj (ho.trans ho'.symm))
  · cases ho'
  · cases ho
  · cases ho

theorem writes_wrrect : (Prog.dataSlots s.cfg (phys t s)
    (givenRect s.cfg bx.toNat y.toNat bw.toNat h.toNat)).Writes s.cfg [] := by
  refine Prog.writes_dataSlots (fun pos hp => ⟨?_, fun a _ => List.not_mem_nil⟩) (nodup_givenRect ..)
  exact givenRect_legal pos (by simpa using hp)

theorem mem_log_wrrect {ρ : Nat → Nat → Byte} {p q r : Nat} {low high : Byte} (hp : p < 3)
    (hq : q < clipWidth s.cfg bx.toNat bw.toNat) (hr : r < clipHeight s.cfg y.toNat h.toNat)
    (hlow : s.stream[2 * (r * bw.toNat + q)]? = some low)
    (hhigh : s.stream[2 * (r * bw.toNat + q) + 1]? = some high) :
    ⟨3 * (r * clipWidth s.cfg bx.toNat bw.toNat + q) + p,
        addr s.cfg (phys t s) p (y.toNat + r) (bx.toNat + q),
        Planes.byte ⟨low ||| high, high, low &&& high⟩ p⟩
      ∈ (Prog.dataSlots s.cfg (phys t s)
          (givenRect s.cfg bx.toNat y.toNat bw.toNat h.toNat)).log ρ 0 s.stream := by
  obtain ⟨pre, post, hsplit, hlen, hcount⟩ := givenRect_split hq hr
  have hmem := Prog.mem_log_dataSlots (c := s.cfg) (buf := phys t s) (ρ := ρ) (t := 0) (pre := pre)
    (post := post) (pos := (bx.toNat + q, y.toNat + r)) (low := low) (high := high) hp
    (by rwa [hlen]) (by rwa [hlen])
  rw [hcount, Nat.zero_add, ← hsplit] at hmem
  exact hmem

theorem others_wrrect {ρ : Nat → Nat → Byte} {a : Nat}
    (ha : ¬ inRect s.cfg (phys t s) bx.toNat y.toNat (clipWidth s.cfg bx.toNat bw.toNat)
      (clipHeight s.cfg y.toNat h.toNat) a) :
    ∀ e ∈ (Prog.dataSlots s.cfg (phys t s)
      (givenRect s.cfg bx.toNat y.toNat bw.toNat h.toNat)).log ρ 0 s.stream, e.addr ≠ a := by
  rintro e he rfl
  obtain ⟨pos, hp, hm⟩ := Prog.addr_of_mem_log_dataSlots he
  exact ha (mem_blockAddrs_inRect (some_mem_givenRect hp) hm)

end

theorem planesAt_eq_of_byte {u : State} {buf : Bool} {bc y : Nat} {pl : Planes}
    (h : ∀ p < 3, memRead u (addr u.cfg buf p y bc) = pl.byte p) : planesAt u buf bc y = pl := by
  rw [planesAt, h 0 (by omega), h 1 (by omega), h 2 (by omega)]
  rfl

/-- Settles O24: the writes of WRRECT, none of which an event comes before or after. -/
theorem wrrectStoresEncodedData : Obligations.WrrectStoresEncodedData := by
  intro t bx y bw h s hwf hd hu
  obtain ⟨ρ, u, hS⟩ := stored opProg_wrrect writes_wrrect hd hwf hu
  refine ⟨u, hS.exec, hS.final, fun q r low high hq hr hlow hhigh => ?_,
    fun a ha => hS.others a (others_wrrect ha)⟩
  have hcfg : u.cfg = s.cfg := by rw [hS.final]
  have hlt := walk_lt hq hr
  refine planesAt_eq_of_byte fun p hp => ?_
  rw [hcfg]
  exact hS.written _ (mem_log_wrrect hp hq hr hlow hhigh) (by simp only [accessCount]; omega)

/-- Settles O59: the writes below `k` come before the events, the others after them; the data of the access's own block is taken before them. -/
theorem wrrectMeetsEventsBetweenAccesses : Obligations.WrrectMeetsEventsBetweenAccesses := by
  rintro t bx y bw h s k n evs tl hwf hd rfl hev
  obtain ⟨taken, m, u, hS⟩ := storeAround opProg_wrrect writes_wrrect hd hwf (.inl hev)
  refine ⟨m, _, u, _, _, taken, hS.exec, rfl, rfl, hS.taken_eq hev.1, hS.before, rfl, hS.final, ?_,
    fun a ha => hS.others a (others_wrrect ha)⟩
  rintro p q r a low high hp hq hr rfl hlow hhigh
  exact hS.written _ (mem_log_wrrect hp hq hr hlow hhigh)

/-! ## CPRECT -/

section
variable {src dst : Target} {sbx sy bw h dbx dy : Byte} {s : State}

theorem opProg_cprect : opProg s (.cprect src dst sbx sy bw h dbx dy)
    = some (.copy s.cfg (phys src s) (phys dst s)
        (copyRect s.cfg sbx sy bw h dbx dy sbx.toNat sy.toNat)
        (copyRect s.cfg sbx sy bw h dbx dy dbx.toNat dy.toNat)) := rfl

theorem length_copyRect (c : Config) (bx y : Nat) : (copyRect c sbx sy bw h dbx dy bx y).length
    = copyWidth c sbx.toNat dbx.toNat bw.toNat * copyHeight c sy.toNat dy.toNat h.toNat := by
  rw [copyRect, List.length_map, length_offsets]

theorem writes_cprect : (Prog.copy s.cfg (phys src s) (phys dst s)
    (copyRect s.cfg sbx sy bw h dbx dy sbx.toNat sy.toNat)
    (copyRect s.cfg sbx sy bw h dbx dy dbx.toNat dy.toNat)).Writes s.cfg [] :=
  Prog.writes_copy (fun _ hp => copyRect_legal.2 hp) ((nodup_offsets _ _).map (shift_injective _ _))
    (by rw [length_copyRect, length_copyRect])

theorem mem_log_cprect {ρ : Nat → Nat → Byte} {p q r : Nat} (hp : p < 3)
    (hq : q < copyWidth s.cfg sbx.toNat dbx.toNat bw.toNat)
    (hr : r < copyHeight s.cfg sy.toNat dy.toNat h.toNat) :
    ⟨3 * (copyWidth s.cfg sbx.toNat dbx.toNat bw.toNat * copyHeight s.cfg sy.toNat dy.toNat h.toNat)
          + (3 * (r * copyWidth s.cfg sbx.toNat dbx.toNat bw.toNat + q) + p),
        addr s.cfg (phys dst s) p (dy.toNat + r) (dbx.toNat + q),
        ρ (3 * (r * copyWidth s.cfg sbx.toNat dbx.toNat bw.toNat + q) + p)
          (addr s.cfg (phys src s) p (sy.toNat + r) (sbx.toNat + q))⟩
      ∈ (Prog.copy s.cfg (phys src s) (phys dst s)
          (copyRect s.cfg sbx sy bw h dbx dy sbx.toNat sy.toNat)
          (copyRect s.cfg sbx sy bw h dbx dy dbx.toNat dy.toNat)).log ρ 0 s.stream := by
  rw [← length_copyRect s.cfg sbx.toNat sy.toNat]
  refine Prog.mem_log_copy (pos := (sbx.toNat + q, sy.toNat + r))
    (pos' := (dbx.toNat + q, dy.toNat + r)) ?_ ?_ hp _ <;>
  · rw [copyRect, List.getElem?_map, offsets_getElem? hq hr]
    rfl

theorem others_cprect {ρ : Nat → Nat → Byte} {a : Nat}
    (ha : ¬ inRect s.cfg (phys dst s) dbx.toNat dy.toNat
      (copyWidth s.cfg sbx.toNat dbx.toNat bw.toNat) (copyHeight s.cfg sy.toNat dy.toNat h.toNat) a) :
    ∀ e ∈ (Prog.copy s.cfg (phys src s) (phys dst s)
      (copyRect s.cfg sbx sy bw h dbx dy sbx.toNat sy.toNat)
      (copyRect s.cfg sbx sy bw h dbx dy dbx.toNat dy.toNat)).log ρ 0 s.stream, e.addr ≠ a := by
  rintro e he rfl
  obtain ⟨pos, hp, hm⟩ := Prog.addr_of_mem_log_copy he
  exact ha (mem_blockAddrs_inRect (List.mem_map.1 hp) hm)

end

/-- Settles O26: every read comes before the first write, so all bytes are those of before the operation. -/
theorem cprectCopiesSnapshot : Obligations.CprectCopiesSnapshot := by
  intro src dst sbx sy bw h dbx dy s hwf hu
  obtain ⟨ρ, u, hS⟩ := stored opProg_cprect writes_cprect trivial hwf hu
  refine ⟨u, _, _, hS.exec, rfl, rfl, hS.final, fun q r hq hr => ?_,
    fun a ha => hS.others a (others_cprect ha)⟩
  have hcfg : u.cfg = s.cfg := by rw [hS.final]
  have hlt := walk_lt hq hr
  refine planesAt_eq_of_byte fun p hp => ?_
  have hw := hS.written _ (mem_log_cprect hp hq hr)
    (by simp only [accessCount, copyWidth, copyHeight]; omega)
  rw [hcfg, hw, hS.reads _ (by simp only [accessCount, copyWidth, copyHeight]; omega)]
  exact (planesAt_byte _ _ _ _ hp).symm

/-- Settles O60: a byte comes from before the events or from after them as its read does, and the events see the writes below `k`. -/
theorem cprectMeetsEventsBetweenAccesses : Obligations.CprectMeetsEventsBetweenAccesses := by
  rintro src dst sbx sy bw h dbx dy s k n evs tl hwf rfl hev
  obtain ⟨taken, m, u, hS⟩ := storeAround opProg_cprect writes_cprect trivial hwf (.inl hev)
  obtain rfl : taken = 0 := hS.taken_eq hev.1
  refine ⟨m, _, u, _, _, hS.exec, rfl, rfl, hS.before, rfl, hS.final, ?_,
    fun a ha => hS.others a (others_cprect ha)⟩
  rintro p q r j a b hp hq hr rfl rfl rfl
  obtain ⟨hm, hu⟩ := hS.written _ (mem_log_cprect hp hq hr)
  refine ⟨hm.trans (ite_congr rfl (fun hk => ?_) fun _ => rfl),
    hu.trans (ite_congr rfl (fun _ => rfl) fun _ => apply_ite (memRead · _) _ _ _)⟩
  exact congrArg (memRead · _) (if_pos (lt_of_le_of_lt (Nat.le_add_left _ _) hk))

end Sys2Proof.Machine
end

section
/-! PROOFS. The obligations on SETPX (41_pixel_and_rect.md R143). -/

namespace Sys2Proof.Machine

open Sys2Proof

/-- A plane byte with the pixel's bit replaced (R143). -/
def withLane (b : Byte) (i : Nat) (on : Bool) : Byte :=
  (b &&& ~~~laneMask i) ||| (if on then laneMask i else 0)

theorem laneMask_getLsbD {i j : Nat} (hi : i < 8) (hj : j < 8) :
    (laneMask i).getLsbD j = decide (j = i) := by
  have h : ∀ i < 8, ∀ j < 8, (laneMask i).getLsbD j = decide (j = i) := by decide
  exact h i hi j hj

theorem withLane_getLsbD {i j : Nat} (hi : i < 8) (hj : j < 8) (b : Byte) (on : Bool) :
    (withLane b i on).getLsbD j = if j = i then on else b.getLsbD j := by
  have hon : (if on then laneMask i else 0).getLsbD j = (on && decide (j = i)) := by
    cases on
    · exact BitVec.getLsbD_zero
    · exact laneMask_getLsbD hi hj
  rw [withLane, BitVec.getLsbD_or, BitVec.getLsbD_and, BitVec.getLsbD_not, laneMask_getLsbD hi hj, hon]
  by_cases h : j = i <;> simp [h, hj]

section
variable {t : Target} {v : BitVec 2} {x y : Byte} {s : State}

theorem opProg_setpx (hx : x.toNat < s.cfg.w) (hy : y.toNat < s.cfg.h) :
    opProg s (.setpx t v x y) = some (.setpx s.cfg (phys t s) v x y) :=
  if_pos (pixelInRange_iff.mpr ⟨hx, hy⟩)

theorem accessCount_setpx (hx : x.toNat < s.cfg.w) (hy : y.toNat < s.cfg.h) :
    accessCount s.cfg (.setpx t v x y) = 6 := if_pos (pixelInRange_iff.mpr ⟨hx, hy⟩)

theorem writes_setpx (hc : s.cfg.Valid) (hx : x.toNat < s.cfg.w) (hy : y.toNat < s.cfg.h) :
    (Prog.setpx s.cfg (phys t s) v x y).Writes s.cfg [] := by
  obtain ⟨hb, hh⟩ := pixel_legal hc hx hy
  have hlt : ∀ p < 3, addr s.cfg (phys t s) p y.toNat (blockOf x) < s.cfg.fbLen :=
    fun p hp => addr_lt_fbLen _ _ hp hh hb
  have hne : ∀ p p', p < 3 → p' < 3 → p ≠ p' →
      addr s.cfg (phys t s) p y.toNat (blockOf x) ≠ addr s.cfg (phys t s) p' y.toNat (blockOf x) :=
    fun p p' hp hp' hne he => hne (addr_inj s.cfg hp hp' hh hh hb hb he).2.1
  simp [Prog.setpx, Prog.setLaneProg, Prog.Writes, hlt, hne]

theorem log_setpx (ρ : Nat → Nat → Byte) (c : Config) (buf : Bool) (σ : List Byte) :
    (Prog.setpx c buf v x y).log ρ 0 σ = (List.range 3).map fun p =>
      ⟨2 * p + 1, addr c buf p y.toNat (x.toNat / 8),
        withLane (ρ (2 * p) (addr c buf p y.toNat (x.toNat / 8))) (x.toNat % 8) (thermoBit v p)⟩ :=
  rfl

theorem mem_log_setpx {ρ : Nat → Nat → Byte} {p : Nat} (hp : p < 3) :
    ⟨2 * p + 1, addr s.cfg (phys t s) p y.toNat (x.toNat / 8),
      withLane (ρ (2 * p) (addr s.cfg (phys t s) p y.toNat (x.toNat / 8))) (x.toNat % 8) (thermoBit v p)⟩
      ∈ (Prog.setpx s.cfg (phys t s) v x y).log ρ 0 s.stream := by
  rw [log_setpx]
  exact List.mem_map.2 ⟨p, List.mem_range.2 hp, rfl⟩

theorem others_setpx {ρ : Nat → Nat → Byte} {a : Nat}
    (ha : ∀ p < 3, a ≠ addr s.cfg (phys t s) p y.toNat (x.toNat / 8)) :
    ∀ e ∈ (Prog.setpx s.cfg (phys t s) v x y).log ρ 0 s.stream, e.addr ≠ a := by
  rw [log_setpx]
  rintro e he rfl
  obtain ⟨p, hp, rfl⟩ := List.mem_map.1 he
  exact ha p (List.mem_range.1 hp) rfl

end

/-- Settles O18: three plane bytes, each with the pixel's bit replaced. -/
theorem setpxWritesOneLane : Obligations.SetpxWritesOneLane := by
  intro t v x y s hc hwf hx hy hu
  rw [← accessCount_setpx (t := t) (v := v) hx hy] at hu
  obtain ⟨ρ, u, hS⟩ := stored (opProg_setpx hx hy) (writes_setpx hc hx hy) trivial hwf hu
  have hfinal := hS.final
  rw [accessCount_setpx hx hy] at hfinal
  refine ⟨u, hS.exec, hfinal, fun p hp i hi => ?_, fun a ha => hS.others a (others_setpx ha)⟩
  have hw := hS.written _ (mem_log_setpx hp) (by rw [accessCount_setpx hx hy]; dsimp only; omega)
  rw [hw, hS.reads _ (by rw [accessCount_setpx hx hy]; omega),
    withLane_getLsbD (Nat.mod_lt _ (by omega)) hi]
  rfl

/-- Settles O56: plane byte `p` is read by access `2*p` and written by access `2*p + 1`, before the events or after them. -/
theorem setpxMeetsEventsBetweenAccesses : Obligations.SetpxMeetsEventsBetweenAccesses := by
  intro t v x y s k evs tl hc hwf hx hy hev
  have hn := accessCount_setpx (t := t) (v := v) hx hy
  rw [← hn] at hev
  obtain ⟨taken, m, u, hS⟩ :=
    storeAround (opProg_setpx hx hy) (writes_setpx hc hx hy) trivial hwf (.inl hev)
  obtain rfl : taken = 0 := hS.taken_eq hev.1
  have hfinal := hS.final
  rw [hn] at hfinal
  refine ⟨m, _, u, hS.exec, hS.before, rfl, hfinal, ?_, fun a ha => hS.others a (others_setpx ha)⟩
  rintro p hp i hi a rfl
  obtain ⟨hm, hu⟩ := hS.written _ (mem_log_setpx hp)
  rw [hm, hu]
  have hlane : x.toNat % 8 < 8 := Nat.mod_lt _ (by omega)
  have hread : ∀ a, (Prog.readAround k s (deliverAll evs m) (2 * p) a).getLsbD i
      = if 2 * p < k then (memRead s a).getLsbD i else (memRead (deliverAll evs m) a).getLsbD i :=
    fun a => by rw [Prog.readAround]; split <;> rfl
  by_cases hk : 2 * p + 1 < k
  · have hk' : 2 * p < k := by omega
    simp only [hk, if_true, true_and, withLane_getLsbD hlane hi, hread, hk', thermoBit, and_self]
  · simp only [hk, if_false, false_and, withLane_getLsbD hlane hi, hread, thermoBit, and_self]

/-- The thermometer code of a value decodes to it (40_codec.md R120, R122). -/
theorem decode_thermometer (v : BitVec 2) :
    BitVec.ofNat 8 (2 * (decide (1 < v.toNat)).toNat
      + ((decide (0 < v.toNat) ^^ decide (1 < v.toNat)) || decide (2 < v.toNat)).toNat)
      = v.setWidth 8 := by
  revert v
  decide

/-- Settles O21: the three bits of the pixel are the thermometer code of the value, and reading decodes it. -/
theorem pixelSetReadsBack : Obligations.PixelSetReadsBack := by
  intro t v x y s hc hwf hx hy hu
  obtain ⟨u, hset, hfinal, hbits, -⟩ := setpxWritesOneLane t v x y s hc hwf hx hy (hu.mono (by omega))
  obtain ⟨b0, b1, b2, h0, h1, h2, hget⟩ := getpxAnswersPixelValue t x y u (by rwa [hfinal])
    (by rwa [hfinal]) (Undisturbed.drop hu (by rw [hfinal]))
  refine ⟨u, _, hset, hget, ?_⟩
  have hcfg : u.cfg = s.cfg := by rw [hfinal]
  have hphys : phys t u = phys t s := by rw [hfinal]; rfl
  have hresp : u.resp = s.resp := by rw [hfinal]
  have hlane : x.toNat % 8 < 8 := Nat.mod_lt _ (by omega)
  rw [hcfg, hphys, hbits _ (by omega) _ hlane, if_pos rfl] at h0 h1 h2
  dsimp only
  rw [hresp, h0, h1, h2, decode_thermometer]

end Sys2Proof.Machine
end

section
/-! PROOFS. Every undisturbed operation keeps the buffers consistent (41_pixel_and_rect.md R150). -/

namespace Sys2Proof.Machine

open Sys2Proof

/-! ## TICK -/

/-- A byte of one buffer is no byte of the other (20_memory.md R71). -/
theorem inBuffer_addr_iff {c : Config} {buf buf' : Bool} {p y bc : Nat} (hp : p < 3) (hy : y < c.h)
    (hb : bc < c.wb) : inBuffer c buf' (addr c buf p y bc) ↔ buf = buf' := by
  constructor
  · intro h
    obtain ⟨p', y', bc', hp', hy', hb', he⟩ := exists_addr_of_inBuffer c h
    exact (addr_inj c hp hp' hy hy' hb hb' (by rw [he])).1
  · rintro rfl
    exact addr_inBuffer c buf hp hy hb

theorem consistent_of_same {s u : State} (h : consistent s) (hc : u.cfg = s.cfg) (hf : u.fb = s.fb) :
    consistent u := by
  intro buf bc y hb hy
  have hread : ∀ a, memRead u a = memRead s a := fun a => by rw [memRead, memRead, hc, hf]
  rw [hc] at hb hy
  have hs := h buf bc y hb hy
  simpa only [planesAt, hread, hc] using hs

theorem planesAt_ext {s u : State} {buf : Bool} {bc y : Nat} (hc : u.cfg = s.cfg)
    (h : ∀ p < 3, memRead u (addr s.cfg buf p y bc) = memRead s (addr s.cfg buf p y bc)) :
    planesAt u buf bc y = planesAt s buf bc y :=
  planesAt_eq_of_byte fun p hp => by rw [hc, h p hp, planesAt_byte _ _ _ _ hp]

theorem actionEffect_consistent {s u : State} (h : consistent s) (hc : u.cfg = s.cfg)
    (he : actionEffect s u) : consistent u := by
  have hsame : u.fb = s.fb → consistent u := consistent_of_same h hc
  unfold actionEffect at he
  split at he
  · exact hsame he.1
  · obtain ⟨hclear, hkeep, -⟩ := he
    intro buf bc y hb hy
    rw [hc] at hb hy
    by_cases hf : buf = u.front
    · have hzero : planesAt u buf bc y = ⟨0, 0, 0⟩ := planesAt_eq_of_byte fun p hp => by
        rw [hc, hclear _ ((inBuffer_addr_iff hp hy hb).mpr hf)]
        match p, hp with
        | 0, _ => rfl
        | 1, _ => rfl
        | 2, _ => rfl
      rw [hzero]
      decide
    · rw [planesAt_ext hc fun p hp => hkeep _ fun hin => hf ((inBuffer_addr_iff hp hy hb).mp hin)]
      exact h buf bc y hb hy
  · exact hsame he.1
  · exact hsame he.1

theorem tickOp_consistent {s : State} (hm : Mem.wf s.cfg s.fb) (h : consistent s) :
    consistent (tickOp s) := by
  by_cases hb : boundaryNext s
  · cases hrun : endActionRuns s with
    | true => exact actionEffect_consistent h (tickOp_cfg s) (tickOp_boundary_action hm hb hrun)
    | false => exact consistent_of_same h (tickOp_cfg s) (tickOp_boundary_quiet hb hrun).1
  · exact consistent_of_same h (tickOp_cfg s) (by rw [tickOp_onlyScanned hb])

/-! ## Block writes -/

/-- Inside an operation no event falls into, under configuration `c`: the buffers are consistent. -/
structure Orderly (c : Config) (s : State) : Prop where
  cfg : s.cfg = c
  ports : ∀ e ∈ s.sched, e = Turn.port
  running : isRunning s = true
  wf : Mem.wf c s.fb
  consistent : consistent s

theorem Orderly.writePlanes {c : Config} {s : State} (h : Orderly c s) (buf : Bool) {pos : Pos}
    (hpos : Prog.InRange c pos) {p : Planes} (hp : p.consistent = true) :
    Orderly c (writePlanes buf pos p s) := by
  obtain ⟨rfl, hports, hrun, hwf, hcons⟩ := h
  obtain ⟨hb, hy⟩ := hpos
  rw [writePlanes_undisturbed hrun (.of_all hports 3)]
  refine ⟨by simp, fun e he => hports e ?_, by simpa using hrun, storePlanes_wf hwf buf hb hy p, ?_⟩
  · rw [takeTurns_sched, storePlanes_sched] at he
    exact List.mem_of_mem_drop he
  · intro buf' bc y hb' hy'
    rw [planesAt_takeTurns, planesAt_storePlanes hwf buf buf' (pos' := (bc, y)) hb hy (by simpa using hb')
      (by simpa using hy')]
    split
    · exact hp
    · exact hcons buf' bc y (by simpa using hb') (by simpa using hy')

theorem Orderly.writeAll {c : Config} {buf : Bool} {l : List (Pos × Planes)}
    (hl : ∀ x ∈ l, Prog.InRange c x.1 ∧ x.2.consistent = true) {s : State} (h : Orderly c s) :
    Orderly c (writeAll buf l s) := by
  induction l generalizing s with
  | nil => exact h
  | cons x l ih =>
    obtain ⟨hpos, hp⟩ := hl x (by simp)
    exact ih (fun y hy => hl y (by simp [hy])) (h.writePlanes buf hpos hp)

/-- WRRECT, also where the stream runs dry and the port waits (R146). -/
theorem Orderly.writeSlots {c : Config} {buf : Bool} {slots : List Slot}
    (hl : ∀ pos : Pos, some pos ∈ slots → Prog.InRange c pos) {s : State} (h : Orderly c s) :
    Machine.consistent (writeSlots buf slots s) := by
  induction slots generalizing s with
  | nil => exact h.consistent
  | cons slot rest ih =>
    have ih := @ih fun pos hp => hl pos (by simp [hp])
    rw [Machine.writeSlots, if_pos h.running]
    have htaken : ∀ more, Orderly c { s with stream := more } := fun more =>
      ⟨h.cfg, h.ports, h.running, h.wf, h.consistent⟩
    split
    · next low high more _ =>
      cases slot with
      | none => exact ih (htaken more)
      | some pos => exact ih ((htaken more).writePlanes buf (hl pos (by simp)) (encodeBlock_consistent _))
    · exact h.consistent
    · exact h.consistent

theorem finishOp_consistent {s : State} (h : consistent s) : consistent (finishOp s) :=
  consistent_of_same h (finishOp_cfg s) (finishOp_fb s)

theorem Orderly.beginOp {s : State} (hm : Mem.wf s.cfg s.fb) (hc : Machine.consistent s)
    (hp : ∀ e ∈ s.sched, e = Turn.port) : Orderly s.cfg (Machine.beginOp s) :=
  ⟨rfl, hp, rfl, hm, hc⟩

theorem Orderly.takeTurns {c : Config} {s : State} (h : Orderly c s) (n : Nat) :
    Orderly c (takeTurns n s) :=
  ⟨h.cfg, fun e he => h.ports e (List.mem_of_mem_drop he), h.running, h.wf, h.consistent⟩

theorem Orderly.readAll {c : Config} {s : State} (h : Orderly c s) (buf : Bool) {l : List Pos}
    (hl : ∀ pos ∈ l, Prog.InRange c pos) :
    Orderly c (readAll buf l s).2 ∧ ∀ p ∈ (readAll buf l s).1, p.consistent = true := by
  rw [readAll_undisturbed buf l h.running (.of_all h.ports _)]
  refine ⟨h.takeTurns _, fun p hp => ?_⟩
  obtain ⟨pos, hpos, rfl⟩ := List.mem_map.1 hp
  obtain ⟨hb, hy⟩ := hl pos hpos
  rw [← h.cfg] at hb hy
  exact h.consistent buf pos.1 pos.2 hb hy

/-! ## SETPX -/

theorem lanePattern_thermometer (v : BitVec 2) :
    Config.lanePattern (decide (0 < v.toNat)) (decide (1 < v.toNat)) (decide (2 < v.toNat)) = true := by
  revert v
  decide

/-- Replacing one lane by a thermometer pattern keeps a block consistent. -/
theorem consistent_of_lane {p q : Planes} (hp : p.consistent = true) {lane : Nat} (v : BitVec 2)
    (h : ∀ k < 3, ∀ i < 8, (q.byte k).getLsbD i
      = if i = lane then decide (k < v.toNat) else (p.byte k).getLsbD i) : q.consistent = true := by
  rw [Planes.consistent_iff] at hp ⊢
  intro i hi
  have h0 : q.p0.getLsbD i = if i = lane then decide (0 < v.toNat) else p.p0.getLsbD i :=
    h 0 (by omega) i hi
  have h1 : q.p1.getLsbD i = if i = lane then decide (1 < v.toNat) else p.p1.getLsbD i :=
    h 1 (by omega) i hi
  have h2 : q.p2.getLsbD i = if i = lane then decide (2 < v.toNat) else p.p2.getLsbD i :=
    h 2 (by omega) i hi
  rw [h0, h1, h2]
  split
  · exact lanePattern_thermometer v
  · exact hp i hi

theorem setpx_consistent {t : Target} {v : BitVec 2} {x y : Byte} {s u : State} (hc : s.cfg.Valid)
    (hm : Mem.wf s.cfg s.fb) (h : consistent s) (hp : ∀ e ∈ s.sched, e = Turn.port)
    (hu : exec (.setpx t v x y) s = .next u) : consistent u := by
  by_cases hin : x.toNat < s.cfg.w ∧ y.toNat < s.cfg.h
  · obtain ⟨u', hu', hf, hbits, hothers⟩ :=
      setpxWritesOneLane t v x y s hc hm hin.1 hin.2 (.of_all hp 6)
    obtain rfl : u = u' := Host.Outcome.next.inj (hu.symm.trans hu')
    have hcfg : u.cfg = s.cfg := by rw [hf]
    obtain ⟨hbx, hby⟩ := pixel_legal hc hin.1 hin.2
    intro buf bc y' hb hy
    rw [hcfg] at hb hy
    by_cases hat : buf = phys t s ∧ bc = x.toNat / 8 ∧ y' = y.toNat
    · obtain ⟨rfl, rfl, rfl⟩ := hat
      refine consistent_of_lane (h (phys t s) _ _ hb hy) (lane := x.toNat % 8) v fun p hp i hi => ?_
      rw [planesAt_byte _ _ _ _ hp, planesAt_byte _ _ _ _ hp, hcfg]
      exact hbits p hp i hi
    · rw [planesAt_ext hcfg fun p hp => hothers _ fun p' hp' he => hat ?_]
      · exact h buf bc y' hb hy
      · obtain ⟨h1, -, h2, h3⟩ := addr_inj s.cfg hp hp' hy hby hb hbx he
        exact ⟨h1, h3, h2⟩
  · obtain ⟨hno, -⟩ := pixelsOutOfRangeAreNoOps t v x y s (by omega)
    obtain rfl : u = s := Host.Outcome.next.inj (hu.symm.trans hno)
    exact h

/-! ## Every operation -/

theorem getpx_consistent {t : Target} {x y : Byte} {s u : State} (h : consistent s)
    (hp : ∀ e ∈ s.sched, e = Turn.port) (hu : exec (.getpx t x y) s = .next u) : consistent u := by
  by_cases hin : x.toNat < s.cfg.w ∧ y.toNat < s.cfg.h
  · obtain ⟨b0, b1, b2, -, -, -, he⟩ := getpxAnswersPixelValue t x y s hin.1 hin.2 (.of_all hp 3)
    obtain rfl := Host.Outcome.next.inj (hu.symm.trans he)
    exact consistent_of_same h rfl rfl
  · obtain ⟨-, he⟩ := pixelsOutOfRangeAreNoOps t 0 x y s (by omega)
    obtain rfl := Host.Outcome.next.inj (hu.symm.trans he)
    exact consistent_of_same h rfl rfl

/-- Settles O29: a TICK clears a buffer or leaves memory, and a port operation writes encoded blocks, copied blocks or a thermometer lane. -/
theorem operationsKeepBuffersConsistent : Obligations.OperationsKeepBuffersConsistent := by
  intro i s u hc hm h hp hu
  rcases exec_cases hu with ⟨-, rfl⟩ | ⟨P, hP, -⟩ | ⟨-, hw⟩
  · exact tickOp_consistent hm h
  · cases i with
    | rdrect t bx y bw h' =>
      obtain ⟨bytes, -, -, he⟩ := rdrectAnswersEveryBlock t bx y bw h' s (.of_all hp _)
      obtain rfl := Host.Outcome.next.inj (hu.symm.trans he)
      exact consistent_of_same h rfl rfl
    | wrrect t bx y bw h' =>
      obtain rfl := Host.Outcome.next.inj hu
      exact finishOp_consistent ((Orderly.beginOp hm h hp).writeSlots fun pos => givenRect_legal pos)
    | cprect src dst sbx sy bw h' dbx dy =>
      obtain rfl := Host.Outcome.next.inj hu
      obtain ⟨hread, hplanes⟩ := (Orderly.beginOp hm h hp).readAll (phys src s)
        fun pos hpos => copyRect_legal.1 hpos
      refine finishOp_consistent (hread.writeAll fun x hx => ?_).consistent
      obtain ⟨hpos, hpl⟩ := List.of_mem_zip hx
      exact ⟨copyRect_legal.2 hpos, hplanes x.2 hpl⟩
    | flrect t v bx y bw h' =>
      obtain rfl := Host.Outcome.next.inj hu
      refine finishOp_consistent ((Orderly.beginOp hm h hp).writeAll fun x hx => ?_).consistent
      obtain ⟨pos, hpos, rfl⟩ := List.mem_map.1 hx
      exact ⟨clippedRect_inRange _ _ _ _ _ pos hpos, encodeBlock_consistent _⟩
    | setpx t v x y => exact setpx_consistent hc hm h hp hu
    | getpx t x y => exact getpx_consistent h hp hu
    | _ => cases hP
  · exact consistent_of_same h (by rw [hw.frame]) (by rw [hw.frame])

end Sys2Proof.Machine
end

section
/-! PROOFS. WRRECT whose data comes in pieces (41_pixel_and_rect.md R146, 30_encoding.md R90). -/

namespace Sys2Proof.Machine

open Sys2Proof

/-- A block write with no event to come does not look at the stream. -/
theorem writeSlot_withStream (buf : Bool) (slot : Slot) (g : Gray) {s : State} (hr : isRunning s = true)
    (hs : s.sched = []) (l : List Byte) :
    writeSlot buf slot g { s with stream := l } = { writeSlot buf slot g s with stream := l } := by
  have hu : Undisturbed 3 s := .of_all (by simp [hs]) 3
  cases slot with
  | none => rfl
  | some pos =>
    simp only [writeSlot]
    rw [writePlanes_undisturbed hr hu, writePlanes_undisturbed (s := { s with stream := l }) hr hu]
    rfl

/-- A block write with no event to come writes memory alone. -/
theorem writeSlot_frame (buf : Bool) (slot : Slot) (g : Gray) {s : State} (hr : isRunning s = true)
    (hs : s.sched = []) : writeSlot buf slot g s = { s with fb := (writeSlot buf slot g s).fb } := by
  cases slot with
  | none => rfl
  | some pos =>
    simp only [writeSlot]
    rw [writePlanes_undisturbed hr (.of_all (by simp [hs]) 3), takeTurns, storePlanes_sched, hs]
    conv_lhs => rw [storePlanes_frame]
    rw [List.drop_nil, ← hs]

theorem writeSlots_of_pair {buf : Bool} {slot : Slot} {rest : List Slot} {s : State} {low high : Byte}
    {more : List Byte} (hr : isRunning s = true) (hs : s.stream = low :: high :: more) :
    writeSlots buf (slot :: rest) s
      = writeSlots buf rest (writeSlot buf slot ⟨low, high⟩ { s with stream := more }) := by
  simp only [writeSlots, hr, hs, if_true]

/-- Where the data ends before the blocks do, WRRECT has stopped in a state from which the rest of the data goes on as if it had been there from the start. -/
structure Suspended (buf : Bool) (slots : List Slot) (s : State) (todo : List Slot) (low : Option Byte)
    (m : State) : Prop where
  stopped : writeSlots buf slots s = { m with stream := [], port := .data buf todo low }
  resumed : ∀ more, writeSlots buf slots { s with stream := s.stream ++ more }
    = writeSlots buf todo { m with stream := low.toList ++ more }
  frame : m = { s with fb := m.fb, stream := m.stream }

theorem writeSlots_suspended (buf : Bool) {slots : List Slot} {s : State} (hr : isRunning s = true)
    (hs : s.sched = []) (hd : s.stream.length < 2 * slots.length) :
    ∃ todo low m, Suspended buf slots s todo low m := by
  induction slots generalizing s with
  | nil => simp at hd
  | cons slot rest ih =>
    obtain ⟨q, hq⟩ : ∃ q, s.stream = q := ⟨_, rfl⟩
    match q with
    | [] =>
      refine ⟨slot :: rest, none, s, ?_, fun more => ?_, rfl⟩
      · simp only [writeSlots, hr, hq, if_true]
      · rw [hq]
        rfl
    | [low] =>
      refine ⟨slot :: rest, some low, s, ?_, fun more => ?_, rfl⟩
      · simp only [writeSlots, hr, hq, if_true]
      · rw [hq]
        rfl
    | low :: high :: l =>
      have hw := writeSlot_frame buf slot ⟨low, high⟩ (s := { s with stream := l }) hr hs
      have hstream : (writeSlot buf slot ⟨low, high⟩ { s with stream := l }).stream = l := by rw [hw]
      obtain ⟨todo, low', m, hstop, hresume, hframe⟩ :=
        ih (s := writeSlot buf slot ⟨low, high⟩ { s with stream := l }) (by rw [hw]; exact hr)
          (by rw [hw]; exact hs) (by rw [hstream]; simp [hq] at hd; omega)
      refine ⟨todo, low', m, ?_, fun more => ?_, ?_⟩
      · exact (writeSlots_of_pair hr hq).trans hstop
      · rw [← hresume more, hstream]
        refine (writeSlots_of_pair (s := { s with stream := s.stream ++ more }) (more := l ++ more) hr
          (by rw [hq]; rfl)).trans (congrArg (writeSlots buf rest) ?_)
        exact writeSlot_withStream buf slot ⟨low, high⟩ (s := { s with stream := l }) hr hs (l ++ more)
      · rw [hframe, hw]

theorem fetch_of_data {buf : Bool} {todo : List Slot} {low : Option Byte} {s : State}
    (hp : s.port = .data buf todo low) (hswap : s.swapPend = false) :
    fetch s = .done (resumeData buf todo low s) := by
  simp [fetch, hswap, hp]

theorem step_of_data {buf : Bool} {todo : List Slot} {low : Option Byte} {s : State}
    (hs : s.sched = []) (hp : s.port = .data buf todo low) (hswap : s.swapPend = false) :
    step s = .next (resumeData buf todo low s) := by
  rw [step_of_nil hs]
  exact portTurn_of_done (fetch_of_data hp hswap)

/-- Settles O25: the port keeps the blocks to come and a byte already taken, and its next turn goes on with them. -/
theorem wrrectDataMayArriveInPieces : Obligations.WrrectDataMayArriveInPieces := by
  intro t bx y bw h s more hs hswap hd
  obtain ⟨todo, low, m, hstop, hresume, hframe⟩ := writeSlots_suspended (phys t s)
    (slots := givenRect s.cfg bx.toNat y.toNat bw.toNat h.toNat) (s := beginOp s) rfl hs
    (by rw [length_givenRect]; exact hd)
  have hrun : isRunning { m with stream := [], port := .data (phys t s) todo low } = false := rfl
  refine ⟨{ m with stream := [], port := .data (phys t s) todo low }, ?_, rfl, by simp, ?_⟩
  · rw [← finishOp_of_not_running hrun, ← hstop]
    rfl
  · have hsched : m.sched = [] := by rw [hframe]; exact hs
    have hpend : m.swapPend = false := by rw [hframe]; exact hswap
    have hport : m.port = .running := by rw [hframe]; rfl
    have hbegin : beginOp { m with stream := low.toList ++ more, port := .data (phys t s) todo low }
        = { m with stream := low.toList ++ more } := by rw [beginOp, ← hport]
    refine (step_of_data (buf := phys t s) (todo := todo) (low := low) (by exact hsched) (by rfl)
      (by exact hpend)).trans (congrArg Host.Outcome.next (congrArg finishOp ?_))
    exact (congrArg (writeSlots (phys t s) todo) hbegin).trans (hresume more).symm

end Sys2Proof.Machine
end

section
/-! PROOFS. A TICK as one update, whichever arm it takes: what it reads and what it writes (43_tick.md R200 to R209). -/

namespace Sys2Proof.Machine

open Sys2Proof

/-- The cursor after a TICK that runs no frame boundary (43_tick.md R202). -/
structure Cursor where
  row : Byte
  half : Bool
  plane : Fin 3
  holdRem : Byte

/-- The countdown half, row, hold, plane (R202). -/
def nextCursor (s : State) : Cursor :=
  if s.half = false then ⟨s.row, true, s.plane, s.holdRem⟩
  else if s.row.toNat < s.cfg.h - 1 then ⟨s.row + 1, false, s.plane, s.holdRem⟩
  else if 1 < s.holdRem.toNat then ⟨0, false, s.plane, s.holdRem - 1⟩
  else if s.plane = 2 then ⟨0, false, 1, s.ht.b⟩
  else ⟨0, false, 0, s.ht.a⟩

theorem tickOp_inside_eq {s : State} (h : ¬ boundaryNext s) :
    tickOp s = { s with
      segs := s.segs ++ [segmentOf s]
      row := (nextCursor s).row
      half := (nextCursor s).half
      plane := (nextCursor s).plane
      holdRem := (nextCursor s).holdRem } := by
  unfold tickOp
  rcases advance_cases (emitSegment s) with
    ⟨h1, hs⟩ | ⟨h1, h2, hs⟩ | ⟨h1, h2, h3, hs⟩ | ⟨h1, h2, h3, h4, hs⟩ | ⟨h1, h2, h3, h4, hs⟩
      | ⟨h1, h2, h3, h4, -⟩
  case inr.inr.inr.inr.inr => exact absurd ⟨h1, h2, h3, h4⟩ h
  all_goals simp only [emitSegment] at *
  · rw [hs, nextCursor, if_pos h1]
  · rw [hs, nextCursor, if_neg (by simp [h1]), if_pos h2]
  · rw [hs, nextCursor, if_neg (by simp [h1]), if_neg (by omega), if_pos h3]
  · rw [hs, nextCursor, if_neg (by simp [h1]), if_neg (by omega), if_neg (by omega), if_pos h4]
  · rw [hs, nextCursor, if_neg (by simp [h1]), if_neg (by omega), if_neg (by omega),
      if_neg (by simp [h4])]

end Sys2Proof.Machine
end

section
/-! PROOFS. The outputs are only put out (10_state.md R52): every step commutes with putting an earlier record in front of the one the state holds. -/

namespace Sys2Proof.Machine

open Sys2Proof

/-- A record of outputs. -/
structure Record where
  segs : List Seg
  animEvents : List AnimEvent
  errs : List Byte

/-- The state with a record of earlier outputs in front of its own. -/
def preceded (o : Record) (s : State) : State :=
  { s with segs := o.segs ++ s.segs, animEvents := o.animEvents ++ s.animEvents, errs := o.errs ++ s.errs }

variable (o : Record)

theorem preceded_withoutOutputs (s : State) :
    preceded ⟨s.segs, s.animEvents, s.errs⟩ (withoutOutputs s) = s := by
  simp only [preceded, withoutOutputs, List.append_nil]

theorem tickOp_preceded (s : State) : tickOp (preceded o s) = preceded o (tickOp s) := by
  by_cases hb : boundaryNext s
  · have hanim : (if endActionRuns s then
          (o.animEvents ++ s.animEvents) ++ actionEvents s.endAct else o.animEvents ++ s.animEvents)
        = o.animEvents ++ if endActionRuns s then
          s.animEvents ++ actionEvents s.endAct else s.animEvents := by
      split
      · rw [List.append_assoc]
      · rfl
    rw [tickOp_boundary (s := preceded o s) hb, tickOp_boundary hb]
    simp only [preceded, ← hanim, ← List.append_assoc]
    rfl
  · rw [tickOp_inside_eq (s := preceded o s) hb, tickOp_inside_eq hb]
    simp only [preceded, ← List.append_assoc]
    rfl

theorem deliver_preceded (e : Turn) (s : State) :
    deliver e (preceded o s) = preceded o (deliver e s) := by
  cases e with
  | tick => exact tickOp_preceded o s
  | _ => rfl

theorem pauseTurns_preceded (l : List Turn) (s : State) :
    pauseTurns l (preceded o s) = preceded o (pauseTurns l s) := by
  induction l generalizing s with
  | nil => rfl
  | cons e l ih =>
    have hd : deliver e { preceded o s with sched := l } = preceded o (deliver e { s with sched := l }) :=
      deliver_preceded o e { s with sched := l }
    simp only [pauseTurns, hd]
    split
    · rfl
    · by_cases hr : isRunning (deliver e { s with sched := l }) = true
      · rw [if_pos hr, if_pos (by exact hr), ih]
      · rw [if_neg hr, if_neg (by exact hr)]

theorem pause_preceded (s : State) : pause (preceded o s) = preceded o (pause s) := by
  by_cases hr : isRunning s = true
  · rw [pause, if_pos (by exact hr), pause, if_pos hr]
    exact pauseTurns_preceded o s.sched s
  · rw [pause, if_neg (by exact hr), pause, if_neg hr]

theorem busWrite_preceded (a : Nat) (x : Byte) (s : State) :
    busWrite a x (preceded o s) = preceded o (busWrite a x s) := by
  simp only [busWrite, pause_preceded]
  by_cases hr : isRunning (pause s) = true
  · rw [if_pos (by exact hr), if_pos hr]
    rfl
  · rw [if_neg (by exact hr), if_neg hr]

theorem busEmit_preceded (bs : List Byte) (s : State) :
    busEmit bs (preceded o s) = preceded o (busEmit bs s) := by
  cases hr : isRunning s with
  | true =>
    rw [busEmit_of_running bs hr, busEmit_of_running bs (by exact hr)]
    rfl
  | false => rw [busEmit_of_not_running bs hr, busEmit_of_not_running bs (by exact hr)]

theorem finishOp_preceded (s : State) : finishOp (preceded o s) = preceded o (finishOp s) := by
  cases hr : isRunning s with
  | true =>
    rw [finishOp_of_running hr, finishOp_of_running (by exact hr)]
    rfl
  | false => rw [finishOp_of_not_running hr, finishOp_of_not_running (by exact hr)]

theorem raiseBadCommand_preceded (hdr : Byte) (s : State) :
    raiseBadCommand hdr (preceded o s) = preceded o (raiseBadCommand hdr s) := by
  simp only [raiseBadCommand, preceded, List.append_assoc]

theorem Prog.run_preceded (P : Prog) (s : State) : P.run (preceded o s) = preceded o (P.run s) := by
  induction P generalizing s with
  | done => rfl
  | read a next ih =>
    have hread : busRead a (preceded o s) = ((busRead a s).1, preceded o (busRead a s).2) := by
      rw [busRead, pause_preceded]
      rfl
    rw [run, run, hread, ih]
  | write a x next ih => rw [run, run, busWrite_preceded, ih]
  | emit bs next ih => rw [run, run, busEmit_preceded, ih]
  | data buf todo next ih =>
    by_cases hr : isRunning s = true
    · rw [run, if_pos (by exact hr), run, if_pos hr]
      obtain ⟨q, hq⟩ : ∃ q, s.stream = q := ⟨_, rfl⟩
      have hq' : (preceded o s).stream = q := hq
      match q with
      | [] => simp only [hq, hq']; rfl
      | [low] => simp only [hq, hq']; rfl
      | low :: high :: more =>
        simp only [hq, hq']
        exact ih _ { s with stream := more }
    · rw [run, if_neg (by exact hr), run, if_neg hr]

theorem exec_preceded {i : Instr} {s u : State} (h : exec i s = .next u) :
    exec i (preceded o s) = .next (preceded o u) := by
  cases hP : opProg s i with
  | some P =>
    have hP' : opProg (preceded o s) i = some P := hP
    rw [exec_opProg hP] at h
    obtain rfl := Host.Outcome.next.inj h
    rw [exec_opProg hP', ← finishOp_preceded, ← Prog.run_preceded]
    rfl
  | none =>
    cases i with
    | query r =>
      obtain ⟨q, hr⟩ : ∃ q, queryResponse r s = q := ⟨_, rfl⟩
      have hr' : queryResponse r (preceded o s) = q := hr
      cases q with
      | some bs =>
        simp only [exec, execQuery, hr] at h
        obtain rfl := Host.Outcome.next.inj h
        simp only [exec, execQuery, hr']
        rfl
      | none =>
        rw [exec_query_of_none hr] at h
        obtain rfl := Host.Outcome.next.inj h
        rw [exec_query_of_none hr', raiseBadCommand_preceded]
    | tick =>
      obtain rfl := Host.Outcome.next.inj h
      exact congrArg Host.Outcome.next (tickOp_preceded o s)
    | setpx t v x y =>
      have hin : ¬ pixelInRange s.cfg x y = true := fun hin => by simp [opProg, hin] at hP
      simp only [exec, execSetpx, if_neg hin] at h
      obtain rfl := Host.Outcome.next.inj h
      exact if_neg hin
    | getpx t x y =>
      have hin : ¬ pixelInRange s.cfg x y = true := fun hin => by simp [opProg, hin] at hP
      simp only [exec, execGetpx, if_neg hin] at h
      obtain rfl := Host.Outcome.next.inj h
      exact if_neg hin
    | rdrect t bx y bw h' => cases hP
    | wrrect t bx y bw h' => cases hP
    | cprect src dst sbx sy bw h' dbx dy => cases hP
    | flrect t v bx y bw h' => cases hP
    | _ =>
      obtain rfl := Host.Outcome.next.inj h
      rfl

theorem resumeData_preceded (buf : Bool) (todo : List Slot) (low : Option Byte) (s : State) :
    resumeData buf todo low (preceded o s) = preceded o (resumeData buf todo low s) := by
  rw [resumeData_eq, resumeData_eq, ← finishOp_preceded, ← Prog.run_preceded]
  rfl

theorem portTurn_takeCommand_preceded {bs : List Byte} {s u : State} (hs : s.swapPend = false)
    (hp : s.port = .idle ∧ bs = [] ∨ s.port = .taking bs) (h : portTurn s = .next u) :
    portTurn (preceded o s) = .next (preceded o u) := by
  have hf := fetch_of_taking hs hp
  have hf' : fetch (preceded o s) = takeCommand bs (preceded o s) := fetch_of_taking hs hp
  cases hdec : decode (bs ++ s.stream) with
  | ok x =>
    rw [portTurn_of_run (hf.trans (takeCommand_of_ok hdec))] at h
    rw [portTurn_of_run (hf'.trans (takeCommand_of_ok hdec))]
    exact exec_preceded o h
  | error err =>
    cases err with
    | badCommand hdr =>
      rw [portTurn_of_done (hf.trans (takeCommand_of_badCommand hdec))] at h
      obtain rfl := Host.Outcome.next.inj h
      rw [portTurn_of_done (hf'.trans (takeCommand_of_badCommand hdec)), ← raiseBadCommand_preceded]
      rfl
    | truncated n =>
      rw [takeCommand_of_truncated hdec] at hf
      rw [takeCommand_of_truncated (s := preceded o s) hdec] at hf'
      by_cases he : s.stream.isEmpty = true
      · rw [portTurn_of_done (hf.trans (if_pos he))] at h
        obtain rfl := Host.Outcome.next.inj h
        exact portTurn_of_done (hf'.trans (if_pos he))
      · rw [portTurn_of_done (hf.trans (if_neg he))] at h
        obtain rfl := Host.Outcome.next.inj h
        exact portTurn_of_done (hf'.trans (if_neg he))

theorem portTurn_preceded {s u : State} (h : portTurn s = .next u) :
    portTurn (preceded o s) = .next (preceded o u) := by
  have hdone : ∀ {t : State}, fetch s = .done t → fetch (preceded o s) = .done (preceded o t) →
      portTurn (preceded o s) = .next (preceded o u) := fun ht ht' => by
    rw [portTurn_of_done ht] at h
    obtain rfl := Host.Outcome.next.inj h
    exact portTurn_of_done ht'
  by_cases hswap : s.swapPend = true
  · exact hdone (fetch_of_swapPend hswap) (fetch_of_swapPend hswap)
  · have hs : s.swapPend = false := by simpa using hswap
    have hs' : (preceded o s).swapPend = false := hs
    obtain ⟨p, hp⟩ : ∃ p, s.port = p := ⟨_, rfl⟩
    have hp' : (preceded o s).port = p := hp
    cases p with
    | idle => exact portTurn_takeCommand_preceded o hs (.inl ⟨hp, rfl⟩) h
    | taking bs => exact portTurn_takeCommand_preceded o hs (.inr hp) h
    | running => exact hdone (t := s) (by simp [fetch, hs, hp]) (by simp [fetch, hs', hp'])
    | data buf todo low =>
      exact hdone (fetch_of_data hp hs) ((fetch_of_data hp' hs').trans (by rw [resumeData_preceded]))

theorem step_preceded {s u : State} (h : step s = .next u) :
    step (preceded o s) = .next (preceded o u) := by
  obtain ⟨l, hl⟩ : ∃ l, s.sched = l := ⟨_, rfl⟩
  match l with
  | [] =>
    rw [step_of_nil hl] at h
    rw [step_of_nil (s := preceded o s) hl]
    exact portTurn_preceded o h
  | e :: tl =>
    by_cases he : e = .port
    · subst he
      rw [step_of_port hl] at h
      rw [step_of_port (s := preceded o s) hl]
      exact portTurn_preceded o (s := { s with sched := tl }) h
    · rw [step_of_event hl he] at h
      obtain rfl := Host.Outcome.next.inj h
      rw [step_of_event (s := preceded o s) hl he]
      exact congrArg Host.Outcome.next (deliver_preceded o e { s with sched := tl })

/-- Settles O48: a state is its own record in front of the state without it, and a step commutes with that. -/
theorem outputsAreNeverRead : Obligations.OutputsAreNeverRead := by
  intro s u h
  obtain ⟨u', hu'⟩ := (noOperationAndNoStepStops).2 (withoutOutputs s)
  have hs := step_preceded ⟨s.segs, s.animEvents, s.errs⟩ hu'
  rw [preceded_withoutOutputs, h] at hs
  obtain rfl := Host.Outcome.next.inj hs
  exact ⟨u', hu', rfl, rfl, rfl, rfl⟩

end Sys2Proof.Machine
end

section
/-! PROOFS. Back-buffer operations act as if atomic (20_memory.md R75): a TICK reads and writes the front buffer alone, so it commutes with every action of such an operation, and all events can be moved behind it. -/

namespace Sys2Proof.Machine

open Sys2Proof

/-! ## Clear and a write outside the buffer it clears -/

theorem clearFront_memWrite {s : State} (hm : Mem.wf s.cfg s.fb) {a : Nat} (ha : a < s.cfg.fbLen)
    (hf : ¬ inBuffer s.cfg s.front a) (x : Byte) :
    clearFront (memWrite s a x) = memWrite (clearFront s) a x := by
  have hw : Mem.wf s.cfg (memWrite s a x).fb := memWrite_wf hm ha x
  obtain ⟨hwf, hzero, hkeep⟩ := clearFront_read (s := memWrite s a x) hw
  obtain ⟨hwf', hzero', hkeep'⟩ := clearFront_read hm
  have hc : (clearFront s).cfg = s.cfg := by rw [clearFront_eq]
  have hwf'' : Mem.wf (clearFront s).cfg (clearFront s).fb := by rwa [hc]
  have hread : ∀ b, memRead (clearFront (memWrite s a x)) b = memRead (memWrite (clearFront s) a x) b := by
    intro b
    rw [memRead_memWrite hwf'']
    by_cases hb : inBuffer s.cfg s.front b
    · have hne : b ≠ a := fun he => hf (he ▸ hb)
      rw [hzero b hb, if_neg hne, hzero' b hb]
    · rw [hkeep b hb, memRead_memWrite hm, hkeep' b hb]
  have hc' : (clearFront (memWrite s a x)).cfg = s.cfg := by rw [clearFront_eq]; rfl
  have hfb : (clearFront (memWrite s a x)).fb = (memWrite (clearFront s) a x).fb := by
    refine Mem.ext_of_find (c := s.cfg) hwf ?_ fun b => ?_
    · have hlast := memWrite_wf hwf'' (a := a) (by rwa [hc]) x
      rwa [memWrite_cfg, hc] at hlast
    · have hb := hread b
      rwa [memRead, memRead, memWrite_cfg, hc, hc'] at hb
  rw [clearFront_frame (memWrite s a x), hfb, clearFront_eq s]
  rfl

/-- So for memory alone. -/
theorem actionMem_store {s : State} (hm : Mem.wf s.cfg s.fb) {a : Nat} (ha : a < s.cfg.fbLen)
    (hf : ¬ inBuffer s.cfg s.front a) (act : EndAct) (x : Byte) :
    actionMem act s.cfg s.front (Mem.store (resetByte s.cfg) s.fb a x)
      = Mem.store (resetByte s.cfg) (actionMem act s.cfg s.front s.fb) a x := by
  unfold actionMem
  split
  · have h := congrArg State.fb (clearFront_memWrite hm ha hf x)
    rwa [clearFront_eq, clearFront_eq] at h
  · rfl

/-! ## A TICK and the rest of the machine -/

/-- The port, its streams and the order are set. -/
def withPort (p : PortState) (l r : List Byte) (q : List Turn) (s : State) : State :=
  { s with port := p, stream := l, resp := r, sched := q }

/-- A TICK does not look at the port (R200). -/
theorem tickOp_withPort (p : PortState) (l r : List Byte) (q : List Turn) (s : State) :
    tickOp (withPort p l r q s) = withPort p l r q (tickOp s) := by
  by_cases hb : boundaryNext s
  · rw [tickOp_boundary (s := withPort p l r q s) hb, tickOp_boundary hb]
    rfl
  · rw [tickOp_inside_eq (s := withPort p l r q s) hb, tickOp_inside_eq hb]
    rfl

theorem deliver_withPort {e : Turn} (he : scanEvent e) (p : PortState) (l r : List Byte) (q : List Turn)
    (s : State) : deliver e (withPort p l r q s) = withPort p l r q (deliver e s) := by
  cases e with
  | tick => exact tickOp_withPort p l r q s
  | animPlaying b => rfl
  | idleInhibit b => rfl
  | _ => exact he.elim

/-- Nor does a scan event change the port. -/
theorem deliver_port_frame {e : Turn} (he : scanEvent e) (s : State) :
    (deliver e s).port = s.port ∧ (deliver e s).stream = s.stream ∧ (deliver e s).resp = s.resp
      ∧ (deliver e s).sched = s.sched := by
  have h : deliver e s = withPort s.port s.stream s.resp s.sched (deliver e s) :=
    deliver_withPort he s.port s.stream s.resp s.sched s
  exact ⟨(congrArg State.port h).trans rfl, (congrArg State.stream h).trans rfl,
    (congrArg State.resp h).trans rfl, (congrArg State.sched h).trans rfl⟩

theorem deliver_emit {e : Turn} (he : scanEvent e) (bs : List Byte) (s : State) :
    deliver e (emit bs s) = emit bs (deliver e s) := by
  obtain ⟨hport, hstream, hresp, hsched⟩ := deliver_port_frame he s
  refine (deliver_withPort he s.port s.stream (s.resp ++ bs) s.sched s).trans ?_
  rw [withPort, ← hport, ← hstream, ← hresp, ← hsched]
  rfl

theorem deliver_withStream {e : Turn} (he : scanEvent e) (l : List Byte) (s : State) :
    deliver e { s with stream := l } = { deliver e s with stream := l } := by
  obtain ⟨hport, -, hresp, hsched⟩ := deliver_port_frame he s
  refine (deliver_withPort he s.port l s.resp s.sched s).trans ?_
  rw [withPort, ← hport, ← hresp, ← hsched]

theorem deliver_setPort {e : Turn} (he : scanEvent e) (p : PortState) (s : State) :
    deliver e { s with port := p } = { deliver e s with port := p } := by
  obtain ⟨-, hstream, hresp, hsched⟩ := deliver_port_frame he s
  refine (deliver_withPort he p s.stream s.resp s.sched s).trans ?_
  rw [withPort, ← hstream, ← hresp, ← hsched]

/-- A state with no swap pending in which buffer `f` is scanned. -/
structure Scanning (c : Config) (f : Bool) (s : State) : Prop where
  registers : RegisterInv s
  cfg : s.cfg = c
  swapPend : s.swapPend = false
  front : s.front = f

variable {c : Config} {f : Bool} {s : State}

theorem Scanning.deliver (h : Scanning c f s) {e : Turn} (he : scanEvent e) :
    Scanning c f (deliver e s) := by
  refine ⟨h.registers.deliver e, (deliver_cfg e s).trans h.cfg, deliver_swapPend h.swapPend e, ?_⟩
  cases e with
  | tick => exact (tickOp_front s h.swapPend).1.trans h.front
  | animPlaying b => exact h.front
  | idleInhibit b => exact h.front
  | _ => exact he.elim

theorem Scanning.withPort (h : Scanning c f s) (p : PortState) (l r : List Byte) (q : List Turn) :
    Scanning c f (withPort p l r q s) :=
  ⟨⟨h.registers.config, h.registers.rowInRange, h.registers.idleBelow, h.registers.memory⟩, h.cfg,
    h.swapPend, h.front⟩

/-- The addresses of the buffer that is not scanned. -/
def InBack (c : Config) (f : Bool) : Nat → Prop := Prog.InBuffers c fun buf => buf = !f

theorem InBack.not_inBuffer {a : Nat} (h : InBack c f a) : ¬ inBuffer c f a := by
  obtain ⟨buf, p, y, bc, rfl, hp, hy, hb, rfl⟩ := h
  rw [inBuffer_addr_iff hp hy hb]
  simp

theorem Scanning.memWrite (h : Scanning c f s) {a : Nat} (ha : InBack c f a) (x : Byte) :
    Scanning c f (memWrite s a x) :=
  ⟨⟨h.registers.config, h.registers.rowInRange, h.registers.idleBelow,
    memWrite_wf h.registers.memory (h.cfg ▸ inBuffers_lt_fbLen ha) x⟩, h.cfg, h.swapPend, h.front⟩

/-- The segment lies in the front buffer (R201). -/
theorem inBuffer_of_mem_segAddrs (h : RegisterInv s) {a : Nat} (ha : a ∈ segAddrs s) :
    inBuffer s.cfg s.front a := by
  obtain ⟨j, hj, rfl⟩ := List.mem_map.1 ha
  have hrow : physRow s < s.cfg.h := by
    have hlt : s.row.toNat < s.cfg.rowOrder.length := by
      rw [h.config.rowLength]
      exact h.rowInRange
    rw [physRow, List.getD_eq_getElem _ _ hlt]
    exact h.config.rowRange _ (List.getElem_mem hlt)
  have hcol : s.half.toNat * s.cfg.hb + j < s.cfg.wb := by
    have hj := List.mem_range.1 hj
    have hw : 2 * s.cfg.hb ≤ s.cfg.wb := by
      unfold Config.hb Config.wb
      omega
    cases s.half <;> simp <;> omega
  exact addr_inBuffer s.cfg s.front s.plane.isLt hrow hcol

theorem segmentOf_memWrite (h : Scanning c f s) {a : Nat} (ha : InBack c f a) (x : Byte) :
    segmentOf (memWrite s a x) = segmentOf s := by
  have hdata : (segAddrs s).map (memRead (memWrite s a x)) = (segAddrs s).map (memRead s) :=
    List.map_congr_left fun b hb => by
      rw [memRead_memWrite h.registers.memory, if_neg]
      rintro rfl
      have hin := inBuffer_of_mem_segAddrs h.registers hb
      rw [h.cfg, h.front] at hin
      exact ha.not_inBuffer hin
  rw [segmentOf, segmentOf, ← hdata]
  rfl

theorem tickOp_memWrite (h : Scanning c f s) {a : Nat} (ha : InBack c f a) (x : Byte) :
    tickOp (memWrite s a x) = memWrite (tickOp s) a x := by
  have hseg := segmentOf_memWrite h ha x
  by_cases hb : boundaryNext s
  · have hact := actionMem_store (act := s.endAct) (x := x) h.registers.memory
      (h.cfg ▸ inBuffers_lt_fbLen ha) (by rw [h.cfg, h.front]; exact ha.not_inBuffer)
    have hfront : (s.front ^^ s.swapPend) = s.front := by rw [h.swapPend, Bool.xor_false]
    have hfb : (if endActionRuns s then
          actionMem s.endAct s.cfg (s.front ^^ s.swapPend) (Mem.store (resetByte s.cfg) s.fb a x)
          else Mem.store (resetByte s.cfg) s.fb a x)
        = Mem.store (resetByte s.cfg) (if endActionRuns s then
          actionMem s.endAct s.cfg (s.front ^^ s.swapPend) s.fb else s.fb) a x := by
      rw [hfront]
      split
      · exact hact
      · rfl
    rw [tickOp_boundary (s := memWrite s a x) hb, tickOp_boundary hb, hseg]
    simp only [memWrite, ← hfb]
    rfl
  · rw [tickOp_inside_eq (s := memWrite s a x) hb, tickOp_inside_eq hb, hseg]
    rfl

theorem deliver_memWrite (h : Scanning c f s) {e : Turn} (he : scanEvent e) {a : Nat} (ha : InBack c f a)
    (x : Byte) : deliver e (memWrite s a x) = memWrite (deliver e s) a x := by
  cases e with
  | tick => exact tickOp_memWrite h ha x
  | animPlaying b => rfl
  | idleInhibit b => rfl
  | _ => exact he.elim

/-- A scan event leaves the back buffer as it is (R75). -/
theorem memRead_deliver (h : Scanning c f s) {e : Turn} (he : scanEvent e) {a : Nat} (ha : InBack c f a) :
    memRead (deliver e s) a = memRead s a := by
  have hm := h.registers.memory
  cases e with
  | tick =>
    have hsame : (tickOp s).fb = s.fb → memRead (tickOp s) a = memRead s a := fun hf => by
      rw [memRead, memRead, hf, tickOp_cfg]
    by_cases hb : boundaryNext s
    · cases hrun : endActionRuns s with
      | false => exact hsame (tickOp_boundary_quiet hb hrun).1
      | true =>
        have hact := tickOp_boundary_action hm hb hrun
        unfold actionEffect at hact
        split at hact
        · exact hsame hact.1
        · refine hact.2.1 a ?_
          rw [(tickOp_front s h.swapPend).1, h.cfg, h.front]
          exact ha.not_inBuffer
        · exact hsame hact.1
        · exact hsame hact.1
    · exact hsame (by rw [tickOp_onlyScanned hb])
  | animPlaying b => rfl
  | idleInhibit b => rfl
  | _ => exact he.elim

/-! ## An operation with no order commutes with a scan event -/

theorem pause_of_no_order (h : s.sched = []) : pause s = s := by
  unfold pause
  split
  · rw [h, pauseTurns, ← h]
  · rfl

namespace Prog

variable {D : Bool → List Slot → Prop}

section
variable {buf : Bool} {todo : List Slot} {next : Gray → Prog}

theorem run_data_of_pair (hr : isRunning s = true) {low high : Byte} {more : List Byte}
    (hs : s.stream = low :: high :: more) :
    (Prog.data buf todo next).run s = (next ⟨low, high⟩).run { s with stream := more } := by
  simp only [run, hr, hs, if_true]

theorem run_data_of_low (hr : isRunning s = true) {low : Byte} (hs : s.stream = [low]) :
    (Prog.data buf todo next).run s = { s with stream := [], port := .data buf todo (some low) } := by
  simp only [run, hr, hs, if_true]

theorem run_data_of_nil (hr : isRunning s = true) (hs : s.stream = []) :
    (Prog.data buf todo next).run s = { s with port := .data buf todo none } := by
  simp only [run, hr, hs, if_true]

end

theorem run_deliver {P : Prog} (hP : P.Touches (InBack c f) D) (h : Scanning c f s)
    (hq : s.sched = []) (hr : isRunning s = true) {e : Turn} (he : scanEvent e) :
    P.run (deliver e s) = deliver e (P.run s) := by
  induction P generalizing s with
  | done => rfl
  | read a next ih =>
    obtain ⟨hport, -, -, hsched⟩ := deliver_port_frame he s
    have hread : ∀ {u : State}, u.sched = [] → busRead a u = (memRead u a, u) := fun hu => by
      rw [busRead, pause_of_no_order hu]
    rw [run, run, hread hq, hread (hsched.trans hq), memRead_deliver h he hP.1]
    exact ih _ (hP.2 _) h hq hr
  | write a x next ih =>
    obtain ⟨hport, -, -, hsched⟩ := deliver_port_frame he s
    have hr' : isRunning (deliver e s) = true := by rw [isRunning, hport]; exact hr
    have hwrite : ∀ {u : State}, u.sched = [] → isRunning u = true → busWrite a x u = memWrite u a x :=
      fun hu hru => by simp only [busWrite, pause_of_no_order hu, hru, if_true]
    rw [run, run, hwrite hq hr, hwrite (hsched.trans hq) hr', ← deliver_memWrite h he hP.1]
    exact ih hP.2 (h.memWrite hP.1 x) hq hr
  | emit bs next ih =>
    obtain ⟨hport, -, -, -⟩ := deliver_port_frame he s
    have hr' : isRunning (deliver e s) = true := by rw [isRunning, hport]; exact hr
    rw [run, run, busEmit_of_running bs hr, busEmit_of_running bs hr', ← deliver_emit he]
    exact ih hP (h.withPort s.port s.stream (s.resp ++ bs) s.sched) hq hr
  | data buf todo next ih =>
    obtain ⟨hport, hstream, -, -⟩ := deliver_port_frame he s
    have hr' : isRunning (deliver e s) = true := by rw [isRunning, hport]; exact hr
    obtain ⟨q, hq'⟩ : ∃ q, s.stream = q := ⟨_, rfl⟩
    match q with
    | [] =>
      rw [run_data_of_nil hr' (hstream.trans hq'), run_data_of_nil hr hq']
      exact (deliver_setPort he (.data buf todo none) s).symm
    | [low] =>
      have hw := deliver_setPort he (.data buf todo (some low)) { s with stream := [] }
      rw [deliver_withStream he] at hw
      rw [run_data_of_low hr' (hstream.trans hq'), run_data_of_low hr hq']
      exact hw.symm
    | low :: high :: more =>
      rw [run_data_of_pair hr' (hstream.trans hq'), run_data_of_pair hr hq', ← deliver_withStream he]
      exact ih _ (hP.2 _) (h.withPort s.port more s.resp s.sched) hq hr

end Prog

/-! ## All events behind the operation -/

/-- The order of what is to come is set. -/
def ordered (l : List Turn) (s : State) : State := { s with sched := l }

theorem deliver_ordered (e : Turn) (l : List Turn) (s : State) :
    deliver e (ordered l s) = ordered l (deliver e s) := withSched_deliver e s l

theorem deliverAll_ordered (evs : List Turn) (l : List Turn) (s : State) :
    deliverAll evs (ordered l s) = ordered l (deliverAll evs s) := Prog.withSched_deliverAll evs s l

/-- The events among the turns of an order. -/
def eventsOf (l : List Turn) : List Turn := l.filter fun e => e ≠ .port

/-- Events and port turns of an order inside a back-buffer operation. -/
def ScanOrder (l : List Turn) : Prop := ∀ e ∈ l, e = Turn.port ∨ scanEvent e

theorem scanEvent_of_mem_eventsOf {l : List Turn} (h : ScanOrder l) : ∀ e ∈ eventsOf l, scanEvent e :=
  fun e he => by
    obtain ⟨hm, hne⟩ := List.mem_filter.1 he
    exact (h e hm).resolve_left (by simpa using hne)

theorem scanEvent_ne_reset {e : Turn} (h : scanEvent e) : e ≠ .reset := by
  rintro rfl
  exact h

theorem isRunning_deliver {e : Turn} (he : scanEvent e) (s : State) :
    isRunning (deliver e s) = isRunning s := by
  obtain ⟨hport, -, -, -⟩ := deliver_port_frame he s
  rw [isRunning, isRunning, hport]

/-- A pause delivers the events of the turns it takes. -/
theorem pauseTurns_eq (l : List Turn) (hl : ScanOrder l) {s : State} (hr : isRunning s = true) :
    ∃ pre tl, l = pre ++ tl ∧ pauseTurns l s = deliverAll (eventsOf pre) (ordered tl s) := by
  induction l generalizing s with
  | nil => exact ⟨[], [], rfl, rfl⟩
  | cons e l ih =>
    rw [pauseTurns]
    by_cases he : e = .port
    · subst he
      exact ⟨[.port], l, rfl, by rw [if_pos rfl]; rfl⟩
    · have hscan : scanEvent e := (hl e (by simp)).resolve_left he
      have hr' : isRunning (deliver e (ordered l s)) = true := by
        rw [isRunning_deliver hscan]
        exact hr
      obtain ⟨pre, tl, hpre, hpause⟩ := ih (fun x hx => hl x (by simp [hx])) hr'
      refine ⟨e :: pre, tl, by rw [hpre]; rfl, ?_⟩
      have hev : eventsOf (e :: pre) = e :: eventsOf pre := List.filter_cons_of_pos (by simpa using he)
      rw [if_neg he]
      refine (if_pos hr').trans ?_
      refine hpause.trans ?_
      rw [hev]
      refine congrArg (deliverAll (eventsOf pre)) ?_
      rw [deliver_ordered]
      exact (deliver_ordered e tl s).symm

theorem Scanning.deliverAll {evs : List Turn} (he : ∀ e ∈ evs, scanEvent e) {s : State}
    (h : Scanning c f s) : Scanning c f (deliverAll evs s) := by
  induction evs generalizing s with
  | nil => exact h
  | cons e evs ih => exact ih (fun x hx => he x (by simp [hx])) (h.deliver (he e (by simp)))

theorem memRead_deliverAll {evs : List Turn} (he : ∀ e ∈ evs, scanEvent e) {s : State}
    (h : Scanning c f s) {a : Nat} (ha : InBack c f a) : memRead (deliverAll evs s) a = memRead s a := by
  induction evs generalizing s with
  | nil => rfl
  | cons e evs ih =>
    exact (ih (fun x hx => he x (by simp [hx])) (h.deliver (he e (by simp)))).trans
      (memRead_deliver h (he e (by simp)) ha)

theorem deliverAll_memWrite {evs : List Turn} (he : ∀ e ∈ evs, scanEvent e) {s : State}
    (h : Scanning c f s) {a : Nat} (ha : InBack c f a) (x : Byte) :
    memWrite (deliverAll evs s) a x = deliverAll evs (memWrite s a x) := by
  induction evs generalizing s with
  | nil => rfl
  | cons e evs ih =>
    refine (ih (fun x hx => he x (by simp [hx])) (h.deliver (he e (by simp)))).trans ?_
    exact congrArg (deliverAll evs) (deliver_memWrite h (he e (by simp)) ha x).symm

theorem isRunning_deliverAll {evs : List Turn} (he : ∀ e ∈ evs, scanEvent e) (s : State) :
    isRunning (deliverAll evs s) = isRunning s :=
  deliverAll_running (fun e hm => scanEvent_ne_reset (he e hm)) s

theorem pause_eq (hr : isRunning s = true) (hl : ScanOrder s.sched) :
    ∃ pre tl, s.sched = pre ++ tl ∧ pause s = deliverAll (eventsOf pre) (ordered tl s) := by
  rw [pause, if_pos hr]
  exact pauseTurns_eq s.sched hl hr

theorem ScanOrder.of_append {l l' : List Turn} (h : ScanOrder (l ++ l')) :
    ScanOrder l ∧ ScanOrder l' :=
  ⟨fun e he => h e (List.mem_append_left _ he), fun e he => h e (List.mem_append_right _ he)⟩

namespace Prog

variable {D : Bool → List Slot → Prop}

theorem run_deliverAll {P : Prog} (hP : P.Touches (InBack c f) D) {evs : List Turn}
    (he : ∀ e ∈ evs, scanEvent e) {s : State} (h : Scanning c f s) (hq : s.sched = [])
    (hr : isRunning s = true) : P.run (deliverAll evs s) = deliverAll evs (P.run s) := by
  induction evs generalizing s with
  | nil => rfl
  | cons e evs ih =>
    have hscan := he e (by simp)
    obtain ⟨-, -, -, hsched⟩ := deliver_port_frame hscan s
    refine (ih (fun x hx => he x (by simp [hx])) (h.deliver hscan) (hsched.trans hq)
      ((isRunning_deliver hscan s).trans hr)).trans ?_
    exact congrArg (deliverAll evs) (run_deliver hP h hq hr hscan)

/-- A back-buffer operation with events among its accesses is the operation without them, and then the events of the turns it took (R75). -/
def Atomic (P : Prog) (s : State) : Prop :=
  ∃ taken tl, s.sched = taken ++ tl
    ∧ P.run s = deliverAll (eventsOf taken) (ordered tl (P.run (ordered [] s)))

/-- Events in front of an access can be moved behind the whole operation. -/
theorem atomic_of_pause {P : Prog} (hP : P.Touches (InBack c f) D) {pre tl : List Turn}
    (hpre : ScanOrder pre) {s : State} (h : Scanning c f s) (hr : isRunning s = true)
    (hA : P.Atomic (deliverAll (eventsOf pre) (ordered tl s))) :
    ∃ taken tl', pre ++ tl = taken ++ tl'
      ∧ P.run (deliverAll (eventsOf pre) (ordered tl s))
        = deliverAll (eventsOf taken) (ordered tl' (P.run (ordered [] s))) := by
  have hev := scanEvent_of_mem_eventsOf hpre
  obtain ⟨taken, tl', hs, hrun⟩ := hA
  rw [deliverAll_sched] at hs
  have hs' : tl = taken ++ tl' := hs
  refine ⟨pre ++ taken, tl', by rw [hs', List.append_assoc], ?_⟩
  have hfilter : eventsOf (pre ++ taken) = eventsOf pre ++ eventsOf taken := List.filter_append ..
  have hinner : ordered [] (deliverAll (eventsOf pre) (ordered tl s))
      = deliverAll (eventsOf pre) (ordered [] s) := by
    rw [deliverAll_ordered, deliverAll_ordered]
    rfl
  have hzero := run_deliverAll hP hev (s := ordered [] s)
    (h.withPort s.port s.stream s.resp []) rfl hr
  have happ : ∀ u, deliverAll (eventsOf pre ++ eventsOf taken) u
      = deliverAll (eventsOf taken) (deliverAll (eventsOf pre) u) :=
    fun u => List.foldl_append
  rw [hrun, hinner, hfilter, happ, hzero]
  exact congrArg (deliverAll (eventsOf taken)) (deliverAll_ordered _ _ _).symm

theorem atomic {P : Prog} (hP : P.Touches (InBack c f) D) {s : State} (h : Scanning c f s)
    (hr : isRunning s = true) (hl : ScanOrder s.sched) : P.Atomic s := by
  induction P generalizing s with
  | done => exact ⟨[], s.sched, rfl, rfl⟩
  | read a next ih =>
    obtain ⟨pre, tl, hs, hpause⟩ := pause_eq hr hl
    obtain ⟨hpre, htl⟩ := ScanOrder.of_append (hs ▸ hl)
    have hev := scanEvent_of_mem_eventsOf hpre
    have htl' := h.withPort s.port s.stream s.resp tl
    obtain ⟨taken, tl', hsplit, hrun⟩ := atomic_of_pause (tl := tl) (hP.2 (memRead s a)) hpre h hr
      (ih _ (hP.2 _) (htl'.deliverAll hev) ((isRunning_deliverAll hev _).trans hr)
        (by rw [deliverAll_sched]; exact htl))
    refine ⟨taken, tl', hs.trans hsplit, ?_⟩
    have hread : memRead (deliverAll (eventsOf pre) (ordered tl s)) a = memRead s a :=
      memRead_deliverAll hev htl' hP.1
    rw [run, busRead, hpause, hread, hrun, run, busRead, pause_of_no_order rfl]
    rfl
  | write a x next ih =>
    obtain ⟨pre, tl, hs, hpause⟩ := pause_eq hr hl
    obtain ⟨hpre, htl⟩ := ScanOrder.of_append (hs ▸ hl)
    have hev := scanEvent_of_mem_eventsOf hpre
    have hw := h.memWrite hP.1 x
    have htl' := hw.withPort s.port s.stream s.resp tl
    obtain ⟨taken, tl', hsplit, hrun⟩ := atomic_of_pause (tl := tl) hP.2 hpre hw hr
      (ih hP.2 (htl'.deliverAll hev) ((isRunning_deliverAll hev _).trans hr)
        (by rw [deliverAll_sched]; exact htl))
    refine ⟨taken, tl', hs.trans hsplit, ?_⟩
    have hwrite : busWrite a x s
        = deliverAll (eventsOf pre) (ordered tl (memWrite s a x)) := by
      rw [busWrite, hpause]
      refine (if_pos ((isRunning_deliverAll hev (ordered tl s)).trans hr)).trans ?_
      exact deliverAll_memWrite hev (h.withPort s.port s.stream s.resp tl) hP.1 x
    have hzero : busWrite a x (ordered [] s) = ordered [] (memWrite s a x) := by
      rw [busWrite, pause_of_no_order rfl]
      exact if_pos hr
    rw [run, hwrite, hrun, run, hzero]
  | emit bs next ih =>
    obtain ⟨taken, tl, hs, hrun⟩ := ih hP (h.withPort s.port s.stream (s.resp ++ bs) s.sched) hr hl
    refine ⟨taken, tl, hs, ?_⟩
    rw [run, busEmit_of_running bs hr, run, busEmit_of_running bs (by exact hr)]
    exact hrun
  | data buf todo next ih =>
    obtain ⟨q, hq⟩ : ∃ q, s.stream = q := ⟨_, rfl⟩
    match q with
    | [] =>
      refine ⟨[], s.sched, rfl, ?_⟩
      rw [run_data_of_nil hr hq, run_data_of_nil (by exact hr) (by exact hq)]
      rfl
    | [low] =>
      refine ⟨[], s.sched, rfl, ?_⟩
      rw [run_data_of_low hr hq, run_data_of_low (by exact hr) (by exact hq)]
      rfl
    | low :: high :: more =>
      obtain ⟨taken, tl, hs, hrun⟩ := ih _ (hP.2 ⟨low, high⟩) (h.withPort s.port more s.resp s.sched) hr hl
      refine ⟨taken, tl, hs, ?_⟩
      rw [run_data_of_pair hr hq, run_data_of_pair (by exact hr) (by exact hq)]
      exact hrun

end Prog

theorem finishOp_deliverAll {evs : List Turn} (he : ∀ e ∈ evs, scanEvent e) (s : State) :
    finishOp (deliverAll evs s) = deliverAll evs (finishOp s) := by
  induction evs generalizing s with
  | nil => rfl
  | cons e evs ih =>
    have hscan := he e (by simp)
    have hone : finishOp (deliver e s) = deliver e (finishOp s) := by
      cases hr : isRunning s with
      | true =>
        rw [finishOp_of_running hr, finishOp_of_running ((isRunning_deliver hscan s).trans hr)]
        exact (deliver_setPort hscan .idle s).symm
      | false =>
        rw [finishOp_of_not_running hr,
          finishOp_of_not_running ((isRunning_deliver hscan s).trans hr)]
    exact (ih (fun x hx => he x (by simp [hx])) (deliver e s)).trans (congrArg (deliverAll evs) hone)

theorem finishOp_ordered (s : State) (l : List Turn) :
    finishOp (ordered l s) = ordered l (finishOp s) := by
  cases hr : isRunning s with
  | true =>
    rw [finishOp_of_running hr, finishOp_of_running (by exact hr)]
    rfl
  | false => rw [finishOp_of_not_running hr, finishOp_of_not_running (by exact hr)]

/-- The targets of a back-buffer operation are the back buffer. -/
theorem targetsOf_backOnly {i : Instr} (h : backOnly i) : ∀ t ∈ targetsOf i, t = .back := by
  cases i with
  | cprect src dst sbx sy bw h' dbx dy =>
    obtain ⟨rfl, rfl⟩ := h
    simp [targetsOf]
  | rdrect t bx y bw h' => exact fun _ ht => (List.mem_singleton.1 ht).trans h
  | wrrect t bx y bw h' => exact fun _ ht => (List.mem_singleton.1 ht).trans h
  | flrect t v bx y bw h' => exact fun _ ht => (List.mem_singleton.1 ht).trans h
  | setpx t v x y => exact fun _ ht => (List.mem_singleton.1 ht).trans h
  | getpx t x y => exact fun _ ht => (List.mem_singleton.1 ht).trans h
  | _ => exact h.elim

/-- A back-buffer operation without actions is a pixel out of range. -/
theorem pixel_of_opProg_none {i : Instr} (hback : backOnly i) (h : opProg s i = none) :
    ∃ t x y, (s.cfg.w ≤ x.toNat ∨ s.cfg.h ≤ y.toNat) ∧ ((∃ v, i = .setpx t v x y) ∨ i = .getpx t x y) := by
  have hout : ∀ {x y : Byte} {P : Prog}, (if pixelInRange s.cfg x y then some P else none) = none →
      s.cfg.w ≤ x.toNat ∨ s.cfg.h ≤ y.toNat := fun {x y P} h => by
    have hin : ¬ pixelInRange s.cfg x y = true := fun hin => by simp [hin] at h
    rw [pixelInRange_iff] at hin
    omega
  cases i with
  | setpx t v x y => exact ⟨t, x, y, hout h, .inl ⟨v, rfl⟩⟩
  | getpx t x y => exact ⟨t, x, y, hout h, .inr rfl⟩
  | rdrect t bx y bw h' => cases h
  | wrrect t bx y bw h' => cases h
  | cprect src dst sbx sy bw h' dbx dy => cases h
  | flrect t v bx y bw h' => cases h
  | _ => exact hback.elim

/-- Settles O27: all events move behind the operation, since none of them reads or writes what it does. -/
theorem backBufferOperationsActAsAtomic : Obligations.BackBufferOperationsActAsAtomic := by
  intro i s h hswap hback _ hl
  cases hP : opProg s i with
  | some P =>
    have hreg := h.registers
    have hscan : Scanning s.cfg s.front (beginOp s) :=
      ⟨⟨hreg.config, hreg.rowInRange, hreg.idleBelow, hreg.memory⟩, rfl, hswap, rfl⟩
    have htouch := opProg_touches (B := fun buf => buf = !s.front) hP h.config fun t ht => by
      rw [targetsOf_backOnly hback t ht]
      rfl
    obtain ⟨taken, tl, hs, hrun⟩ := Prog.atomic htouch hscan rfl hl
    have hs' : s.sched = taken ++ tl := hs
    obtain ⟨htaken, -⟩ := ScanOrder.of_append (l := taken) (l' := tl) (hs' ▸ hl)
    have hu : finishOp (P.run (beginOp s)) = deliverAll (eventsOf taken)
        (ordered tl (finishOp (P.run (beginOp (ordered [] s))))) := by
      rw [hrun, finishOp_deliverAll (scanEvent_of_mem_eventsOf htaken), finishOp_ordered]
      rfl
    have hsched : (finishOp (P.run (beginOp s))).sched = tl := by
      rw [hu, deliverAll_sched]
      rfl
    refine ⟨_, _, taken, exec_opProg hP, exec_opProg (s := ordered [] s) hP, ?_, ?_⟩
    · rw [hsched, hs']
    · rw [hsched]
      exact hu
  | none =>
    obtain ⟨t, x, y, hout, ⟨v, rfl⟩ | rfl⟩ := pixel_of_opProg_none hback hP
    · exact ⟨s, { s with sched := [] }, [], (pixelsOutOfRangeAreNoOps t v x y s hout).1,
        (pixelsOutOfRangeAreNoOps t v x y { s with sched := [] } hout).1, rfl, rfl⟩
    · exact ⟨_, _, [], (pixelsOutOfRangeAreNoOps t 0 x y s hout).2,
        (pixelsOutOfRangeAreNoOps t 0 x y { s with sched := [] } hout).2, rfl, rfl⟩

end Sys2Proof.Machine
end
